-- ==== Sys2Proof/Word.lean ====
section
/-! DEFINITION. The words HD11 decodes: section descriptors and host register words (spec R6, R33, R90). -/

namespace Sys2Proof

/-- One element of `SECT`: a 16-bit section descriptor (R90). -/
abbrev Descriptor := BitVec 16

/-- One host register or one element on the 32-bit host data path (R33, R61). -/
abbrev HostWord := BitVec 32

/-- The operand field of a descriptor, `word[7:0]` (R91). -/
abbrev SfbEnd := BitVec 8

end Sys2Proof
end

