-- ==== Sys2Proof/Syntax.lean ====
section
/-! DEFINITION. The instructions of HD11: the 16 section opcodes of spec R93 and the three host commands of R96, one
constructor per row of spec/opcode_table.json. -/

namespace Sys2Proof

/-- An instruction. A section opcode carries `sfb_end`, the index of the first scalefactor band of the next section
(R91); the reserved bits 11:8 take no part in decoding and are no operand. A host command has no operand (R281 to R283). -/
inductive Instr where
  | zero (sfbEnd : SfbEnd)
  | hcb1 (sfbEnd : SfbEnd)
  | hcb2 (sfbEnd : SfbEnd)
  | hcb3 (sfbEnd : SfbEnd)
  | hcb4 (sfbEnd : SfbEnd)
  | hcb5 (sfbEnd : SfbEnd)
  | hcb6 (sfbEnd : SfbEnd)
  | hcb7 (sfbEnd : SfbEnd)
  | hcb8 (sfbEnd : SfbEnd)
  | hcb9 (sfbEnd : SfbEnd)
  | hcb10 (sfbEnd : SfbEnd)
  | hcb11 (sfbEnd : SfbEnd)
  | rsvd12 (sfbEnd : SfbEnd)
  | noise (sfbEnd : SfbEnd)
  | int2 (sfbEnd : SfbEnd)
  | int (sfbEnd : SfbEnd)
  | start
  | resume
  | abort
  deriving DecidableEq, Repr

end Sys2Proof
end

