-- ==== Sys2Proof/WellFormed.lean ====
section
/-! DEFINITION. Well-formed instructions: the operand range of spec R91 and R98. -/

namespace Sys2Proof

/-- `sfb_end` is 0..128 (R91, R98). -/
def SfbEnd.wf (e : SfbEnd) : Bool := decide (e.toNat ≤ 128)

/-- The operand of an instruction is in the range its format gives. -/
def Instr.wf : Instr → Bool
  | .zero e => e.wf
  | .hcb1 e => e.wf
  | .hcb2 e => e.wf
  | .hcb3 e => e.wf
  | .hcb4 e => e.wf
  | .hcb5 e => e.wf
  | .hcb6 e => e.wf
  | .hcb7 e => e.wf
  | .hcb8 e => e.wf
  | .hcb9 e => e.wf
  | .hcb10 e => e.wf
  | .hcb11 e => e.wf
  | .rsvd12 e => e.wf
  | .noise e => e.wf
  | .int2 e => e.wf
  | .int e => e.wf
  | .start => true
  | .resume => true
  | .abort => true

end Sys2Proof
end

