-- ==== Sys2Proof/Decode.lean ====
section
/-! DEFINITION. Decoding and encoding: section descriptors (spec R90 to R95) and writes to `CTRL` (R96, R97). -/

namespace Sys2Proof

/-- What HD11 decodes (30_encoding.md): an element of `SECT`, or the word of a host write to `CTRL`. The two are distinct
streams and never share a place, so a word says which it is. -/
inductive CodeWord where
  | descriptor (w : Descriptor)
  | control (w : HostWord)
  deriving DecidableEq, Repr

/-- Why a word is no instruction. -/
inductive DecodeReject where
  /-- A `CTRL` write with bits 2:0 all 0 (R286): it does nothing. -/
  | noCommand
  /-- A descriptor whose `cb` no row of the opcode map has; R93 assigns all 16, so this never answers. -/
  | noOpcode
  deriving DecidableEq, Repr

/-- `cb = word[15:12]`, the opcode (R91). -/
def Descriptor.cb (w : Descriptor) : BitVec 4 := w.extractLsb' 12 4

/-- `sfb_end = word[7:0]` (R91). -/
def Descriptor.sfbEnd (w : Descriptor) : SfbEnd := w.extractLsb' 0 8

/-- The opcode map of R93. -/
def opcodeMap : List (BitVec 4 × (SfbEnd → Instr)) :=
  [(0, .zero), (1, .hcb1), (2, .hcb2), (3, .hcb3), (4, .hcb4), (5, .hcb5), (6, .hcb6), (7, .hcb7),
   (8, .hcb8), (9, .hcb9), (10, .hcb10), (11, .hcb11), (12, .rsvd12), (13, .noise), (14, .int2), (15, .int)]

/-- Decode one section descriptor: by `cb` alone; bits 11:8 are ignored (R91, R95). An `sfb_end` above 128 decodes: the
range is a launch premise, not an encoding rule (R92; log 15). -/
def decodeDescriptor (w : Descriptor) : Except DecodeReject Instr :=
  match opcodeMap.find? (fun row => row.1 == w.cb) with
  | some row => .ok (row.2 w.sfbEnd)
  | none => .error .noOpcode

/-- Decode a write to `CTRL`: one command, by priority ABORT, then START, then RESUME (R97, R286); bits 31:3 are ignored
(R96). -/
def decodeControl (w : HostWord) : Except DecodeReject Instr :=
  if w.getLsbD 2 then .ok .abort
  else if w.getLsbD 0 then .ok .start
  else if w.getLsbD 1 then .ok .resume
  else .error .noCommand

/-- The decoder. -/
def decode : CodeWord → Except DecodeReject Instr
  | .descriptor w => decodeDescriptor w
  | .control w => decodeControl w

/-- `special(cb)` as R94 writes it, `((cb - 1) & 0xC) = 0xC`, on 4-bit words (so that `cb = 0` gives all ones). -/
def special (cb : BitVec 4) : Bool := ((cb - 1#4) &&& 0xC#4) == 0xC#4

/-! The encoder. -/

/-- `(cb << 12) | sfb_end`, with `rsv = 0` (R98). -/
def descriptorWord (cb : BitVec 4) (e : SfbEnd) : Descriptor := (cb.setWidth 16 <<< 12) ||| e.setWidth 16

/-- The word of an instruction (R93, R96, R98). -/
def encode : Instr → CodeWord
  | .zero e => .descriptor (descriptorWord 0 e)
  | .hcb1 e => .descriptor (descriptorWord 1 e)
  | .hcb2 e => .descriptor (descriptorWord 2 e)
  | .hcb3 e => .descriptor (descriptorWord 3 e)
  | .hcb4 e => .descriptor (descriptorWord 4 e)
  | .hcb5 e => .descriptor (descriptorWord 5 e)
  | .hcb6 e => .descriptor (descriptorWord 6 e)
  | .hcb7 e => .descriptor (descriptorWord 7 e)
  | .hcb8 e => .descriptor (descriptorWord 8 e)
  | .hcb9 e => .descriptor (descriptorWord 9 e)
  | .hcb10 e => .descriptor (descriptorWord 10 e)
  | .hcb11 e => .descriptor (descriptorWord 11 e)
  | .rsvd12 e => .descriptor (descriptorWord 12 e)
  | .noise e => .descriptor (descriptorWord 13 e)
  | .int2 e => .descriptor (descriptorWord 14 e)
  | .int e => .descriptor (descriptorWord 15 e)
  | .start => .control 1
  | .resume => .control 2
  | .abort => .control 4

/-- The code word a row of spec/opcode_table.json stands for: a descriptor is 16 bits, a `CTRL` write 32 (R90, R96). -/
def tableWord (nbits w : Nat) : CodeWord :=
  if nbits = 16 then .descriptor (BitVec.ofNat 16 w) else .control (BitVec.ofNat 32 w)

/-- The instruction the decoder reads from a table row's word. -/
def decodeTableWord (nbits w : Nat) : Option Instr := (decode (tableWord nbits w)).toOption

/-! What an instruction is, read off its constructor. -/

/-- The codebook id of a section opcode, none for a host command (R93). -/
def Instr.codebook : Instr → Option (BitVec 4)
  | .zero _ => some 0
  | .hcb1 _ => some 1
  | .hcb2 _ => some 2
  | .hcb3 _ => some 3
  | .hcb4 _ => some 4
  | .hcb5 _ => some 5
  | .hcb6 _ => some 6
  | .hcb7 _ => some 7
  | .hcb8 _ => some 8
  | .hcb9 _ => some 9
  | .hcb10 _ => some 10
  | .hcb11 _ => some 11
  | .rsvd12 _ => some 12
  | .noise _ => some 13
  | .int2 _ => some 14
  | .int _ => some 15
  | .start => none
  | .resume => none
  | .abort => none

end Sys2Proof
end

