-- ==== Sys2Proof/Config.lean ====
section
/-! DEFINITION. What is fixed for one HD11 (spec R5): the fixed constants, the shape of the configuration (the ROMs
and parameters of R5, R40 to R43), its well-formedness (R40, R163), and the free values the spec leaves open (log 1 to 11). -/

namespace Sys2Proof

/-- `dimension` of a codebook, {2, 4} (R40). -/
inductive Dim where
  | pair
  | quad
  deriving DecidableEq, Repr

/-- The number of values one codeword yields. -/
def Dim.count : Dim → Nat
  | .pair => 2
  | .quad => 4

/-- One record of `CB_META` (R40). -/
structure CodeBook where
  dim : Dim
  signed : Bool
  offset : Nat
  modulus : Nat
  deriving DecidableEq, Repr

/-- `modulus^dimension`: the codeword indices are below it (R26, R41). -/
def CodeBook.indexBound (b : CodeBook) : Nat := b.modulus ^ b.dim.count

/-- One Huffman tree `HCB[cb]` (R41, R161). Finite and complete by its shape, which is R163 (a) and (b): every inner
node has two children and every bit sequence reaches a leaf. A leaf holds a codeword index (`u9`, R26). -/
inductive CodeTree where
  | leaf (idx : BitVec 9)
  | node (zero one : CodeTree)
  deriving DecidableEq, Repr, Inhabited

/-- The longest codeword of a tree, in bits. -/
def CodeTree.depth : CodeTree → Nat
  | .leaf _ => 0
  | .node l r => max l.depth r.depth + 1

/-- Every leaf index is below `n` (R163 (d)). -/
def CodeTree.leavesBelow (n : Nat) : CodeTree → Bool
  | .leaf i => decide (i.toNat < n)
  | .node l r => l.leavesBelow n && r.leavesBelow n

/-- Codewords are non-empty (R161): the root is no leaf. -/
def CodeTree.isNode : CodeTree → Bool
  | .leaf _ => false
  | .node _ _ => true

/-- Contents of the ROMs and values of the parameters: the rows of R5 marked "parameter", not yet known to be a
configuration of HD11. -/
structure RomTables where
  dimBoundary : Nat
  lmax : Nat
  /-- `QT`, the fractional bits of the cube-root table. -/
  qt : Nat
  sfOffset : Int
  /-- `POW2Q[0..3]` (R43). -/
  pow2q : List (BitVec 16)
  /-- `CBRT_TAB[0..1025]` (R42). -/
  cbrtTab : List (BitVec 32)
  /-- `CB_META[1..11]`, the record of id `cb` at place `cb - 1` (R40). -/
  books : List CodeBook
  /-- `HCB[1..11]`, the tree of id `cb` at place `cb - 1` (R41). -/
  trees : List CodeTree
  deriving DecidableEq, Repr

namespace Config

/-- `ESC_CB` (R5). -/
abbrev escCb : Nat := 11
/-- `ESC_SENTINEL` (R5). -/
abbrev escSentinel : Nat := 16
/-- `ESC_N0` (R5). -/
abbrev escN0 : Nat := 4
/-- `ESC_NMAX` (R5). -/
abbrev escNMax : Nat := 13
/-- `M_LIMIT` (R5). -/
abbrev mLimit : Nat := 8192
/-- `QTOP` (R5). -/
abbrev qTop : Nat := 30
/-- `DIRECT_MAX` (R5). -/
abbrev directMax : Nat := 1024
/-- `MAX_SECT` (R5). -/
abbrev maxSect : Nat := 128
/-- `MAX_SFBC` (R5). -/
abbrev maxSfbc : Nat := 128
/-- `MAX_NB` (R5). -/
abbrev maxNb : Nat := 64
/-- `MAX_BAND` (R5). -/
abbrev maxBand : Nat := 512
/-- `MAX_WIDTH` (R5). -/
abbrev maxWidth : Nat := 1024
/-- `NLINE` (R5). -/
abbrev nLine : Nat := 1024

/-- Free: the bit the external reader supplies at or past the end of the host's data, one draw each (R67, U4; log 4). -/
opaque freeBit : Nat → Bool
/-- Free: a 32-bit value the spec leaves open, one draw each (U2, U3, U5, U8, U9; log 5, 6, 8, 9). -/
opaque freeWord : Nat → BitVec 32
/-- Free: a natural number the spec leaves open (a counter's or the reader's position, U2, U9; log 5, 6). -/
opaque freeNat : Nat → Nat
/-- Free: what element `i` of a buffer holds after its contents became unspecified in draw `n` (U2, U9; log 5, 6). -/
opaque freeElem : (n i : Nat) → BitVec 32
/-- Free: `HCB[cb]` of the machine that `State.reset` describes: the spec gives no tree (N1, D9; log 11). -/
opaque hcb : Nat → CodeTree

end Config

/-- One codebook record is well-formed for id `cb` (R40). -/
def CodeBook.wf (dimBoundary cb : Nat) (b : CodeBook) : Bool :=
  (b.dim == if cb < dimBoundary then Dim.quad else Dim.pair)
    && decide (2 ≤ b.modulus) && decide (b.indexBound ≤ 512) && decide (b.offset < b.modulus)
    && (b.signed || b.offset == 0)
    && (cb != Config.escCb || (b.dim == .pair && !b.signed && b.modulus == 17))

/-- One tree is well-formed for its codebook (R163). -/
def CodeTree.wf (lmax : Nat) (b : CodeBook) (t : CodeTree) : Bool :=
  t.isNode && decide (t.depth ≤ lmax) && t.leavesBelow b.indexBound

/-- Books and trees from id `cb` on are well-formed, pairwise. -/
def RomTables.pairsWf (dimBoundary lmax : Nat) : (cb : Nat) → List CodeBook → List CodeTree → Bool
  | _, [], [] => true
  | cb, b :: bs, t :: ts => b.wf dimBoundary cb && t.wf lmax b && RomTables.pairsWf dimBoundary lmax (cb + 1) bs ts
  | _, [], _ :: _ => false
  | _, _ :: _, [] => false

/-- The tables are a configuration of HD11: R40, R163, the table lengths of R5, and `LMAX` at most 32. -/
def RomTables.wf (r : RomTables) : Bool :=
  r.books.length == 11 && r.trees.length == 11 && r.cbrtTab.length == 1026 && r.pow2q.length == 4
    && decide (r.lmax ≤ 32) && RomTables.pairsWf r.dimBoundary r.lmax 1 r.books r.trees

/-- The configuration of one HD11. Tables that are not well-formed are no configuration of HD11, so the model has no state
that holds them: that is how it refuses them (R163, R348, U6; log 13). No step writes it (R20, R344). -/
structure Rom extends RomTables where
  ok : toRomTables.wf = true
  deriving DecidableEq, Repr

/-- Configure an HD11 with the given tables: none where they are no configuration of HD11 (U6). -/
def RomTables.configure (r : RomTables) : Option Rom :=
  if h : r.wf = true then some { toRomTables := r, ok := h } else none

end Sys2Proof
end

