-- ==== Sys2Proof/Machine/RomTables.lean ====
section
/-! DEFINITION. The default contents of the ROMs (spec R5, R40, R42, R43), the tree ROM's node format (R164), the test
trees of R166, the configurations of the machine after reset and of the vectors, and reading a table. -/

namespace Sys2Proof.Machine

/-- `icbrt(n)` by bits: the largest `r` with `r^3 <= n` below `2^b` more than the `r` given (R7). -/
def icbrtFrom (n : Nat) : (b r : Nat) → Nat
  | 0, r => r
  | b + 1, r => icbrtFrom n b (if (r + 2 ^ b) ^ 3 ≤ n then r + 2 ^ b else r)

/-- `icbrt(n)` for `n < 2^96` (R7). -/
def icbrt (n : Nat) : Nat := icbrtFrom n 32 0

/-- `CBRT_TAB[j]`, ..., `CBRT_TAB[j + n - 1]` of the default, `icbrt(j * 2^81)` (R42, D14). -/
def cbrtTabFrom : (n j : Nat) → List (BitVec 32)
  | 0, _ => []
  | n + 1, j => BitVec.ofNat 32 (icbrt (j * 2 ^ 81)) :: cbrtTabFrom n (j + 1)

/-- The default `CBRT_TAB` (R42). -/
def defaultCbrtTab : List (BitVec 32) := cbrtTabFrom 1026 0

/-- The default `POW2Q` (R43, D19). -/
def defaultPow2q : List (BitVec 16) := [0, 38968, 46341, 55109]

/-- The default `CB_META[1..11]` (R40, D7; PRESUMED by the spec itself: general knowledge; log 11). -/
def defaultBooks : List CodeBook :=
  [⟨.quad, true, 1, 3⟩, ⟨.quad, true, 1, 3⟩, ⟨.quad, false, 0, 3⟩, ⟨.quad, false, 0, 3⟩,
   ⟨.pair, true, 4, 9⟩, ⟨.pair, true, 4, 9⟩, ⟨.pair, false, 0, 8⟩, ⟨.pair, false, 0, 8⟩,
   ⟨.pair, false, 0, 13⟩, ⟨.pair, false, 0, 13⟩, ⟨.pair, false, 0, 17⟩]

/-- The default tables with the given trees (R5). -/
def defaultTables (trees : List CodeTree) : RomTables :=
  { dimBoundary := 5, lmax := 32, qt := 27, sfOffset := 100, pow2q := defaultPow2q, cbrtTab := defaultCbrtTab,
    books := defaultBooks, trees := trees }

end Sys2Proof.Machine

namespace Sys2Proof

/-- `CB_META[cb]`, `1 <= cb <= 11` (R40); no other id is looked up (R125; log 16). -/
def Rom.book (r : Rom) (cb : Nat) : CodeBook := r.books.getD (cb - 1) ⟨.pair, false, 0, 17⟩

/-- `HCB[cb]`, `1 <= cb <= 11` (R41); no other id is looked up (R125; log 16). -/
def Rom.tree (r : Rom) (cb : Nat) : CodeTree := r.trees.getD (cb - 1) (.node (.leaf 0) (.leaf 0))

/-- `CBRT_TAB[j]` (R42). An index outside the table is never used in a launch the spec admits (R233, R255). -/
def Rom.cbrt (r : Rom) (j : Nat) : Nat := (r.cbrtTab.getD j 0).toNat

/-- `POW2Q[k]` (R43). -/
def Rom.pow2 (r : Rom) (k : Nat) : Nat := (r.pow2q.getD k 0).toNat

end Sys2Proof

namespace Sys2Proof.Machine

/-! The tree ROM format (R164). -/

/-- A child word of `NODE[n][b]`: bit 15 set is a leaf with the index in bits 8:0, else bits 14:0 are a node number. -/
inductive Child where
  | leaf (idx : BitVec 9)
  | inner (n : Nat)
  deriving DecidableEq, Repr

/-- Read a child word (R164). -/
def childOf (c : BitVec 16) : Child :=
  if c.getLsbD 15 then .leaf (c.setWidth 9) else .inner (c.setWidth 15).toNat

/-- The tree a node array holds below a child, at most `fuel` levels deep; none where the array is not a finite complete
tree of that depth (R163). -/
def treeBelow (nodes : List (BitVec 16 × BitVec 16)) : (fuel : Nat) → Child → Option CodeTree
  | _, .leaf i => some (.leaf i)
  | 0, .inner _ => none
  | fuel + 1, .inner n =>
    match nodes[n]? with
    | none => none
    | some (c0, c1) =>
      match treeBelow nodes fuel (childOf c0), treeBelow nodes fuel (childOf c1) with
      | some t0, some t1 => some (.node t0 t1)
      | none, _ => none
      | some _, none => none

/-- The tree with root node `root` of a node array (R164), at most 32 levels deep (R163 (c)). -/
def treeOfNodes (nodes : List (BitVec 16 × BitVec 16)) (root : BitVec 15) : Option CodeTree :=
  treeBelow nodes 32 (.inner root.toNat)

/-! The test trees `HCB_TEST` (R166). -/

/-- The truncated binary code below the `d`-bits-to-go prefix `v`: codewords of `k` bits below `u`, else `k + 1`. -/
def truncatedBelow (u : Nat) : (d v : Nat) → CodeTree
  | 0, v =>
    if v < u then .leaf (BitVec.ofNat 9 v)
    else .node (.leaf (BitVec.ofNat 9 (2 * v - u))) (.leaf (BitVec.ofNat 9 (2 * v + 1 - u)))
  | d + 1, v => .node (truncatedBelow u d (2 * v)) (truncatedBelow u d (2 * v + 1))

/-- The truncated binary code over `n` symbols (R166). -/
def truncatedCode (n : Nat) : CodeTree := truncatedBelow (2 ^ (Nat.log2 n + 1) - n) (Nat.log2 n) 0

/-- `HCB_TEST` over the default `CB_META` (R166): a fixture, not the ISO/IEC code. -/
def testTrees : List CodeTree := defaultBooks.map (fun b => truncatedCode b.indexBound)

/-- `HCB_TEST` is well-formed (R163, R166). -/
theorem testTables_wf : (defaultTables testTrees).wf = true := by decide +kernel

/-- The configuration of 95_test_vectors.md: the defaults with `HCB_TEST`. -/
def testRom : Rom := { toRomTables := defaultTables testTrees, ok := testTables_wf }

/-- The trees of the machine after reset: the free ones where they are well-formed, so that they range over every
well-formed choice; `HCB_TEST` where they are not (N1; log 11). -/
def resetTrees : List CodeTree :=
  let free := (List.range 11).map (fun k => Config.hcb (k + 1))
  if (defaultTables free).wf then free else testTrees

theorem resetTables_wf : (defaultTables resetTrees).wf = true := by
  unfold resetTrees
  dsimp only
  split
  · assumption
  · exact testTables_wf

/-- The configuration of the machine after reset: the defaults, and the trees the spec leaves open (R5, N1; log 11). -/
def resetRom : Rom := { toRomTables := defaultTables resetTrees, ok := resetTables_wf }

end Sys2Proof.Machine
end

