-- ==== Sys2Proof/Machine/State.lean ====
section
/-! DEFINITION. The state of one HD11 instance (spec R20 to R48), the moves of the host (R288), the reasons a step can
stop, and the state after reset. -/

namespace Sys2Proof.Machine

/-- `STATE`, the phase of the engine (R21). -/
inductive Phase where
  | idle
  | unpack
  | deint
  | paused
  | solve
  | rescale
  | done
  | error
  deriving DecidableEq, Repr

/-- The ten host registers (R33). -/
inductive HostReg where
  | ctrl
  | status
  | err
  | cfg
  | nsect
  | ngroup
  | nsfbs
  | max
  | gq
  | seq
  deriving DecidableEq, Repr

/-- The eleven element memories (R36). -/
inductive Space where
  | sect
  | stop
  | glen
  | soff
  | nb
  | btop
  | sf
  | qs
  | ds
  | coef
  | qfmt
  deriving DecidableEq, Repr

/-- What the host may do (R288), as an input of the machine; the order of the list is the order in time. `engine` and
`await` say that the engine moves next (log 3). -/
inductive HostMove where
  /-- The host lets one engine step pass. -/
  | engine
  /-- The host waits until `STATUS.BUSY = 0` (R280 (3)). -/
  | await
  | writeReg (r : HostReg) (v : HostWord)
  | readReg (r : HostReg)
  | writeElem (sp : Space) (i : Nat) (v : HostWord)
  | readElem (sp : Space) (i : Nat)
  /-- The host's parser supplies the stream and positions the bit reader (R280, H9 of R288). -/
  | positionReader (bits : List Bool) (pos : Nat)
  /-- The reset input is asserted (R340). -/
  | resetInput
  deriving DecidableEq, Repr

/-- One element memory of width `w` (R36): the elements written, rising by index. `lost = some n` says that its contents
became unspecified in draw `n` (R283, R307, R340) and `cells` holds what was written since. -/
structure Mem (w : Nat) where
  lost : Option Nat
  cells : List (Nat × BitVec w)
  deriving DecidableEq, Repr

/-- A memory of which nothing is listed. -/
def Mem.empty (w : Nat) : Mem w := { lost := none, cells := [] }

/-- The external bit reader (R45, R66): the bits the host supplied, the position, and how many bits past their end have
been drawn (R67; log 4). -/
structure Reader where
  stream : List Bool
  pos : Nat
  past : Nat
  deriving DecidableEq, Repr

/-- The registers one tuple is decoded in (R26 to R28) and the reader. -/
structure Datapath where
  cwidx : BitVec 9
  dig0 : BitVec 16
  dig1 : BitVec 16
  dig2 : BitVec 16
  dig3 : BitVec 16
  escN : BitVec 4
  escL : BitVec 13
  reader : Reader
  deriving DecidableEq, Repr

/-- The state of one instance with its reader, its configuration and the host's pending moves (INVENTORY.md, State). -/
structure State where
  phase : Phase
  sectPtr : BitVec 8
  line : BitVec 11
  win : BitVec 4
  bidx : BitVec 7
  bflat : BitVec 10
  roff : BitVec 16
  dp : Datapath
  maxMag : BitVec 16
  gq : BitVec 5
  short : Bool
  pauseEn : Bool
  ien : Bool
  nsect : BitVec 8
  ngroup : BitVec 4
  nsfbs : BitVec 5
  errCode : BitVec 2
  errInfo : BitVec 16
  sect : Mem 16
  stop : Mem 11
  glen : Mem 4
  soff : Mem 8
  nb : Mem 7
  btop : Mem 16
  sf : Mem 16
  qs : Mem 16
  ds : Mem 16
  coef : Mem 32
  qfmt : Mem 16
  rom : Rom
  /-- The model's own: the host moves not yet made (log 3). -/
  pending : List HostMove
  /-- The model's own: what the last host read returned (log 3). -/
  hostData : HostWord
  /-- The model's own: the reader's position at the last START or positioning (log 5). -/
  launchPos : Nat
  /-- The model's own: how many free values have been drawn (log 5). -/
  draws : Nat
  deriving DecidableEq, Repr

/-- A machine stop that no launch from START reaches. -/
inductive Fault where
  /-- Raised by the band step of RESCALE where `BFLAT`, `ROFF` or the window's lines would index outside a memory (R62,
  R68): only in states no run reaches. Safe: the model stops. -/
  | noSuchElement
  deriving DecidableEq, Repr

/-- Why the model admits no next state. -/
inductive Refusal where
  /-- Raised by `exec` for an instruction that has no meaning yet. Safe. -/
  | notModelled (mnemonic : String)
  /-- Raised by the first UNPACK step: premise P1 is broken, `NSECT > 128` (R346, R347, U7). Safe. -/
  | sectionTable
  /-- Raised by a section whose line range breaks premise P2 (R346, R347, U7). Safe. -/
  | sectionRange
  /-- Raised by RESCALE: premise P3 is broken, `NB[w] > 64` or a band past its window (R346, R347, U7). Safe. -/
  | bandWindow
  /-- Raised by DEINT: premise P4 is broken (R346, R347, U7). Safe. -/
  | groupGeometry
  /-- Raised by a host move that takes the bit reader while the engine is busy: a duty of the host (R76, H10 of R288), and
  the spec gives the move no effect. Safe. -/
  | readerInUse
  deriving DecidableEq, Repr

/-- The reader as the model finds it: no bit supplied (DESIGN CHOICE, log 4). -/
def Reader.atReset : Reader := { stream := [], pos := 0, past := 0 }

/-- The scratch registers after power-on: the spec says any value (DESIGN CHOICE 0, log 2). -/
def Datapath.atReset : Datapath :=
  { cwidx := 0, dig0 := 0, dig1 := 0, dig2 := 0, dig3 := 0, escN := 0, escL := 0, reader := Reader.atReset }

/-- The machine after a power-on reset (R48, R340): registers as R48 gives them; memories list nothing (log 1). -/
def State.reset : State :=
  { phase := .idle, sectPtr := 0, line := 0, win := 0, bidx := 0, bflat := 0, roff := 0,
    dp := Datapath.atReset, maxMag := 0, gq := 0,
    short := false, pauseEn := false, ien := false, nsect := 0, ngroup := 0, nsfbs := 0,
    errCode := 0, errInfo := 0,
    sect := Mem.empty 16, stop := Mem.empty 11, glen := Mem.empty 4, soff := Mem.empty 8, nb := Mem.empty 7,
    btop := Mem.empty 16, sf := Mem.empty 16, qs := Mem.empty 16, ds := Mem.empty 16, coef := Mem.empty 32,
    qfmt := Mem.empty 16,
    rom := resetRom, pending := [], hostData := 0, launchPos := 0, draws := 0 }

end Sys2Proof.Machine
end

