-- ==== Sys2Proof/Machine/Ops.lean ====
section
/-! DEFINITION. The shared operations: element memories (spec R36, R60 to R63), what becomes unspecified (R283, R307,
R340), taking an error (R306) and leaving it (R312), the fall-through to the next section (R120), the line range of a
section (R122) and the launch premise on it (R346 P2), storing values (R192, R193) and zero-fill (R124). -/

namespace Sys2Proof.Machine

/-! Element memories. -/

/-- What an element that is not listed reads as: 0 after power-on (DESIGN CHOICE, log 1), a free value once the contents
became unspecified (log 5, 6). -/
def Mem.unlisted {w : Nat} (m : Mem w) (i : Nat) : BitVec w :=
  match m.lost with
  | none => 0#w
  | some n => (Config.freeElem n i).setWidth w

/-- The listed element at index `i`. -/
def cellAt {w : Nat} (i : Nat) : List (Nat × BitVec w) → Option (BitVec w)
  | [] => none
  | c :: cs => if c.1 = i then some c.2 else cellAt i cs

/-- `MemRead((SPACE, i), 1)` (R8). -/
def Mem.read {w : Nat} (m : Mem w) (i : Nat) : BitVec w :=
  match cellAt i m.cells with
  | some v => v
  | none => m.unlisted i

/-- List element `i`, keeping the indices rising. -/
def putCell {w : Nat} (i : Nat) (v : BitVec w) : List (Nat × BitVec w) → List (Nat × BitVec w)
  | [] => [(i, v)]
  | c :: cs => if i < c.1 then (i, v) :: c :: cs else if i = c.1 then (i, v) :: cs else c :: putCell i v cs

/-- `MemWrite((SPACE, i), 1, v)` (R8). The form stays canonical: 0 in a memory that lists nothing by itself removes the
entry. -/
def Mem.write {w : Nat} (m : Mem w) (i : Nat) (v : BitVec w) : Mem w :=
  if m.lost = none ∧ v = 0#w then { m with cells := m.cells.filter (fun c => c.1 != i) }
  else { m with cells := putCell i v m.cells }

/-- Indices strictly rising, all above `lo`, below `n`. -/
def rising {w : Nat} (n : Nat) : (lo : Nat) → List (Nat × BitVec w) → Bool
  | _, [] => true
  | lo, c :: cs => decide (lo ≤ c.1) && decide (c.1 < n) && rising n (c.1 + 1) cs

/-- The canonical form of a memory of `n` elements: indices strictly rising and below `n`, and, where an unlisted element
reads 0, no entry 0. -/
def Mem.wf {w : Nat} (n : Nat) (m : Mem w) : Bool :=
  rising n 0 m.cells && (m.lost.isSome || m.cells.all (fun c => c.2 != 0#w))

/-- A memory whose contents became unspecified in draw `n`. -/
def Mem.unspecified (w n : Nat) : Mem w := { lost := some n, cells := [] }

/-- The number of elements of a space (R36). -/
def Space.count : Space → Nat
  | .sect => 128
  | .stop => 128
  | .glen => 8
  | .soff => 32
  | .nb => 8
  | .btop => 512
  | .sf => 512
  | .qs => 1024
  | .ds => 1024
  | .coef => 1024
  | .qfmt => 512

/-! Phases. -/

/-- The encoding of `STATE` (R21). -/
def Phase.code : Phase → BitVec 3
  | .idle => 0
  | .unpack => 1
  | .deint => 2
  | .paused => 3
  | .solve => 4
  | .rescale => 5
  | .done => 6
  | .error => 7

/-- `STATUS.BUSY` (R32). -/
def State.busy (s : State) : Bool :=
  match s.phase with
  | .unpack => true
  | .deint => true
  | .solve => true
  | .rescale => true
  | .idle => false
  | .paused => false
  | .done => false
  | .error => false

/-! What becomes unspecified. -/

/-- The buffers `QS`, `DS`, `COEF`, `QFMT` hold any value (R283, R307, R340). -/
def loseBuffers (s : State) : State :=
  { s with
    qs := Mem.unspecified 16 s.draws
    ds := Mem.unspecified 16 (s.draws + 1)
    coef := Mem.unspecified 32 (s.draws + 2)
    qfmt := Mem.unspecified 16 (s.draws + 3)
    draws := s.draws + 4 }

/-- The reader stands anywhere at or after its position at START (R307, U9). -/
def loseReader (s : State) : State :=
  { s with
    dp := { s.dp with reader := { s.dp.reader with pos := s.launchPos + Config.freeNat s.draws } }
    draws := s.draws + 1 }

/-- `MAX`, `GQ`, `LINE` and the sweep counters hold any value of their range (R283, R307; ranges of R23, R25). -/
def loseCounters (s : State) : State :=
  { s with
    maxMag := (Config.freeWord s.draws).setWidth 16
    gq := (Config.freeWord (s.draws + 1)).setWidth 5
    line := BitVec.ofNat 11 (Config.freeNat (s.draws + 2) % 1025)
    win := BitVec.ofNat 4 (Config.freeNat (s.draws + 3) % 9)
    bidx := BitVec.ofNat 7 (Config.freeNat (s.draws + 4) % 65)
    bflat := BitVec.ofNat 10 (Config.freeNat (s.draws + 5) % 513)
    roff := (Config.freeWord (s.draws + 6)).setWidth 16
    draws := s.draws + 7 }

/-- `SECT_PTR` holds any value of its range (R283; range of R22). -/
def loseSectPtr (s : State) : State :=
  { s with sectPtr := BitVec.ofNat 8 (Config.freeNat s.draws % 129), draws := s.draws + 1 }

/-! Taking an error and leaving it. -/

/-- The three errors (R300). -/
inductive EngineError where
  | invalidCodebook
  | magnitudeOutOfRange
  | invalidBandGeometry
  deriving DecidableEq, Repr

/-- `ERRCODE` (R35, R304). -/
def EngineError.code : EngineError → BitVec 2
  | .invalidCodebook => 1
  | .magnitudeOutOfRange => 2
  | .invalidBandGeometry => 3

/-- `raise X(info)` (R306): the error record is written and `STATE` becomes ERROR; `SECT_PTR`, the configuration and the
input tables keep their values and everything R307 calls unspecified is drawn (log 5). -/
def raiseError (e : EngineError) (info : Nat) (s : State) : State :=
  loseCounters (loseReader (loseBuffers
    { s with phase := .error, errCode := e.code, errInfo := BitVec.ofNat 16 info }))

/-- `ERRCODE <- 0 ; ERRINFO <- 0`: what START and ABORT do to the error record (R281, R283, R312). -/
def clearError (s : State) : State := { s with errCode := 0, errInfo := 0 }

/-! Sections. -/

/-- `SECT_PTR <- SECT_PTR + 1`, the fall-through to the next section (R120, R291). -/
def nextSection (s : State) : State := { s with sectPtr := s.sectPtr + 1 }

/-- `end` of a section (R122): `0` for `sfb_end = 0`, else `STOP[sfb_end - 1]`. -/
def sectionEnd (e : SfbEnd) (s : State) : Nat :=
  if e = 0#8 then 0 else (s.stop.read (e.toNat - 1)).toNat

/-- Launch premise P2 for the section that runs (R346): `sfb_end <= 128`, `start <= end <= 1024`, and a span that is a
multiple of 4. -/
def rangeOk (e : SfbEnd) (s : State) : Bool :=
  decide (e.toNat ≤ Config.maxSfbc) && decide (s.line.toNat ≤ sectionEnd e s)
    && decide (sectionEnd e s ≤ Config.nLine) && (sectionEnd e s - s.line.toNat) % 4 == 0

/-- Write `n` zeros from index `i` on, ascending (R124). -/
def zeroRun {w : Nat} : (n i : Nat) → Mem w → Mem w
  | 0, _, m => m
  | n + 1, i, m => zeroRun n (i + 1) (m.write i 0)

/-- Write signed values from index `i` on, each as `trunc_N` (R6, R193). -/
def storeRun {w : Nat} : (vals : List Int) → (i : Nat) → Mem w → Mem w
  | [], _, m => m
  | v :: vs, i, m => storeRun vs (i + 1) (m.write i (BitVec.ofInt w v))

/-- The running maximum after the given values: `MAX <- max(MAX, abs(v))` for each (R192). -/
def maxAbs : (vals : List Int) → (m : Nat) → Nat
  | [], m => m
  | v :: vs, m => maxAbs vs (max m v.natAbs)

/-- The store of a section's values: `QS[LINE] <- v`, `MAX <- max(MAX, abs(v))`, `LINE <- LINE + 1` for each, in order
(R125, R192, R193). -/
def storeValues (vals : List Int) (s : State) : State :=
  { s with
    qs := storeRun vals s.line.toNat s.qs
    maxMag := BitVec.ofNat 16 (maxAbs vals s.maxMag.toNat)
    line := BitVec.ofNat 11 (s.line.toNat + vals.length) }

/-- `ZEROFILL(start, end)` from `start = LINE` (R124): `QS` and `DS`, at the same indices; `LINE <- end`. -/
def zeroFill (stop : Nat) (s : State) : State :=
  { s with
    qs := zeroRun (stop - s.line.toNat) s.line.toNat s.qs
    ds := zeroRun (stop - s.line.toNat) s.line.toNat s.ds
    line := BitVec.ofNat 11 stop }

end Sys2Proof.Machine
end

