-- ==== Sys2Proof/Machine/Deinterleave.lean ====
section
/-! DEFINITION. Leaving UNPACK (spec R127), the DEINT phase (R212, R215) and launch premise P4 (R346). -/

namespace Sys2Proof.Machine

/-- The phase after UNPACK (R127). -/
def leaveUnpack (s : State) : State :=
  { s with phase := if s.short then .deint else if s.pauseEn then .paused else .solve }

/-- `SOFF[i]` as a number. -/
def State.soffAt (s : State) (i : Nat) : Nat := (s.soff.read i).toNat

/-- `GLEN[g]` as a number. -/
def State.glenAt (s : State) (g : Nat) : Nat := (s.glen.read g).toNat

/-- The number of windows in the groups before `g`: `wbase` of R212. -/
def State.windowBase (s : State) (g : Nat) : Nat := ((List.range g).map s.glenAt).sum

/-- The width of band `i` in one short window (R212). -/
def State.shortWidth (s : State) (i : Nat) : Nat := s.soffAt (i + 1) - s.soffAt i

/-- The spans of the coded bands in `QS`, group-major (R213). -/
def State.codedSpans (s : State) : List Nat :=
  (List.range s.ngroup.toNat).flatMap fun g => (List.range s.nsfbs.toNat).map fun i => s.shortWidth i * s.glenAt g

/-- `STOP` agrees with the geometry at every entry a section of the launch names, `STOP[sfb_end - 1]`: where that is the entry
of a coded band, it is the sum of the spans up to it (R213, R346 P4). The other entries are not loaded and bind nothing (R343,
R346; log 20). -/
def stopsAgree (s : State) : Bool :=
  (List.range s.nsect.toNat).all fun k =>
    let e := (Descriptor.sfbEnd (s.sect.read k)).toNat
    e == 0 || decide (Config.maxSfbc < e) || decide (s.codedSpans.length < e)
      || (s.stop.read (e - 1)).toNat == (s.codedSpans.take e).sum

/-- Launch premise P4 (R346). -/
def geometryOk (s : State) : Bool :=
  decide (1 ≤ s.ngroup.toNat) && decide (s.ngroup.toNat ≤ 8)
    && (List.range s.ngroup.toNat).all (fun g => decide (1 ≤ s.glenAt g))
    && s.windowBase s.ngroup.toNat == 8
    && decide (s.nsfbs.toNat ≤ 31) && s.soffAt 0 == 0
    && (List.range s.nsfbs.toNat).all (fun i => decide (s.soffAt i ≤ s.soffAt (i + 1)))
    && decide (s.soffAt s.nsfbs.toNat ≤ 128)
    && stopsAgree s

/-- The places in `DS` the loops of R212 write, in order: group, band, window in group, line in band. -/
def State.deintTargets (s : State) : List Nat :=
  (List.range s.ngroup.toNat).flatMap fun g =>
    (List.range s.nsfbs.toNat).flatMap fun i =>
      (List.range (s.glenAt g)).flatMap fun w =>
        (List.range (s.shortWidth i)).map fun l => (s.windowBase g + w) * 128 + s.soffAt i + l

/-- `DS[target] <- QS[src]`, `src <- src + 1` for each target in order (R212). -/
def copyRun (qs : Mem 16) : (targets : List Nat) → (src : Nat) → Mem 16 → Mem 16
  | [], _, ds => ds
  | t :: ts, src, ds => copyRun qs ts (src + 1) (ds.write t (qs.read src))

/-- The DEINT phase, one step (R24, R212), and leaving it (R215); P4 broken is refused (R347; log 7). -/
def deintStep (s : State) : Host.Outcome State Fault Refusal :=
  if geometryOk s then
    .next { s with ds := copyRun s.qs s.deintTargets 0 s.ds, phase := if s.pauseEn then .paused else .solve }
  else .refused .groupGeometry

end Sys2Proof.Machine
end

