-- ==== Sys2Proof/Machine/Commands.lean ====
section
/-! DEFINITION. The host commands START, RESUME, ABORT (spec R281 to R283, R285) and the reset input (R340). -/

namespace Sys2Proof.Machine

/-- START is legal in IDLE, DONE and ERROR (R281). -/
def startLegal (s : State) : Bool := s.phase == .idle || s.phase == .done || s.phase == .error

/-- What START does where it is legal (R281). -/
def launch (s : State) : State :=
  { clearError s with maxMag := 0, sectPtr := 0, line := 0, phase := .unpack, launchPos := s.dp.reader.pos }

/-- `START` (R281); ignored where it is not legal (R285). -/
def execStart (s : State) : Host.Outcome State Fault Refusal :=
  if startLegal s then .next (launch s) else .next s

/-- `RESUME` (R282); ignored in every state but PAUSED (R285). -/
def execResume (s : State) : Host.Outcome State Fault Refusal :=
  if s.phase = .paused then .next { s with phase := .solve } else .next s

/-- What an ABORT that hits a busy state leaves unspecified (R283, U9; log 6). -/
def interrupted (s : State) : State :=
  if s.busy then loseSectPtr (loseCounters (loseReader (loseBuffers s))) else s

/-- `ABORT` (R283): legal in every state. -/
def execAbort (s : State) : Host.Outcome State Fault Refusal :=
  .next { clearError (interrupted s) with phase := .idle }

/-- What a reset that interrupts a busy phase leaves unspecified beside the registers it sets (R340, U9; log 6). -/
def resetLosses (s : State) : State := if s.busy then loseReader (loseBuffers s) else s

/-- The reset input (R340): the registers of R48's table are 0 and `STATE` is IDLE; scratch, memories, ROMs and the reader
are not reset. -/
def resetInput (s : State) : State :=
  { resetLosses s with
    phase := .idle, sectPtr := 0, line := 0, win := 0, bidx := 0, bflat := 0, roff := 0, maxMag := 0, gq := 0,
    short := false, pauseEn := false, ien := false, nsect := 0, ngroup := 0, nsfbs := 0, errCode := 0, errInfo := 0 }

end Sys2Proof.Machine
end

