-- ==== Sys2Proof/Machine/Operands.lean ====
section
/-! DEFINITION. The operands in the bit stream: `GetBits` (spec R66), the codeword (R161), digits (R181), sign bits
(R184), escape sequences (R188 to R190), one tuple (R180, R182, R185) and the tuples of a section (R125). -/

namespace Sys2Proof.Machine

/-! The bit reader port. -/

/-- `GetBits(1)` (R66). At or past the end of the host's data the bit is free (R67; log 4). -/
def Reader.bit (r : Reader) : Bool × Reader :=
  match r.stream[r.pos]? with
  | some b => (b, { r with pos := r.pos + 1 })
  | none => (Config.freeBit r.past, { r with pos := r.pos + 1, past := r.past + 1 })

/-- The loop of `GetBits` from the value `v` read so far: `v <- (v << 1) + STREAM(BITPOS)`, `n` times (R66). -/
def Reader.bitsFrom : (v n : Nat) → Reader → Nat × Reader
  | v, 0, r => (v, r)
  | v, n + 1, r => Reader.bitsFrom (2 * v + r.bit.1.toNat) n r.bit.2

/-- `GetBits(n)`: the first bit read is the most significant (R66). -/
def Reader.bits (n : Nat) (r : Reader) : Nat × Reader := Reader.bitsFrom 0 n r

/-! The codeword. -/

end Sys2Proof.Machine

namespace Sys2Proof

/-- `HuffDecode`: the walk from the root, one bit a level, first bit at the root (R161, R162). -/
def CodeTree.walk : CodeTree → Machine.Reader → BitVec 9 × Machine.Reader
  | .leaf i, r => (i, r)
  | .node zero one, r => if r.bit.1 then one.walk r.bit.2 else zero.walk r.bit.2

end Sys2Proof

namespace Sys2Proof.Machine

/-- `HuffDecode` in the node ROM (R161, R164), at most `fuel` bits: none where the array has no such node or no leaf. -/
def romWalk (nodes : List (BitVec 16 × BitVec 16)) : (fuel : Nat) → Child → Reader → Option (BitVec 9 × Reader)
  | _, .leaf i, r => some (i, r)
  | 0, .inner _, _ => none
  | fuel + 1, .inner n, r =>
    match nodes[n]? with
    | none => none
    | some c => romWalk nodes fuel (childOf (if r.bit.1 then c.2 else c.1)) r.bit.2

/-! Digits, signs, escapes. -/

/-- `Digits(cb, idx)` (R181): most significant first, each minus the offset. -/
def digits (b : CodeBook) (idx : Nat) : List Int :=
  let m := b.modulus
  match b.dim with
  | .quad =>
    [((idx / m ^ 3 : Nat) : Int) - b.offset, ((idx % m ^ 3 / m ^ 2 : Nat) : Int) - b.offset,
     ((idx % m ^ 3 % m ^ 2 / m : Nat) : Int) - b.offset, ((idx % m ^ 3 % m ^ 2 % m : Nat) : Int) - b.offset]
  | .pair => [((idx / m : Nat) : Int) - b.offset, ((idx % m : Nat) : Int) - b.offset]

/-- `Signs(dim)` (R184): one bit for each nonzero digit in digit order, 1 negates; a zero digit reads none (R191). -/
def signs : (ds : List Int) → Reader → List Int × Reader
  | [], r => ([], r)
  | d :: ds, r =>
    if d = 0 then
      let rest := signs ds r
      (d :: rest.1, rest.2)
    else
      let rest := signs ds r.bit.2
      ((if r.bit.1 then -d else d) :: rest.1, rest.2)

/-- `IsSentinel(d)`: the low five bits of the `s16` are 16 (R190). -/
def isSentinel (d : Int) : Bool := (BitVec.ofInt 16 d &&& 0x1F#16) == 16#16

/-- The unary run of an escape sequence (R188): `n` is `ESC_N`, `k` how many one-bits may still come before `ESC_N`
reaches 13. None is the tenth one-bit, consumed (R189). -/
def escapeRun : (k n : Nat) → Reader → Option Nat × Reader
  | 0, n, r => (if r.bit.1 then none else some n, r.bit.2)
  | k + 1, n, r => if r.bit.1 then escapeRun k (n + 1) r.bit.2 else (some n, r.bit.2)

/-- `ESC_N` and `ESC_L` (R28). -/
structure EscRegs where
  n : BitVec 4
  l : BitVec 13
  deriving DecidableEq, Repr

/-- What one escape expansion gives: the value, or none for the overrun; the registers; the reader. -/
structure Expansion where
  value : Option Int
  regs : EscRegs
  reader : Reader
  deriving DecidableEq, Repr

/-- `Expand(d)` (R188, R189): `E = L + 2^N`, the value `(d * E) >> 4`. -/
def expand (d : Int) (e : EscRegs) (r : Reader) : Expansion :=
  let run := escapeRun (Config.escNMax - Config.escN0) Config.escN0 r
  match run.1 with
  | none => { value := none, regs := { e with n := BitVec.ofNat 4 Config.escNMax }, reader := run.2 }
  | some n =>
    let lit := run.2.bits n
    { value := some ((d * ((lit.1 + 2 ^ n : Nat) : Int)) >>> (4 : Nat)),
      regs := { n := BitVec.ofNat 4 n, l := BitVec.ofNat 13 lit.1 }, reader := lit.2 }

/-- What the escape sequences of a tuple give. -/
structure Escaped where
  vals : List Int
  regs : EscRegs
  reader : Reader
  overrun : Bool
  deriving DecidableEq, Repr

/-- `Escapes()` (R185, R187): the sentinels in digit order, each expanded once (R190). -/
def escapes : (ds : List Int) → EscRegs → Reader → Escaped
  | [], e, r => { vals := [], regs := e, reader := r, overrun := false }
  | d :: ds, e, r =>
    if isSentinel d then
      let x := expand d e r
      match x.value with
      | none => { vals := d :: ds, regs := x.regs, reader := x.reader, overrun := true }
      | some v =>
        let rest := escapes ds x.regs x.reader
        { rest with vals := v :: rest.vals }
    else
      let rest := escapes ds e r
      { rest with vals := d :: rest.vals }

/-! One tuple. -/

/-- The three unpacking rules (R182). -/
inductive UnpackRule where
  | plain
  | explicitSign
  | escape
  deriving DecidableEq, Repr

/-- `Rule(cb)`: escape for the escape codebook, else by the metadata (R182). -/
def unpackRule (cb : Nat) (b : CodeBook) : UnpackRule :=
  if cb = Config.escCb then .escape else if b.signed then .plain else .explicitSign

/-- `DIG[j] <- v` for the values of one tuple; a pair leaves `DIG[2]` and `DIG[3]` (R27). -/
def Datapath.setDig (d : Datapath) : List Int → Datapath
  | [a, b, c, e] =>
    { d with dig0 := BitVec.ofInt 16 a, dig1 := BitVec.ofInt 16 b, dig2 := BitVec.ofInt 16 c, dig3 := BitVec.ofInt 16 e }
  | [a, b] => { d with dig0 := BitVec.ofInt 16 a, dig1 := BitVec.ofInt 16 b }
  | _ => d

/-- How decoding ended. -/
inductive TupleEnd where
  | complete
  /-- The tenth one-bit of an escape prefix: MagnitudeOutOfRange (R189). -/
  | overrun
  deriving DecidableEq, Repr

/-- Values decoded, the datapath after them, and how decoding ended. -/
structure Decoded where
  vals : List Int
  dp : Datapath
  outcome : TupleEnd
  deriving DecidableEq, Repr

/-- `Unpack(cb, idx)` after the codeword (R180, R183 to R185). -/
def unpack (rule : UnpackRule) (b : CodeBook) (idx : Nat) (d : Datapath) : Decoded :=
  let ds := digits b idx
  match rule with
  | .plain => { vals := ds, dp := d.setDig ds, outcome := .complete }
  | .explicitSign =>
    let sg := signs ds d.reader
    { vals := sg.1, dp := Datapath.setDig { d with reader := sg.2 } sg.1, outcome := .complete }
  | .escape =>
    let sg := signs ds d.reader
    let x := escapes sg.1 { n := d.escN, l := d.escL } sg.2
    { vals := x.vals,
      dp := Datapath.setDig { d with escN := x.regs.n, escL := x.regs.l, reader := x.reader } x.vals,
      outcome := if x.overrun then .overrun else .complete }

/-- One tuple code (R100, R125): the codeword, then its unpacking. -/
def tuple (rom : Rom) (cb : Nat) (d : Datapath) : Decoded :=
  let b := rom.book cb
  let cw := (rom.tree cb).walk d.reader
  unpack (unpackRule cb b) b cw.1.toNat { d with cwidx := cw.1, reader := cw.2 }

/-- `n` tuples, one after the other (R125); the values of the tuples before one that fails stay in the list. -/
def tuples (rom : Rom) (cb : Nat) : (n : Nat) → Datapath → Decoded
  | 0, d => { vals := [], dp := d, outcome := .complete }
  | n + 1, d =>
    let x := tuple rom cb d
    match x.outcome with
    | .complete =>
      let rest := tuples rom cb n x.dp
      { rest with vals := x.vals ++ rest.vals }
    | .overrun => { vals := [], dp := x.dp, outcome := .overrun }

end Sys2Proof.Machine
end

