-- ==== Sys2Proof/Machine/RegularSections.lean ====
section
/-! DEFINITION. The regular section opcodes and the illegal one (spec R125, R131 to R142). -/

namespace Sys2Proof.Machine

/-- `CB_META[cb].dimension` (R125). -/
def dimOf (rom : Rom) (cb : Nat) : Nat := (rom.book cb).dim.count

/-- The tuples of a regular section: `(end - LINE) / dimension` of them (R102, R125). -/
def sectionTuples (cb : Nat) (e : SfbEnd) (s : State) : Decoded :=
  tuples s.rom cb ((sectionEnd e s - s.line.toNat) / dimOf s.rom cb) s.dp

/-- `REGULAR(cb)` (R125): the id check first; then the tuples, whose values are stored in order and which either all
complete or end in the escape overrun (R189). The stores of R125's loop are made after the last tuple: no tuple reads
`QS`, `MAX` or `LINE`, and after an error all three are unspecified (R307; log 14). -/
def regular (cb : Nat) (e : SfbEnd) (s : State) : Host.Outcome State Fault Refusal :=
  if cb < 1 ∨ 11 < cb then .next (raiseError .invalidCodebook s.sectPtr.toNat s)
  else if rangeOk e s then
    let x := sectionTuples cb e s
    match x.outcome with
    | .complete => .next (nextSection (storeValues x.vals { s with dp := x.dp }))
    | .overrun => .next (raiseError .magnitudeOutOfRange 0xFFFF { s with dp := x.dp })
  else .refused .sectionRange

/-- `HCB1` (R131). -/
def execHcb1 (e : SfbEnd) (s : State) : Host.Outcome State Fault Refusal := regular 1 e s

/-- `HCB2` (R132). -/
def execHcb2 (e : SfbEnd) (s : State) : Host.Outcome State Fault Refusal := regular 2 e s

/-- `HCB3` (R133). -/
def execHcb3 (e : SfbEnd) (s : State) : Host.Outcome State Fault Refusal := regular 3 e s

/-- `HCB4` (R134). -/
def execHcb4 (e : SfbEnd) (s : State) : Host.Outcome State Fault Refusal := regular 4 e s

/-- `HCB5` (R135). -/
def execHcb5 (e : SfbEnd) (s : State) : Host.Outcome State Fault Refusal := regular 5 e s

/-- `HCB6` (R136). -/
def execHcb6 (e : SfbEnd) (s : State) : Host.Outcome State Fault Refusal := regular 6 e s

/-- `HCB7` (R137). -/
def execHcb7 (e : SfbEnd) (s : State) : Host.Outcome State Fault Refusal := regular 7 e s

/-- `HCB8` (R138). -/
def execHcb8 (e : SfbEnd) (s : State) : Host.Outcome State Fault Refusal := regular 8 e s

/-- `HCB9` (R139). -/
def execHcb9 (e : SfbEnd) (s : State) : Host.Outcome State Fault Refusal := regular 9 e s

/-- `HCB10` (R140). -/
def execHcb10 (e : SfbEnd) (s : State) : Host.Outcome State Fault Refusal := regular 10 e s

/-- `HCB11`, the escape codebook (R141). -/
def execHcb11 (e : SfbEnd) (s : State) : Host.Outcome State Fault Refusal := regular 11 e s

/-- `RSVD12` (R142): InvalidCodebook, always, whatever its line range (log 14). -/
def execRsvd12 (e : SfbEnd) (s : State) : Host.Outcome State Fault Refusal := regular 12 e s

end Sys2Proof.Machine
end

