-- ==== Sys2Proof/Machine/SpecialSections.lean ====
section
/-! DEFINITION. The four special section opcodes: zero-fill (spec R124, R130, R143 to R145). -/

namespace Sys2Proof.Machine

/-- A special section (R121, R122, R124): zero-fill its line range and fall through; a range that breaks premise P2 is
refused (R347; log 7). -/
def zeroSection (e : SfbEnd) (s : State) : Host.Outcome State Fault Refusal :=
  if rangeOk e s then .next (nextSection (zeroFill (sectionEnd e s) s)) else .refused .sectionRange

/-- `ZERO`, the silence codebook (R130). -/
def execZero (e : SfbEnd) (s : State) : Host.Outcome State Fault Refusal := zeroSection e s

/-- `NOISE`, noise substitution (R143). -/
def execNoise (e : SfbEnd) (s : State) : Host.Outcome State Fault Refusal := zeroSection e s

/-- `INT2`, intensity stereo (R144). -/
def execInt2 (e : SfbEnd) (s : State) : Host.Outcome State Fault Refusal := zeroSection e s

/-- `INT`, intensity stereo (R145). -/
def execInt (e : SfbEnd) (s : State) : Host.Outcome State Fault Refusal := zeroSection e s

end Sys2Proof.Machine
end

