-- ==== Sys2Proof/Machine/Dispatch.lean ====
section
/-! DEFINITION. One arm per instruction (spec R93, R96). -/

namespace Sys2Proof.Machine

def exec (i : Instr) (s : State) : Host.Outcome State Fault Refusal :=
  match i with
  -- special sections
  | .zero e => Sys2Proof.Machine.execZero e s
  -- regular sections
  | .hcb1 e => Sys2Proof.Machine.execHcb1 e s
  | .hcb2 e => Sys2Proof.Machine.execHcb2 e s
  | .hcb3 e => Sys2Proof.Machine.execHcb3 e s
  | .hcb4 e => Sys2Proof.Machine.execHcb4 e s
  | .hcb5 e => Sys2Proof.Machine.execHcb5 e s
  | .hcb6 e => Sys2Proof.Machine.execHcb6 e s
  | .hcb7 e => Sys2Proof.Machine.execHcb7 e s
  | .hcb8 e => Sys2Proof.Machine.execHcb8 e s
  | .hcb9 e => Sys2Proof.Machine.execHcb9 e s
  | .hcb10 e => Sys2Proof.Machine.execHcb10 e s
  | .hcb11 e => Sys2Proof.Machine.execHcb11 e s
  -- the illegal opcode
  | .rsvd12 e => Sys2Proof.Machine.execRsvd12 e s
  -- special sections
  | .noise e => Sys2Proof.Machine.execNoise e s
  | .int2 e => Sys2Proof.Machine.execInt2 e s
  | .int e => Sys2Proof.Machine.execInt e s
  -- host commands
  | .start => Sys2Proof.Machine.execStart s
  | .resume => Sys2Proof.Machine.execResume s
  | .abort => Sys2Proof.Machine.execAbort s

end Sys2Proof.Machine
end

