-- ==== Sys2Proof/Machine/Flags.lean ====
section
/-! DEFINITION. The status flags, the `irq` output and the register words the host reads (spec R32 to R35, R310). -/

namespace Sys2Proof.Machine

/-- `STATUS.PAUSED` (R32). -/
def State.pausedFlag (s : State) : Bool := s.phase == .paused

/-- `STATUS.DONE` (R32). -/
def State.doneFlag (s : State) : Bool := s.phase == .done

/-- `STATUS.ERR` (R32). -/
def State.errFlag (s : State) : Bool := s.phase == .error

/-- `STATUS.IRQ`, and the level of the `irq` output (R32, R310). -/
def State.irq (s : State) : Bool := s.ien && (s.pausedFlag || s.doneFlag || s.errFlag)

/-- A flag at bit `k` of a 32-bit word. -/
def flagAt (k : Nat) (b : Bool) : HostWord := (BitVec.ofBool b).setWidth 32 <<< k

/-- `STATUS`: bits 2:0 `STATE`, 3 `BUSY`, 4 `DONE`, 5 `ERR`, 6 `PAUSED`, 7 `IRQ` (R33, R34). -/
def State.statusWord (s : State) : HostWord :=
  s.phase.code.setWidth 32 ||| flagAt 3 s.busy ||| flagAt 4 s.doneFlag ||| flagAt 5 s.errFlag
    ||| flagAt 6 s.pausedFlag ||| flagAt 7 s.irq

/-- `ERR`: bits 1:0 `ERRCODE`, bits 31:16 `ERRINFO` (R33). -/
def State.errWord (s : State) : HostWord := s.errCode.setWidth 32 ||| (s.errInfo.setWidth 32 <<< 16)

/-- `CFG`: bit 0 `SHORT`, bit 1 `PAUSE_EN`, bit 2 `IEN` (R33). -/
def State.cfgWord (s : State) : HostWord := flagAt 0 s.short ||| flagAt 1 s.pauseEn ||| flagAt 2 s.ien

/-- `SEQ`: bits 7:0 `SECT_PTR`, bits 26:16 `LINE` (R33). -/
def State.seqWord (s : State) : HostWord := s.sectPtr.setWidth 32 ||| (s.line.setWidth 32 <<< 16)

/-- The word of a host register, as a read outside the busy phases gives it (R33). -/
def State.regWord (s : State) : HostReg → HostWord
  | .ctrl => 0
  | .status => s.statusWord
  | .err => s.errWord
  | .cfg => s.cfgWord
  | .nsect => s.nsect.setWidth 32
  | .ngroup => s.ngroup.setWidth 32
  | .nsfbs => s.nsfbs.setWidth 32
  | .max => s.maxMag.setWidth 32
  | .gq => s.gq.setWidth 32
  | .seq => s.seqWord

/-- The register number (R33). -/
def HostReg.number : HostReg → Nat
  | .ctrl => 0
  | .status => 1
  | .err => 2
  | .cfg => 3
  | .nsect => 4
  | .ngroup => 5
  | .nsfbs => 6
  | .max => 7
  | .gq => 8
  | .seq => 9

end Sys2Proof.Machine
end

