-- ==== Sys2Proof/Machine/HostPort.lean ====
section
/-! DEFINITION. The host's accesses to registers and memories (spec R33, R61, R62, R71) and to the bit reader (R45, R76). -/

namespace Sys2Proof.Machine

/-- A host write to a register other than `CTRL`: dropped while busy (R71); a field stores the low bits, read-only
registers and unlisted bits ignore the write (R33, R35). -/
def writeReg (r : HostReg) (v : HostWord) (s : State) : State :=
  if s.busy then s
  else
    match r with
    | .ctrl => s
    | .status => s
    | .err => s
    | .cfg => { s with short := v.getLsbD 0, pauseEn := v.getLsbD 1, ien := v.getLsbD 2 }
    | .nsect => { s with nsect := v.setWidth 8 }
    | .ngroup => { s with ngroup := v.setWidth 4 }
    | .nsfbs => { s with nsfbs := v.setWidth 5 }
    | .max => { s with maxMag := v.setWidth 16 }
    | .gq => s
    | .seq => s

/-- A host read of a register: while busy every register but `STATUS` gives any value (R34, R71; log 9). -/
def readReg (r : HostReg) (s : State) : State :=
  if s.busy = true ∧ r ≠ .status then { s with hostData := Config.freeWord s.draws, draws := s.draws + 1 }
  else { s with hostData := s.regWord r }

/-- A host write of an element: dropped while busy and for an index outside the space (R62, R71); stores the low bits
(R61). -/
def writeElem (sp : Space) (i : Nat) (v : HostWord) (s : State) : State :=
  if s.busy = true ∨ sp.count ≤ i then s
  else
    match sp with
    | .sect => { s with sect := s.sect.write i (v.setWidth 16) }
    | .stop => { s with stop := s.stop.write i (v.setWidth 11) }
    | .glen => { s with glen := s.glen.write i (v.setWidth 4) }
    | .soff => { s with soff := s.soff.write i (v.setWidth 8) }
    | .nb => { s with nb := s.nb.write i (v.setWidth 7) }
    | .btop => { s with btop := s.btop.write i (v.setWidth 16) }
    | .sf => { s with sf := s.sf.write i (v.setWidth 16) }
    | .qs => { s with qs := s.qs.write i (v.setWidth 16) }
    | .ds => { s with ds := s.ds.write i (v.setWidth 16) }
    | .coef => { s with coef := s.coef.write i v }
    | .qfmt => { s with qfmt := s.qfmt.write i (v.setWidth 16) }

/-- An element on the host data path: `u` types zero-extended, `s` types sign-extended (R36, R61). -/
def State.elemWord (s : State) (sp : Space) (i : Nat) : HostWord :=
  match sp with
  | .sect => (s.sect.read i).setWidth 32
  | .stop => (s.stop.read i).setWidth 32
  | .glen => (s.glen.read i).setWidth 32
  | .soff => (s.soff.read i).setWidth 32
  | .nb => (s.nb.read i).setWidth 32
  | .btop => (s.btop.read i).signExtend 32
  | .sf => (s.sf.read i).signExtend 32
  | .qs => (s.qs.read i).signExtend 32
  | .ds => (s.ds.read i).signExtend 32
  | .coef => s.coef.read i
  | .qfmt => (s.qfmt.read i).signExtend 32

/-- A host read of an element: any value while busy and for an index outside the space (R62, R71; log 9). -/
def readElem (sp : Space) (i : Nat) (s : State) : State :=
  if s.busy = true ∨ sp.count ≤ i then { s with hostData := Config.freeWord s.draws, draws := s.draws + 1 }
  else { s with hostData := s.elemWord sp i }

/-- The host's parser sets the reader (R45, R280); while busy the spec gives the move no effect (R76; log 9). -/
def positionReader (bits : List Bool) (pos : Nat) (s : State) : Host.Outcome State Fault Refusal :=
  if s.busy then .refused .readerInUse
  else .next { s with dp := { s.dp with reader := { s.dp.reader with stream := bits, pos := pos } }, launchPos := pos }

end Sys2Proof.Machine
end

