-- ==== Sys2Proof/Machine/Rescale.lean ====
section
/-! DEFINITION. The RESCALE phase: the band sweep and the power-law primitive (spec R251 to R259, R262, R263). `a >> n` on
naturals is `a / 2^n`, on integers the floor quotient (R7). The 28 and 43 of the rules are `QT + 1` and `QT + 16` for the
default `QT` (R5, R255, R256; log 12). -/

namespace Sys2Proof.Machine

/-- `cbrt28(a)` (R255), never negative: the difference `d` is an integer, so that a table that falls is read as the rule
has it. -/
def cbrt28 (rom : Rom) (a : Nat) : Nat :=
  if a ≤ Config.directMax then rom.cbrt a
  else
    let d : Int := (rom.cbrt (a / 2 ^ 3 + 1) : Int) - rom.cbrt (a / 2 ^ 3)
    (2 * (rom.cbrt (a / 2 ^ 3) : Int) + d * ((a % 8 : Nat) : Int) / 2 ^ 2).toNat

/-- The amount both forms shift by, before `GQ` is taken off: `28`, or `43` with the Q15 multiplier (R257). -/
def shiftBase (rom : Rom) (fi : Nat) : Nat := if fi = 0 then rom.qt + 1 else rom.qt + 16

/-- The magnitude of a coefficient (R256, R257), for `GQ <= shiftBase`. -/
def magnitude (rom : Rom) (gq fi a : Nat) : Nat :=
  let v := a * cbrt28 rom a
  (if fi = 0 then v else v * rom.pow2 fi) / 2 ^ (shiftBase rom fi - gq)

/-- `RescaleSample(q, GQ, fi)` (R257): truncated magnitude, the sign last. -/
def rescaleSample (rom : Rom) (gq fi : Nat) (q : Int) : Int :=
  if q < 0 then -(magnitude rom gq fi q.natAbs : Int) else (magnitude rom gq fi q.natAbs : Int)

/-- `e = SF[BFLAT] - SF_OFFSET` (R254). -/
def bandExponent (rom : Rom) (sf : BitVec 16) : Int := sf.toInt - rom.sfOffset

/-- `fi = e & 3`, the non-negative residue (R254). -/
def fineIndex (e : Int) : Nat := (e % 4).toNat

/-- `co = (e >> 2) + 1` (R254). -/
def coarsePart (e : Int) : Int := e / 4 + 1

/-- `NWIN` (R252). -/
def State.windows (s : State) : Nat := if s.short then 8 else 1

/-- `WINLEN` (R252). -/
def State.windowLen (s : State) : Nat := if s.short then 128 else 1024

/-- `IN[ln]` (R251, R252). -/
def State.sampleAt (s : State) (ln : Nat) : Int := ((if s.short then s.ds else s.qs).read ln).toInt

/-- `NB[w]` as a number. -/
def State.bandsIn (s : State) (w : Nat) : Nat := (s.nb.read w).toNat

/-- `top`, the boundary of the band that runs: `BTOP[WIN][BIDX]` (R38, R251). -/
def State.bandTop (s : State) : Int := (s.btop.read (s.win.toNat * 64 + s.bidx.toNat)).toInt

/-- `width = BTOP[WIN][BIDX] - ROFF` (R253). -/
def State.bandWidth (s : State) : Int := s.bandTop - s.roff.toInt

/-- The width is rejected (R253). -/
def badWidth (w : Int) : Bool := decide (w ≤ 0) || decide ((Config.maxWidth : Int) < w) || w % 4 != 0

/-- One coefficient and the count of free values: a sample the primitive is not entitled to gives any value (R262, U3;
log 8), and so does a `GQ` that would make the shift negative, which the rules give no value (R7; log 12). -/
def coefficient (s : State) (fi ln draws : Nat) : BitVec 32 × Nat :=
  let q := s.sampleAt ln
  if q.natAbs ≤ s.maxMag.toNat ∧ q.natAbs ≤ Config.mLimit ∧ s.gq.toNat ≤ shiftBase s.rom fi then
    (BitVec.ofInt 32 (rescaleSample s.rom s.gq.toNat fi q), draws)
  else (Config.freeWord draws, draws + 1)

/-- The lines of a band, `COEF[ln]` for `n` lines from `ln` on (R251, R258). -/
def coefRun (s : State) (fi : Nat) : (n ln : Nat) → Mem 32 → (draws : Nat) → Mem 32 × Nat
  | 0, _, c, draws => (c, draws)
  | n + 1, ln, c, draws =>
    let x := coefficient s fi ln draws
    coefRun s fi n (ln + 1) (c.write ln x.1) x.2

/-- The first line of the band that runs: `WIN * WINLEN + ROFF` (R258). -/
def State.bandLine (s : State) : Nat := s.win.toNat * s.windowLen + s.roff.toInt.toNat

/-- The effect of an accepted band (R251, R254 to R259). -/
def rescaleBand (s : State) : State :=
  let e := bandExponent s.rom (s.sf.read s.bflat.toNat)
  let x := coefRun s (fineIndex e) s.bandWidth.toNat s.bandLine s.coef s.draws
  { s with
    coef := x.1
    draws := x.2
    qfmt := s.qfmt.write s.bflat.toNat (BitVec.ofInt 16 ((s.gq.toNat : Int) - coarsePart e))
    roff := BitVec.ofInt 16 s.bandTop
    bflat := s.bflat + 1
    bidx := s.bidx + 1 }

/-- One band (R251, R253): reject it, or rescale it. A band past its window breaks P3 and is refused (R347; log 7); the
fault is met in no run (log 16). -/
def bandStep (s : State) : Host.Outcome State Fault Refusal :=
  if badWidth s.bandWidth then .next (raiseError .invalidBandGeometry s.bflat.toNat s)
  else if s.roff.toInt < 0 ∨ Config.maxBand ≤ s.bflat.toNat then .fault .noSuchElement
  else if (s.windowLen : Int) < s.bandTop then .refused .bandWindow
  else .next (rescaleBand s)

/-- After the last band of a window: `WIN` goes on by 1, and where that is a window, it begins with `BIDX` and `ROFF` at 0.
After the last window `ROFF` stays the top of its last band (R251). -/
def endWindow (s : State) : State :=
  if s.win.toNat + 1 < s.windows then { s with win := s.win + 1, bidx := 0, roff := 0 } else { s with win := s.win + 1 }

/-- One step of the sweep: the end (R263), the end of a window, or a band (R251). The loop variables `WIN` and `BIDX` leave their
loops one past their last value (DEDUCED from their ranges in R25; log 19). -/
def rescaleStep (s : State) : Host.Outcome State Fault Refusal :=
  if s.windows ≤ s.win.toNat then .next { s with phase := .done }
  else if Config.maxNb < s.bandsIn s.win.toNat then .refused .bandWindow
  else if s.bandsIn s.win.toNat ≤ s.bidx.toNat then .next (endWindow s)
  else bandStep s

end Sys2Proof.Machine
end

