-- ==== Sys2Proof/Machine/Solver.lean ====
section
/-! DEFINITION. The SOLVE phase: the global Q-format (spec R231 to R236), for every `QT`: the 27 of the rules is the default
of the parameter, and the 3 is `QTOP - QT` (R5, R234, R236; log 12). `a >> n` on naturals is `a / 2^n` (R7). -/

namespace Sys2Proof.Machine

/-- `bitlen(a)` (R7). -/
def bitlen (a : Nat) : Nat := if a = 0 then 0 else Nat.log2 a + 1

/-- `r`: the table entry `CBRT_TAB[(M >> 3) + 1]` rounded up and shifted down (R233, R234). -/
def solverRoot (rom : Rom) (m : Nat) : Nat := (rom.cbrt (m / 2 ^ 3 + 1) + 2 ^ rom.qt - 1) / 2 ^ rom.qt

/-- `B_FLOOR = QTOP - QT` (R5, R236). -/
def bFloor (rom : Rom) : Int := (Config.qTop : Int) - rom.qt

/-- `GQ = QTOP - max(bitlen(M * r), B_FLOOR)`, an exact integer (R235, R236). -/
def globalQ (rom : Rom) (m : Nat) : Int := Config.qTop - max (bitlen (m * solverRoot rom m) : Int) (bFloor rom)

/-- `GQ` as the register holds it (R6, R30). -/
def globalQWord (rom : Rom) (m : Nat) : BitVec 5 := BitVec.ofInt 5 (globalQ rom m)

/-- Entry to RESCALE: the sweep counters are 0 (R25, R251). -/
def enterRescale (s : State) : State := { s with phase := .rescale, win := 0, bidx := 0, bflat := 0, roff := 0 }

/-- The SOLVE phase, one step (R24, R231, R232). -/
def solveStep (s : State) : Host.Outcome State Fault Refusal :=
  if Config.mLimit < s.maxMag.toNat then .next (raiseError .magnitudeOutOfRange s.maxMag.toNat s)
  else .next (enterRescale { s with gq := globalQWord s.rom s.maxMag.toNat })

end Sys2Proof.Machine
end

