-- ==== Sys2Proof/Machine/Sequencer.lean ====
section
/-! DEFINITION. Who moves and what a move is (spec R10, R24, R120, R121, R288, R290): the engine's step in each phase, the
host's moves, and placing a word where the next step fetches it. -/

namespace Sys2Proof.Machine

/-- Run a decoded word; a `CTRL` write that holds no command does nothing (R286). -/
def runDecoded (d : Except DecodeReject Instr) (s : State) : Host.Outcome State Fault Refusal :=
  match d with
  | .ok i => exec i s
  | .error _ => .next s

/-- `word <- SECT[SECT_PTR]` (R121). -/
def State.fetched (s : State) : Descriptor := s.sect.read s.sectPtr.toNat

/-- One step of UNPACK (R120, R121, R127): a section, or leaving. `NSECT > 128` breaks P1 and is refused (R347; log 7). -/
def unpackStep (s : State) : Host.Outcome State Fault Refusal :=
  if Config.maxSect < s.nsect.toNat then .refused .sectionTable
  else if s.sectPtr.toNat < s.nsect.toNat then runDecoded (decode (.descriptor s.fetched)) s
  else .next (leaveUnpack s)

/-- One step of the engine (R21, R24). In IDLE, PAUSED, DONE and ERROR it does nothing until a command (R319, R341). -/
def engineStep (s : State) : Host.Outcome State Fault Refusal :=
  match s.phase with
  | .idle => .next s
  | .unpack => unpackStep s
  | .deint => deintStep s
  | .paused => .next s
  | .solve => solveStep s
  | .rescale => rescaleStep s
  | .done => .next s
  | .error => .next s

/-- A host write to a register; `CTRL` issues a command (R96, R97). -/
def hostWrite (r : HostReg) (v : HostWord) (s : State) : Host.Outcome State Fault Refusal :=
  match r with
  | .ctrl => runDecoded (decode (.control v)) s
  | .status => .next (writeReg .status v s)
  | .err => .next (writeReg .err v s)
  | .cfg => .next (writeReg .cfg v s)
  | .nsect => .next (writeReg .nsect v s)
  | .ngroup => .next (writeReg .ngroup v s)
  | .nsfbs => .next (writeReg .nsfbs v s)
  | .max => .next (writeReg .max v s)
  | .gq => .next (writeReg .gq v s)
  | .seq => .next (writeReg .seq v s)

/-- The next step of the machine: the first pending host move, or the engine where none is pending (log 3). -/
def advance (s : State) : Host.Outcome State Fault Refusal :=
  match s.pending with
  | [] => engineStep s
  | .engine :: rest => engineStep { s with pending := rest }
  | .await :: rest => if s.busy then engineStep s else .next { s with pending := rest }
  | .writeReg r v :: rest => hostWrite r v { s with pending := rest }
  | .readReg r :: rest => .next (readReg r { s with pending := rest })
  | .writeElem sp i v :: rest => .next (writeElem sp i v { s with pending := rest })
  | .readElem sp i :: rest => .next (readElem sp i { s with pending := rest })
  | .positionReader bits pos :: rest => positionReader bits pos { s with pending := rest }
  | .resetInput :: rest => .next (resetInput { s with pending := rest })

/-- Place a descriptor where the engine fetches next: UNPACK, with the word at `SECT[SECT_PTR]` inside the table, and the
engine to move (log 17). -/
def placeDescriptor (w : Descriptor) (s : State) : State :=
  let p := if s.sectPtr.toNat < Config.maxSect then s.sectPtr else 0
  { s with
    phase := .unpack
    sectPtr := p
    sect := s.sect.write p.toNat w
    nsect := if p.toNat < s.nsect.toNat ∧ s.nsect.toNat ≤ Config.maxSect then s.nsect else p + 1
    pending := .engine :: s.pending }

/-- Place a command: the host's next move writes it to `CTRL` (log 17). -/
def placeControl (v : HostWord) (s : State) : State := { s with pending := .writeReg .ctrl v :: s.pending }

/-- Place a code word where the next step takes it. -/
def placeWord : CodeWord → State → State
  | .descriptor w, s => placeDescriptor w s
  | .control v, s => placeControl v s

end Sys2Proof.Machine
end

