-- ==== Sys2Proof/Machine/Step.lean ====
section
/-! DEFINITION. The step (spec R24) and placing an instruction word for the next step. -/

namespace Sys2Proof.Machine

/-- One step of the machine. -/
def step (s : State) : Host.Outcome State Fault Refusal := advance s

/-- `s` with a table row's word placed where the next step takes its instruction (log 17). -/
def State.withFetchWord (s : State) (nbits w : Nat) : State := placeWord (tableWord nbits w) s

end Sys2Proof.Machine
end

