-- ==== Sys2Proof/Safety.lean ====
section
/-! DEFINITION. The terms claims are stated in: the invariant (spec R21 to R25, R35, R36, R45, R304), what an operation
keeps, the grammar of the bit stream (R66, R100, R101, R161), the host's data path (R36, R61), premise P4 (R346), and
running several steps (R352). -/

namespace Sys2Proof.Machine

/-- Every memory is in its canonical form, with no entry outside its space (R36; log 1). -/
def State.memoriesWf (s : State) : Bool :=
  s.sect.wf 128 && s.stop.wf 128 && s.glen.wf 8 && s.soff.wf 32 && s.nb.wf 8 && s.btop.wf 512 && s.sf.wf 512
    && s.qs.wf 1024 && s.ds.wf 1024 && s.coef.wf 1024 && s.qfmt.wf 512

/-- The sequencer registers are in the ranges of R22, R23 and R25. -/
def State.positionOk (s : State) : Bool :=
  decide (s.sectPtr.toNat ≤ 128) && decide (s.line.toNat ≤ 1024) && decide (s.win.toNat ≤ 8)
    && decide (s.bidx.toNat ≤ 64) && decide (s.bflat.toNat ≤ 512)

/-- The error record: a code exactly in ERROR, and no information without a code (R35, R304). -/
def State.errorRecordOk (s : State) : Bool :=
  ((s.phase == .error) == (s.errCode != 0#2)) && (s.errCode != 0#2 || s.errInfo == 0#16)

/-- The number of bands in the windows before `w`. -/
def State.bandsBefore (s : State) (w : Nat) : Nat := ((List.range w).map s.bandsIn).sum

/-- The sweep, in RESCALE: windows before the current one had at most 64 bands, `BIDX` is within the bands of the current one,
`BFLAT` counts every band swept, after the last window too, `ROFF` lies in the window, and the solver's results are in range (R25, R231, R236; `GQ` for a `QT` from 16 on, where no table of
32-bit entries makes it wrap, log 12). -/
def State.sweepOk (s : State) : Bool :=
  decide (s.win.toNat ≤ s.windows)
    && (List.range s.win.toNat).all (fun w => decide (s.bandsIn w ≤ Config.maxNb))
    && (if s.win.toNat < s.windows then
          decide (s.bidx.toNat ≤ s.bandsIn s.win.toNat) && s.bflat.toNat == s.bandsBefore s.win.toNat + s.bidx.toNat
        else s.bflat.toNat == s.bandsBefore s.win.toNat)
    && decide (0 ≤ s.roff.toInt) && decide (s.roff.toInt ≤ (s.windowLen : Int))
    && decide (s.maxMag.toNat ≤ Config.mLimit) && (decide (s.rom.qt < 16) || decide (s.gq.toNat ≤ s.rom.qt))

/-- The reader stands at or after its position at START (R45, R307). -/
def State.readerForward (s : State) : Bool := decide (s.launchPos ≤ s.dp.reader.pos)

/-- The invariant. -/
def State.inv (s : State) : Bool :=
  s.memoriesWf && s.positionOk && s.errorRecordOk && s.readerForward && (s.phase != .rescale || s.sweepOk)

/-- A step ends in a fault. -/
def faults (o : Host.Outcome State Fault Refusal) : Bool :=
  match o with
  | .next _ => false
  | .fault _ => true
  | .refused _ => false

/-! Several steps. -/

/-- `n` steps, or fewer if one of them stops the machine. -/
def runSteps : (n : Nat) → State → Host.Outcome State Fault Refusal
  | 0, s => .next s
  | n + 1, s =>
    match step s with
    | .next t => runSteps n t
    | .fault f => .fault f
    | .refused r => .refused r

/-! What an operation keeps. -/

/-- The configuration registers and the input tables are as they were (R33, R37, R38), and the ROMs (R20). -/
def keepsInputs (s t : State) : Prop :=
  t.short = s.short ∧ t.pauseEn = s.pauseEn ∧ t.ien = s.ien ∧ t.nsect = s.nsect ∧ t.ngroup = s.ngroup ∧ t.nsfbs = s.nsfbs
    ∧ t.sect = s.sect ∧ t.stop = s.stop ∧ t.glen = s.glen ∧ t.soff = s.soff ∧ t.nb = s.nb ∧ t.btop = s.btop ∧ t.sf = s.sf
    ∧ t.rom = s.rom

/-- The tuple registers are as they were (R26 to R28), and what the reader supplies; its position may differ (R45). -/
def keepsScratch (s t : State) : Prop :=
  t.dp.cwidx = s.dp.cwidx ∧ t.dp.dig0 = s.dp.dig0 ∧ t.dp.dig1 = s.dp.dig1 ∧ t.dp.dig2 = s.dp.dig2 ∧ t.dp.dig3 = s.dp.dig3
    ∧ t.dp.escN = s.dp.escN ∧ t.dp.escL = s.dp.escL ∧ t.dp.reader.stream = s.dp.reader.stream

/-- The host's next move is a `CTRL` write that issues `i` (R96, R97). -/
def hostIssues (s : State) (i : Instr) : Prop :=
  ∃ v rest, s.pending = .writeReg .ctrl v :: rest ∧ decode (.control v) = .ok i

/-- The host's next move is the reset input (R340). -/
def hostResets (s : State) : Prop := ∃ rest, s.pending = .resetInput :: rest

/-- The engine moves next: nothing is pending, or the host lets it (log 3). -/
def engineMoves (s : State) : Prop :=
  s.pending = [] ∨ (∃ rest, s.pending = .engine :: rest) ∨ (s.busy = true ∧ ∃ rest, s.pending = .await :: rest)

/-- What is pending after the engine's move: an entry that let the engine move once is used up (log 3). -/
def afterEngine (s : State) : List HostMove :=
  match s.pending with
  | .engine :: rest => rest
  | ms => ms

/-! The bit stream. -/

/-- `n` bits of `v`, most significant first (R66). -/
def bitsOf (v : Nat) : (n : Nat) → List Bool
  | 0 => []
  | n + 1 => v.testBit n :: bitsOf v n

/-- The stream holds `w` from the reader's position on, all of it supplied by the host (R66, R67). -/
def Reader.supplies (r : Reader) (w : List Bool) : Prop := w <+: r.stream.drop r.pos

/-- The reader after `n` supplied bits (R45). -/
def Reader.after (r : Reader) (n : Nat) : Reader := { r with pos := r.pos + n }

/-- The escape sequence of the magnitude `m`, 16..16383: `N - 4` one-bits, a zero-bit, and the low `N` bits of `m`, where
`2^N <= m < 2^(N+1)` (R101). -/
def escapeCode (m : Nat) : List Bool := List.replicate (Nat.log2 m - 4) true ++ false :: bitsOf m (Nat.log2 m)

/-- One sign bit for each nonzero value, in order, 1 for a negative one (R100, R184). -/
def signCode (vs : List Int) : List Bool := (vs.filter (fun v => v != 0)).map (fun v => decide (v < 0))

/-- The escape sequences of the values of magnitude 16 and more, in order (R100, R187). -/
def escapesCode (vs : List Int) : List Bool :=
  (vs.filter (fun v => decide (16 ≤ v.natAbs))).flatMap (fun v => escapeCode v.natAbs)

/-- The digits that code the values `vs`: the values themselves, their magnitudes, or their magnitudes cut at 16 (R183,
R184, R185). -/
def codedDigits (cb : Nat) (b : CodeBook) (vs : List Int) : List Int :=
  match unpackRule cb b with
  | .plain => vs
  | .explicitSign => vs.map (fun v => (v.natAbs : Int))
  | .escape => vs.map (fun v => ((min v.natAbs 16 : Nat) : Int))

/-- What follows the codeword (R100). -/
def trailingCode (cb : Nat) (b : CodeBook) (vs : List Int) : List Bool :=
  match unpackRule cb b with
  | .plain => []
  | .explicitSign => signCode vs
  | .escape => signCode vs ++ escapesCode vs

end Sys2Proof.Machine

namespace Sys2Proof

/-- The code of a tree as the set of its pairs `(w, idx)` (R161). -/
def CodeTree.code : CodeTree → List (List Bool × BitVec 9)
  | .leaf i => [([], i)]
  | .node zero one => zero.code.map (fun c => (false :: c.1, c.2)) ++ one.code.map (fun c => (true :: c.1, c.2))

/-- The codeword index of a tuple of digits, the offset put back: `d0*mod^3 + d1*mod^2 + d2*mod + d3`, or
`d0*mod + d1` (R181). -/
def CodeBook.indexOf (b : CodeBook) (ds : List Int) : Int :=
  ds.foldl (fun acc d => acc * b.modulus + (d + b.offset)) 0

end Sys2Proof

namespace Sys2Proof.Machine

/-- `bits` is a tuple code of the values `vs` under codebook `cb` (R100): a codeword of the index of their digits, then the
sign bits, then the escape sequences. -/
def CodesTuple (rom : Rom) (cb : Nat) (vs : List Int) (bits : List Bool) : Prop :=
  ∃ b w idx, rom.book cb = b ∧ (w, idx) ∈ (rom.tree cb).code
    ∧ vs.length = b.dim.count ∧ (∀ v ∈ vs, v.natAbs ≤ 16383)
    ∧ (∀ d ∈ codedDigits cb b vs, 0 ≤ d + b.offset ∧ d + b.offset < b.modulus)
    ∧ b.indexOf (codedDigits cb b vs) = (idx.toNat : Int)
    ∧ bits = w ++ trailingCode cb b vs

/-- `bits` is the concatenation of one tuple code for each element of the list (R100). -/
def CodesTuples (rom : Rom) (cb : Nat) : (tuples : List (List Int)) → (bits : List Bool) → Prop
  | [], bits => bits = []
  | vs :: rest, bits => ∃ b1 b2, bits = b1 ++ b2 ∧ CodesTuple rom cb vs b1 ∧ CodesTuples rom cb rest b2

/-- `bits` is the start of a codebook 11 tuple whose escape prefix runs to a tenth one-bit (R101, R189): codeword, sign
bits, the escape sequences before the one that fails, and ten one-bits. -/
def CodesOverrun (rom : Rom) (bits : List Bool) : Prop :=
  ∃ b w idx vs before v later, rom.book 11 = b ∧ (w, idx) ∈ (rom.tree 11).code
    ∧ vs = before ++ v :: later ∧ vs.length = 2 ∧ 16 ≤ v.natAbs ∧ (∀ u ∈ vs, u.natAbs ≤ 16383)
    ∧ b.indexOf (codedDigits 11 b vs) = (idx.toNat : Int)
    ∧ bits = w ++ signCode vs ++ escapesCode before ++ List.replicate 10 true

/-! Sections. -/

/-- Launch premise P2 for the section with operand `e` (R346): `sfb_end <= 128`, `start <= end <= 1024`, and a span that
is a multiple of 4. -/
def premiseP2 (e : SfbEnd) (s : State) : Prop :=
  e.toNat ≤ 128 ∧ s.line.toNat ≤ sectionEnd e s ∧ sectionEnd e s ≤ 1024 ∧ (sectionEnd e s - s.line.toNat) % 4 = 0

/-- The four special sections with operand `e` (R93). -/
def specialSections (e : SfbEnd) : List Instr := [.zero e, .noise e, .int2 e, .int e]

/-- The regular sections that cannot raise, with their codebook ids (R93, R308). -/
def sectionsOneToTen (e : SfbEnd) : List (Instr × Nat) :=
  [(.hcb1 e, 1), (.hcb2 e, 2), (.hcb3 e, 3), (.hcb4 e, 4), (.hcb5 e, 5), (.hcb6 e, 6), (.hcb7 e, 7), (.hcb8 e, 8),
   (.hcb9 e, 9), (.hcb10 e, 10)]

/-- All regular sections, with their codebook ids (R93). -/
def regularSections (e : SfbEnd) : List (Instr × Nat) := sectionsOneToTen e ++ [(.hcb11 e, 11)]

/-- What a regular section that completes leaves, whatever its values (R125, R192, R193): the lines of the section are
written and no other, `MAX` is the largest magnitude so far, `LINE` is the end of the section, the reader moved forward
over an unchanged stream, and nothing else changed but the tuple registers. -/
def storedSection (e : SfbEnd) (s t : State) : Prop :=
  t.sectPtr = s.sectPtr + 1 ∧ t.line.toNat = sectionEnd e s
    ∧ (∀ j, j < s.line.toNat ∨ sectionEnd e s ≤ j → t.qs.read j = s.qs.read j)
    ∧ s.maxMag.toNat ≤ t.maxMag.toNat
    ∧ (∀ j, s.line.toNat ≤ j → j < sectionEnd e s → (t.qs.read j).toInt.natAbs ≤ t.maxMag.toNat)
    ∧ (t.maxMag = s.maxMag ∨ ∃ j, s.line.toNat ≤ j ∧ j < sectionEnd e s ∧ (t.qs.read j).toInt.natAbs = t.maxMag.toNat)
    ∧ t.dp.reader.stream = s.dp.reader.stream ∧ s.dp.reader.pos ≤ t.dp.reader.pos
    ∧ t = { s with sectPtr := t.sectPtr, line := t.line, qs := t.qs, maxMag := t.maxMag, dp := t.dp }

/-- What taking an error leaves that the host may rely on (R306, R307): the error record, `SECT_PTR`, the configuration,
the input tables and the ROMs, and a reader at or after its position at START. -/
def raisedError (code : BitVec 2) (info : BitVec 16) (s t : State) : Prop :=
  t.phase = .error ∧ t.errCode = code ∧ t.errInfo = info ∧ t.sectPtr = s.sectPtr ∧ keepsInputs s t
    ∧ t.launchPos = s.launchPos ∧ t.launchPos ≤ t.dp.reader.pos ∧ t.dp.reader.stream = s.dp.reader.stream

/-! The host's data path. -/

/-- The width of a space's elements (R36). -/
def Space.width : Space → Nat
  | .sect => 16
  | .stop => 11
  | .glen => 4
  | .soff => 8
  | .nb => 7
  | .btop => 16
  | .sf => 16
  | .qs => 16
  | .ds => 16
  | .coef => 32
  | .qfmt => 16

/-- The space holds an `s` type (R36). -/
def Space.isSigned : Space → Bool
  | .sect => false
  | .stop => false
  | .glen => false
  | .soff => false
  | .nb => false
  | .btop => true
  | .sf => true
  | .qs => true
  | .ds => true
  | .coef => true
  | .qfmt => true

/-- The word a host read returns for an element the host wrote as `v`: its low bits, extended by the element's type
(R61). -/
def Space.roundTrip (sp : Space) (v : HostWord) : HostWord :=
  if sp.isSigned then (v.setWidth sp.width).signExtend 32 else (v.setWidth sp.width).setWidth 32

/-- The bits of a writable register that hold something (R33). -/
def registerMask : HostReg → HostWord
  | .ctrl => 0
  | .status => 0
  | .err => 0
  | .cfg => 7
  | .nsect => 0xFF
  | .ngroup => 0xF
  | .nsfbs => 0x1F
  | .max => 0xFFFF
  | .gq => 0
  | .seq => 0

/-! Premise P4 of R346, in the terms of the rule. -/

/-- `1 <= NGROUP <= 8`, group lengths from 1 that add up to 8, `NSFBS <= 31`, offsets from 0 that do not fall and end by
128, and `STOP[g * NSFBS + i]` the sum of the spans up to `(g, i)` in group-major order, wherever a section of the launch names
that entry (R343; log 20). -/
def premiseP4 (s : State) : Prop :=
  1 ≤ s.ngroup.toNat ∧ s.ngroup.toNat ≤ 8
    ∧ (∀ g < s.ngroup.toNat, 1 ≤ (s.glen.read g).toNat)
    ∧ ((List.range s.ngroup.toNat).map (fun g => (s.glen.read g).toNat)).sum = 8
    ∧ s.nsfbs.toNat ≤ 31 ∧ s.soff.read 0 = 0#8
    ∧ (∀ i < s.nsfbs.toNat, (s.soff.read i).toNat ≤ (s.soff.read (i + 1)).toNat)
    ∧ (s.soff.read s.nsfbs.toNat).toNat ≤ 128
    ∧ (∀ k < s.nsect.toNat, ∀ g < s.ngroup.toNat, ∀ i < s.nsfbs.toNat,
        (Descriptor.sfbEnd (s.sect.read k)).toNat = g * s.nsfbs.toNat + i + 1 → g * s.nsfbs.toNat + i < 128 →
        (s.stop.read (g * s.nsfbs.toNat + i)).toNat =
          ((List.range g).map (fun h => (s.glen.read h).toNat)).sum * (s.soff.read s.nsfbs.toNat).toNat
            + (s.soff.read (i + 1)).toNat * (s.glen.read g).toNat)

end Sys2Proof.Machine
end

