-- ==== Sys2Proof/Certificates/Slice0/Obligations.lean ====
section
/-! DEFINITION. The statements for the provers, in the order of OBLIGATIONS.json. Each docstring names the rule of spec/
it formalises, or the rules it rests on. -/

open Sys2Proof Sys2Proof.Machine

/-! Encoding and decoding. -/

/-- R91, R93, R96, R98: decoding an encoded instruction gives it back, for every operand value. -/
def Obligations.DecodeOfEncode : Prop := ∀ i : Instr, decode (encode i) = .ok i

/-- R91: every descriptor decodes, to the row of the opcode map at its bits 15:12 with its bits 7:0 as operand; bits 11:8 take
no part, and are the only bits the encoder does not give back. -/
def Obligations.DescriptorIsOpcodeAndOperand : Prop :=
  ∀ w : Descriptor, ∃ row ∈ opcodeMap,
    row.1 = w.extractLsb' 12 4 ∧ (row.2 (w.extractLsb' 0 8)).codebook = some row.1
    ∧ decode (.descriptor w) = .ok (row.2 (w.extractLsb' 0 8))
    ∧ encode (row.2 (w.extractLsb' 0 8)) = .descriptor (w &&& 0xF0FF#16)
    ∧ decode (.descriptor (w &&& 0xF0FF#16)) = decode (.descriptor w)

/-- R92, R93, R96, R98, sanity: words written out from the spec's encodings. -/
def Obligations.SampleWordsDecode : Prop :=
  decode (.descriptor 0x0031#16) = .ok (.zero 49#8) ∧ decode (.descriptor 0x3001#16) = .ok (.hcb3 1#8)
    ∧ decode (.descriptor 0xBF80#16) = .ok (.hcb11 128#8) ∧ decode (.descriptor 0xC005#16) = .ok (.rsvd12 5#8)
    ∧ decode (.descriptor 0xD005#16) = .ok (.noise 5#8) ∧ decode (.descriptor 0xF00C#16) = .ok (.int 12#8)
    ∧ decode (.control 1#32) = .ok .start ∧ decode (.control 2#32) = .ok .resume
    ∧ decode (.control 0xFFFFFFFF#32) = .ok .abort ∧ decode (.control 3#32) = .ok .start

/-! The step. -/

/-- R120, R121: in UNPACK the engine's step runs the instruction its `SECT[SECT_PTR]` decodes to. The entry of the pending
list that let the engine move is used up (the model's own, log 3). -/
def Obligations.StepRunsFetchedSection : Prop :=
  ∀ (s : State) (i : Instr), s.phase = .unpack → s.nsect.toNat ≤ 128 → s.sectPtr.toNat < s.nsect.toNat →
    decode (.descriptor (s.sect.read s.sectPtr.toNat)) = .ok i → engineMoves s →
    step s = exec i { s with pending := afterEngine s }

/-- R121: the fetched word's class decides: `cb` in 0, 13, 14, 15 is a special section, every other `cb` a regular one. -/
def Obligations.ClassDecidesTheSection : Prop :=
  ∀ s : State, s.phase = .unpack → s.nsect.toNat ≤ 128 → s.sectPtr.toNat < s.nsect.toNat → s.pending = [] →
    let word := s.sect.read s.sectPtr.toNat
    let cb := (word.extractLsb' 12 4).toNat
    step s = if cb = 0 ∨ cb = 13 ∨ cb = 14 ∨ cb = 15 then zeroSection (word.extractLsb' 0 8) s
      else regular cb (word.extractLsb' 0 8) s

/-- R286: a `CTRL` write executes exactly one command, ABORT before START before RESUME, or does nothing. -/
def Obligations.ControlWriteRunsOneCommand : Prop :=
  ∀ (s : State) (v : HostWord) (rest : List HostMove), s.pending = .writeReg .ctrl v :: rest →
    step s = if v.getLsbD 2 then exec .abort { s with pending := rest }
      else if v.getLsbD 0 then exec .start { s with pending := rest }
      else if v.getLsbD 1 then exec .resume { s with pending := rest }
      else .next { s with pending := rest }

/-- R319: in IDLE, PAUSED, DONE and ERROR the engine's step changes nothing. -/
def Obligations.RestingStatesKeepEverything : Prop :=
  ∀ s : State, s.phase = .idle ∨ s.phase = .paused ∨ s.phase = .done ∨ s.phase = .error → engineMoves s →
    step s = .next { s with pending := afterEngine s }

/-- R347, U7: a step is refused only where a launch premise or the host's duty of R76 is broken (where the model refuses is its
own, log 7, 9; a configuration that is none of HD11's is in no state, log 13). -/
def Obligations.RefusedOnlyForABrokenPremise : Prop :=
  ∀ (s : State) (r : Refusal), step s = .refused r →
    (r = .sectionTable ∧ s.phase = .unpack ∧ 128 < s.nsect.toNat)
    ∨ (r = .sectionRange ∧ s.phase = .unpack ∧ s.sectPtr.toNat < s.nsect.toNat
        ∧ ¬ premiseP2 ((s.sect.read s.sectPtr.toNat).extractLsb' 0 8) s)
    ∨ (r = .groupGeometry ∧ s.phase = .deint ∧ ¬ premiseP4 s)
    ∨ (r = .bandWindow ∧ s.phase = .rescale ∧ s.win.toNat < s.windows
        ∧ (64 < s.bandsIn s.win.toNat ∨ (badWidth s.bandWidth = false ∧ (s.windowLen : Int) < s.bandTop)))
    ∨ (r = .readerInUse ∧ s.busy = true ∧ ∃ bits pos rest, s.pending = .positionReader bits pos :: rest)

/-- R346 P2, R347: a section whose range breaks P2 is refused, the special ones and HCB1 to HCB11 alike. -/
def Obligations.BrokenSectionRangeIsRefused : Prop :=
  ∀ (e : SfbEnd) (s : State) (i : Instr), i ∈ specialSections e ∨ (∃ cb, (i, cb) ∈ regularSections e) → ¬ premiseP2 e s →
    exec i s = .refused .sectionRange

/-! Special sections. -/

/-- R124, R130, R143, R144, R145: a special section writes 0 to its lines of `QS` and `DS`, moves `LINE` to its end and falls
through; nothing else changes. -/
def Obligations.SpecialSectionsZeroFill : Prop :=
  ∀ (e : SfbEnd) (i : Instr) (s : State), i ∈ specialSections e → premiseP2 e s →
    ∃ t, exec i s = .next t ∧ t.sectPtr = s.sectPtr + 1 ∧ t.line.toNat = sectionEnd e s
      ∧ (∀ j, s.line.toNat ≤ j → j < sectionEnd e s → t.qs.read j = 0#16 ∧ t.ds.read j = 0#16)
      ∧ (∀ j, j < s.line.toNat ∨ sectionEnd e s ≤ j → t.qs.read j = s.qs.read j ∧ t.ds.read j = s.ds.read j)
      ∧ t = { s with sectPtr := t.sectPtr, line := t.line, qs := t.qs, ds := t.ds }

/-- R123: an empty section is legal and only falls through, writing no line and reading no bit, except that `RSVD12` still
raises. -/
def Obligations.EmptySectionOnlyFallsThrough : Prop :=
  ∀ (e : SfbEnd) (s : State), e.toNat ≤ 128 → s.line.toNat ≤ 1024 → sectionEnd e s = s.line.toNat →
    (∀ i, i ∈ specialSections e ∨ (∃ cb, (i, cb) ∈ regularSections e) → exec i s = .next { s with sectPtr := s.sectPtr + 1 })
    ∧ ∃ t, exec (.rsvd12 e) s = .next t ∧ raisedError 1#2 (s.sectPtr.setWidth 16) s t

/-! Regular sections. -/

/-- R125, R131 to R140, R181, R183, R184, R192, R193: HCB1 to HCB10 complete on every bit stream; their values are in the
range of the codebook, each is stored at the next line and enters `MAX`. -/
def Obligations.SectionsOneToTenComplete : Prop :=
  ∀ (e : SfbEnd) (s : State) (i : Instr) (cb : Nat), (i, cb) ∈ sectionsOneToTen e → premiseP2 e s →
    let b := s.rom.book cb
    ∃ t, exec i s = .next t ∧ storedSection e s t
      ∧ (∀ j, s.line.toNat ≤ j → j < sectionEnd e s →
          if b.signed then 0 ≤ (t.qs.read j).toInt + b.offset ∧ (t.qs.read j).toInt + b.offset < b.modulus
          else (t.qs.read j).toInt.natAbs < b.modulus)
      ∧ t.dp.escN = s.dp.escN ∧ t.dp.escL = s.dp.escL

/-- R141, R189, R302: HCB11 completes, with magnitudes up to 16383, or raises MagnitudeOutOfRange with `0xFFFF`; it does
nothing else. -/
def Obligations.EscapeSectionCompletesOrRaises : Prop :=
  ∀ (e : SfbEnd) (s : State), premiseP2 e s →
    ∃ t, exec (.hcb11 e) s = .next t ∧
      ((storedSection e s t ∧ ∀ j, s.line.toNat ≤ j → j < sectionEnd e s → (t.qs.read j).toInt.natAbs ≤ 16383)
        ∨ raisedError 2#2 0xFFFF#16 s t)

/-- R100, R101, R125, R161, R181 to R193: where the stream holds the tuple codes of some values, a regular section decodes
exactly those values: it completes, stores them in order, raises `MAX` to their largest magnitude, and reads exactly the
bits of their codes. All eleven regular sections. -/
def Obligations.CodedSectionDecodesToItsValues : Prop :=
  ∀ (e : SfbEnd) (s : State) (i : Instr) (cb : Nat) (tups : List (List Int)) (bits : List Bool),
    (i, cb) ∈ regularSections e → premiseP2 e s →
    CodesTuples s.rom cb tups bits → s.line.toNat + tups.flatten.length = sectionEnd e s → s.dp.reader.supplies bits →
    ∃ t, exec i s = .next t ∧ storedSection e s t
      ∧ (∀ j v, tups.flatten[j]? = some v → (t.qs.read (s.line.toNat + j)).toInt = v)
      ∧ t.maxMag.toNat = tups.flatten.foldl (fun m v => max m v.natAbs) s.maxMag.toNat
      ∧ t.dp.reader = s.dp.reader.after bits.length

/-- R189, R302 (b): where the stream holds some tuple codes and then one whose escape prefix runs to a tenth one-bit before
the section is full, HCB11 raises MagnitudeOutOfRange with `0xFFFF`. -/
def Obligations.EscapeOverrunInStreamRaises : Prop :=
  ∀ (e : SfbEnd) (s : State) (tups : List (List Int)) (bits last : List Bool), premiseP2 e s →
    CodesTuples s.rom 11 tups bits → CodesOverrun s.rom last → s.line.toNat + tups.flatten.length < sectionEnd e s →
    s.dp.reader.supplies (bits ++ last) →
    ∃ t, exec (.hcb11 e) s = .next t ∧ raisedError 2#2 0xFFFF#16 s t

/-- R142, R301, R306: RSVD12 raises InvalidCodebook with its own index, whatever its operand. -/
def Obligations.IllegalOpcodeRaises : Prop :=
  ∀ (e : SfbEnd) (s : State), ∃ t, exec (.rsvd12 e) s = .next t ∧ raisedError 1#2 (s.sectPtr.setWidth 16) s t

/-! The tuple decoder. -/

/-- R66: `GetBits(n)` returns the next `n` bits, the first bit read the most significant, and advances by `n`; past the
host's data it still returns some `n`-bit value. -/
def Obligations.FirstBitReadIsMostSignificant : Prop :=
  (∀ (n v : Nat) (r : Reader), v < 2 ^ n → r.supplies (bitsOf v n) → r.bits n = (v, r.after n))
  ∧ ∀ (n : Nat) (r : Reader), (r.bits n).1 < 2 ^ n ∧ (r.bits n).2.pos = r.pos + n ∧ (r.bits n).2.stream = r.stream

/-- R161, R162, R163: no codeword of a tree is a prefix of another; the walk gives the index of the codeword the stream
holds and reads exactly its bits; and whatever the bits, it ends at a codeword. -/
def Obligations.WalkReadsOneCodeword : Prop :=
  (∀ (t : CodeTree) (c d : List Bool × BitVec 9), c ∈ t.code → d ∈ t.code → c.1 <+: d.1 → c = d)
  ∧ (∀ (t : CodeTree) (c : List Bool × BitVec 9) (r : Reader), c ∈ t.code → r.supplies c.1 →
      t.walk r = (c.2, r.after c.1.length))
  ∧ ∀ (t : CodeTree) (r : Reader), ∃ c ∈ t.code, (t.walk r).1 = c.2 ∧ (t.walk r).2.pos = r.pos + c.1.length

/-- R161, R164: a walk in the node ROM agrees with the walk in the tree the ROM holds. -/
def Obligations.NodeRomWalkAgrees : Prop :=
  ∀ (nodes : List (BitVec 16 × BitVec 16)) (fuel : Nat) (c : Child) (t : CodeTree) (r : Reader),
    treeBelow nodes fuel c = some t → t.depth ≤ fuel ∧ romWalk nodes fuel c r = some (t.walk r)

/-- R181: the digits are the base-`mod` digits of the index, most significant first, each minus the offset. -/
def Obligations.DigitsAreTheIndex : Prop :=
  ∀ (b : CodeBook) (idx : Nat), 0 < b.modulus → idx < b.indexBound →
    (digits b idx).length = b.dim.count
    ∧ (∀ d ∈ digits b idx, 0 ≤ d + b.offset ∧ d + b.offset < b.modulus)
    ∧ b.indexOf (digits b idx) = (idx : Int)

/-- R184, R191: one sign bit is read for each nonzero digit, in digit order, 1 negates; a zero digit reads none. -/
def Obligations.SignBitsOfNonzeroDigits : Prop :=
  (∀ (vs : List Int) (r : Reader), r.supplies (signCode vs) →
    signs (vs.map (fun v => (v.natAbs : Int))) r = (vs, r.after (signCode vs).length))
  ∧ ∀ (ds : List Int) (r : Reader), (signs ds r).1.map Int.natAbs = ds.map Int.natAbs
      ∧ (signs ds r).2.pos = r.pos + ds.countP (fun d => d != 0)

/-- R186: on -16..16 the low-five-bits test is true exactly of 16 and -16. -/
def Obligations.SentinelIsSixteenEitherSign : Prop :=
  ∀ d : Int, -16 ≤ d → d ≤ 16 → (isSentinel d = true ↔ d = 16 ∨ d = -16)

/-- R188, R189: an escape sequence of magnitude `m` expands to `m` with the digit's sign, reads `2p + 5` bits and leaves `N`
and `L` in `ESC_N` and `ESC_L`; ten one-bits are read and give no value; a value is never below 16 or above 16383. -/
def Obligations.EscapeSequenceExpands : Prop :=
  ∀ (d : Int) (e : EscRegs) (r : Reader), d = 16 ∨ d = -16 →
    (∀ m : Nat, 16 ≤ m → m ≤ 16383 → r.supplies (escapeCode m) →
      expand d e r =
        { value := some (if 0 < d then (m : Int) else -(m : Int))
          regs := { n := BitVec.ofNat 4 (Nat.log2 m), l := BitVec.ofNat 13 (m - 2 ^ Nat.log2 m) }
          reader := r.after (2 * (Nat.log2 m - 4) + 5) })
    ∧ (r.supplies (List.replicate 10 true) →
        expand d e r = { value := none, regs := { e with n := 13#4 }, reader := r.after 10 })
    ∧ ∀ v, (expand d e r).value = some v → 16 ≤ v.natAbs ∧ v.natAbs ≤ 16383

/-- R126: with `DIM_BOUNDARY = 5` a codeword of ids 1 to 4 yields 4 values and one of ids 5 to 11 yields 2, whatever the
bits. -/
def Obligations.DimensionPartition : Prop :=
  ∀ (rom : Rom) (cb : Nat), rom.dimBoundary = 5 → 1 ≤ cb → cb ≤ 11 →
    dimOf rom cb = (if cb ≤ 4 then 4 else 2)
    ∧ ∀ d : Datapath, (tuple rom cb d).outcome = .complete → (tuple rom cb d).vals.length = dimOf rom cb

/-- R26, R27, R28, R180: a completed tuple leaves its codeword index in `CWIDX` and its values in `DIG`; a pair leaves
`DIG[2]` and `DIG[3]`, and only codebook 11 writes `ESC_N` and `ESC_L`. -/
def Obligations.TupleLeavesItsRegisters : Prop :=
  ∀ (rom : Rom) (cb : Nat) (d : Datapath), 1 ≤ cb → cb ≤ 11 → (tuple rom cb d).outcome = .complete →
    (tuple rom cb d).dp.cwidx = ((rom.tree cb).walk d.reader).1
    ∧ ((∃ a b, (tuple rom cb d).vals = [a, b] ∧ (tuple rom cb d).dp.dig0.toInt = a ∧ (tuple rom cb d).dp.dig1.toInt = b
          ∧ (tuple rom cb d).dp.dig2 = d.dig2 ∧ (tuple rom cb d).dp.dig3 = d.dig3)
        ∨ ∃ a b c f, (tuple rom cb d).vals = [a, b, c, f] ∧ (tuple rom cb d).dp.dig0.toInt = a
          ∧ (tuple rom cb d).dp.dig1.toInt = b ∧ (tuple rom cb d).dp.dig2.toInt = c ∧ (tuple rom cb d).dp.dig3.toInt = f)
    ∧ (cb ≠ 11 → (tuple rom cb d).dp.escN = d.escN ∧ (tuple rom cb d).dp.escL = d.escL)

/-- R102, R352: a tuple reads at most `LMAX + 48` bits, and at most `LMAX + 35` when it ends in the escape error. -/
def Obligations.TupleReadsBoundedBits : Prop :=
  ∀ (rom : Rom) (cb : Nat) (d : Datapath), 1 ≤ cb → cb ≤ 11 →
    ((tuple rom cb d).outcome = .complete → (tuple rom cb d).dp.reader.pos ≤ d.reader.pos + rom.lmax + 48)
    ∧ ((tuple rom cb d).outcome = .overrun → (tuple rom cb d).dp.reader.pos ≤ d.reader.pos + rom.lmax + 35)

/-! Errors. -/

/-- R304, R308: an error is entered only by RSVD12, by HCB11's escape overrun, by SOLVE or by a bad band, with the code and
information of its row; and RSVD12 always enters it. -/
def Obligations.OnlyTheseRaise : Prop :=
  (∀ s t : State, step s = .next t → s.phase ≠ .error → t.phase = .error →
    (s.phase = .unpack ∧ (∃ e, decode (.descriptor (s.sect.read s.sectPtr.toNat)) = .ok (.rsvd12 e))
      ∧ t.errCode = 1#2 ∧ t.errInfo = s.sectPtr.setWidth 16)
    ∨ (s.phase = .unpack ∧ (∃ e, decode (.descriptor (s.sect.read s.sectPtr.toNat)) = .ok (.hcb11 e))
      ∧ t.errCode = 2#2 ∧ t.errInfo = 0xFFFF#16)
    ∨ (s.phase = .solve ∧ 8192 < s.maxMag.toNat ∧ t.errCode = 2#2 ∧ t.errInfo = s.maxMag)
    ∨ (s.phase = .rescale ∧ badWidth s.bandWidth = true ∧ t.errCode = 3#2 ∧ t.errInfo = s.bflat.setWidth 16))
  ∧ ∀ (s : State) (e : SfbEnd), s.phase = .unpack → s.nsect.toNat ≤ 128 → s.sectPtr.toNat < s.nsect.toNat →
      engineMoves s → decode (.descriptor (s.sect.read s.sectPtr.toNat)) = .ok (.rsvd12 e) →
      ∃ t, step s = .next t ∧ t.phase = .error ∧ t.errCode = 1#2

/-- R307: a step that enters ERROR keeps `SECT_PTR`, the configuration registers and every input table, and leaves the reader
at or after its position at START. -/
def Obligations.ErrorKeepsWhatIsDefined : Prop :=
  ∀ s t : State, step s = .next t → s.phase ≠ .error → t.phase = .error →
    t.sectPtr = s.sectPtr ∧ keepsInputs s t ∧ t.launchPos = s.launchPos ∧ t.launchPos ≤ t.dp.reader.pos

/-! SOLVE. -/

/-- R232, R302 (a): a maximum above 8192 raises MagnitudeOutOfRange with `ERRINFO = MAX`. -/
def Obligations.SolverRejectsLargeMaximum : Prop :=
  ∀ s : State, s.phase = .solve → s.pending = [] → 8192 < s.maxMag.toNat →
    ∃ t, step s = .next t ∧ raisedError 2#2 s.maxMag s t

/-- R231 to R236: otherwise `GQ` is `QTOP - max(bitlen(M * r), QTOP - QT)`, as the 5-bit register holds it, for `r` the table
entry at `(M >> 3) + 1` rounded up and shifted down by `QT` (30, 3 and 27 with the default `QT`; for another, log 12); RESCALE
is entered with its counters at 0; nothing else changes. -/
def Obligations.SolverSetsGlobalQFormat : Prop :=
  ∀ s : State, s.phase = .solve → s.pending = [] → s.maxMag.toNat ≤ 8192 →
    ∃ r p b : Nat, r = (s.rom.cbrt ((s.maxMag.toNat >>> 3) + 1) + 2 ^ s.rom.qt - 1) >>> s.rom.qt ∧ p = s.maxMag.toNat * r
      ∧ (if p = 0 then b = 0 else 2 ^ (b - 1) ≤ p ∧ p < 2 ^ b ∧ 1 ≤ b)
      ∧ step s = .next { s with phase := .rescale, gq := BitVec.ofInt 5 (30 - max (b : Int) (30 - (s.rom.qt : Int))), win := 0,
                                bidx := 0, bflat := 0, roff := 0 }

/-- R234, R236: with the default `QT` and table, `r` is the ceiling of the cube root of the table index, and `GQ` lies in 13..27
and is 27 for `M <= 7`. -/
def Obligations.GlobalQFormatRange : Prop :=
  ∀ (rom : Rom) (m : Nat), rom.qt = 27 → rom.cbrtTab = defaultCbrtTab → m ≤ 8192 →
    m / 8 + 1 ≤ solverRoot rom m ^ 3 ∧ (solverRoot rom m - 1) ^ 3 < m / 8 + 1
    ∧ 13 ≤ globalQ rom m ∧ globalQ rom m ≤ 27 ∧ ((globalQWord rom m).toNat : Int) = globalQ rom m
    ∧ (m ≤ 7 → globalQ rom m = 27)

/-- R42: the default table holds the cube roots in Q27, rounded down; every entry is below `2^31` and none is below the one
before. -/
def Obligations.CubeRootTable : Prop :=
  ∀ (rom : Rom) (j : Nat), rom.cbrtTab = defaultCbrtTab → j ≤ 1025 →
    rom.cbrt j ^ 3 ≤ j * 2 ^ 81 ∧ j * 2 ^ 81 < (rom.cbrt j + 1) ^ 3 ∧ rom.cbrt j < 2 ^ 31
    ∧ ∀ k, k ≤ j → rom.cbrt k ≤ rom.cbrt j

/-! RESCALE. -/

/-- R253: a band of width below 1, above 1024, or no multiple of 4 is rejected with `ERRINFO = BFLAT`. -/
def Obligations.BadBandIsRejected : Prop :=
  ∀ s : State, s.phase = .rescale → s.pending = [] → s.win.toNat < s.windows → s.bandsIn s.win.toNat ≤ 64 →
    s.bidx.toNat < s.bandsIn s.win.toNat →
    (let width : Int := (s.btop.read (s.win.toNat * 64 + s.bidx.toNat)).toInt - s.roff.toInt
     width ≤ 0 ∨ 1024 < width ∨ width % 4 ≠ 0) →
    ∃ t, step s = .next t ∧ raisedError 3#2 (s.bflat.setWidth 16) s t

/-- R251, R253 to R259, R262: an accepted band writes `COEF` at its lines and no other, each from the sample at the same index
(a sample above `MAX` gives any value, log 8, and the other lines do not depend on it; `GQ <= QT` is R236's, log 12), writes `QFMT[BFLAT]` and no other, and
advances `ROFF`, `BFLAT`, `BIDX`; nothing else of the spec's state changes. -/
def Obligations.BandIsRescaled : Prop :=
  ∀ s : State, s.inv = true → s.phase = .rescale → s.pending = [] → s.win.toNat < s.windows →
    s.bandsIn s.win.toNat ≤ 64 → s.bidx.toNat < s.bandsIn s.win.toNat →
    let top : Int := (s.btop.read (s.win.toNat * 64 + s.bidx.toNat)).toInt
    let width : Int := top - s.roff.toInt
    let first : Nat := s.win.toNat * (if s.short then 128 else 1024) + s.roff.toInt.toNat
    let e : Int := (s.sf.read s.bflat.toNat).toInt - s.rom.sfOffset
    let sample : Nat → Int := fun ln => ((if s.short then s.ds else s.qs).read ln).toInt
    0 < width → width ≤ 1024 → width % 4 = 0 → top ≤ (if s.short then 128 else 1024) →
    ∃ t, step s = .next t
      ∧ (∀ ln, first ≤ ln → ln < first + width.toNat → (sample ln).natAbs ≤ s.maxMag.toNat → s.gq.toNat ≤ s.rom.qt →
          t.coef.read ln = BitVec.ofInt 32 (rescaleSample s.rom s.gq.toNat (e % 4).toNat (sample ln)))
      ∧ (∀ ln, ln < first ∨ first + width.toNat ≤ ln → t.coef.read ln = s.coef.read ln)
      ∧ t.qfmt.read s.bflat.toNat = BitVec.ofInt 16 ((s.gq.toNat : Int) - (e / 4 + 1))
      ∧ (∀ k, k ≠ s.bflat.toNat → t.qfmt.read k = s.qfmt.read k)
      ∧ t.roff.toInt = top ∧ t.bflat.toNat = s.bflat.toNat + 1 ∧ t.bidx.toNat = s.bidx.toNat + 1
      ∧ t = { s with coef := t.coef, qfmt := t.qfmt, roff := t.roff, bflat := t.bflat, bidx := t.bidx, draws := t.draws }

/-- R251, R252, R263: after a window's last band the sweep goes to the next window, and after the last window to DONE,
changing nothing else; a window begins with `BIDX` and `ROFF` at 0, and after the last one `ROFF` stays the top of its last
band. That the loop variables `WIN` and `BIDX` are one past their last value after their loops is the model's reading (log 19).
That the end of a window is a step of its own is the model's granularity (log 3). -/
def Obligations.SweepGoesOnAndEnds : Prop :=
  ∀ s : State, s.phase = .rescale → s.pending = [] →
    ((if s.short then 8 else 1) ≤ s.win.toNat → step s = .next { s with phase := .done })
    ∧ (s.win.toNat < (if s.short then 8 else 1) → s.bandsIn s.win.toNat ≤ 64 → s.bandsIn s.win.toNat ≤ s.bidx.toNat →
        step s = .next (if s.win.toNat + 1 < (if s.short then 8 else 1) then { s with win := s.win + 1, bidx := 0, roff := 0 }
          else { s with win := s.win + 1 }))

/-- R256, R257: the magnitude of a coefficient is the exact product, with `POW2Q[fi]` for `fi` not 0, shifted down by
`QT + 1 - GQ`, or `QT + 16 - GQ`, and truncated; the sign comes last, so that the primitive is odd and rounds toward zero for
both signs. -/
def Obligations.RescaleSampleTruncates : Prop :=
  ∀ (rom : Rom) (gq fi : Nat) (q : Int), gq ≤ rom.qt + 1 →
    let out : Int := rescaleSample rom gq fi q
    let v : Nat := q.natAbs * cbrt28 rom q.natAbs
    let n : Nat := rom.qt + 1 - gq
    (if fi = 0 then out.natAbs * 2 ^ n ≤ v ∧ v < (out.natAbs + 1) * 2 ^ n
      else out.natAbs * 2 ^ (n + 15) ≤ v * rom.pow2 fi ∧ v * rom.pow2 fi < (out.natAbs + 1) * 2 ^ (n + 15))
    ∧ (0 ≤ q → 0 ≤ out) ∧ (q ≤ 0 → out ≤ 0) ∧ rescaleSample rom gq fi (-q) = -out

/-- R254: `e = 4 * (co - 1) + fi` with `fi` in 0..3, for negative exponents too. -/
def Obligations.ExponentSplitsExactly : Prop :=
  ∀ (rom : Rom) (sf : BitVec 16),
    bandExponent rom sf = sf.toInt - rom.sfOffset
    ∧ bandExponent rom sf = 4 * (coarsePart (bandExponent rom sf) - 1) + (fineIndex (bandExponent rom sf) : Int)
    ∧ fineIndex (bandExponent rom sf) ≤ 3

/-- R255: with the default table `cbrt28` does not fall over 0..8192, is below `2^32`, and differs from `cbrt(a) * 2^27` by
less than 2 parts in a million (said of the cubes). -/
def Obligations.CubeRootStepIsAccurate : Prop :=
  ∀ (rom : Rom) (a : Nat), rom.cbrtTab = defaultCbrtTab → a ≤ 8192 →
    cbrt28 rom a < 2 ^ 32 ∧ (∀ k, k ≤ a → cbrt28 rom k ≤ cbrt28 rom a)
    ∧ (0 < a → (10 ^ 6 - 2) ^ 3 * (a * 2 ^ 81) < (10 ^ 6 * cbrt28 rom a) ^ 3
        ∧ (10 ^ 6 * cbrt28 rom a) ^ 3 < (10 ^ 6 + 2) ^ 3 * (a * 2 ^ 81))

/-- R238 (an inference the spec marks as its own): with the default `QT` and tables no coefficient overflows: for every magnitude up to the maximum the solver used, the
magnitude is at most `0x6B99878E`, so the stored `s32` is the exact result. -/
def Obligations.NoCoefficientOverflows : Prop :=
  ∀ (rom : Rom) (m fi : Nat) (q : Int), rom.qt = 27 → rom.cbrtTab = defaultCbrtTab → rom.pow2q = defaultPow2q → m ≤ 8192 →
    fi ≤ 3 → q.natAbs ≤ m →
    let gq : Nat := (globalQWord rom m).toNat
    magnitude rom gq fi q.natAbs ≤ 0x6B99878E
    ∧ (BitVec.ofInt 32 (rescaleSample rom gq fi q)).toInt = rescaleSample rom gq fi q

/-- R260 (an inference the spec marks as its own): with the default `QT` and tables the magnitude approximates `(a^(4/3) / 2) * 2^(fi/4) * 2^GQ` to a relative error below
`2^-16` apart from the truncation of one unit (said of the twelfth powers). -/
def Obligations.RescaleIsAccurate : Prop :=
  ∀ (rom : Rom) (a gq fi : Nat), rom.qt = 27 → rom.cbrtTab = defaultCbrtTab → rom.pow2q = defaultPow2q → 1 ≤ a → a ≤ 8192 →
    gq ≤ 27 → fi ≤ 3 →
    magnitude rom gq fi a ^ 12 * 2 ^ 204 ≤ a ^ 16 * 2 ^ (3 * fi + 12 * gq) * (2 ^ 16 + 1) ^ 12
    ∧ a ^ 16 * 2 ^ (3 * fi + 12 * gq) * (2 ^ 16 - 1) ^ 12 < (magnitude rom gq fi a + 1) ^ 12 * 2 ^ 204

/-! Leaving UNPACK and DEINT. -/

/-- R127: after the last section the phase is DEINT for a short block, else PAUSED if the pause is enabled, else SOLVE. -/
def Obligations.LeavingUnpack : Prop :=
  ∀ s : State, s.phase = .unpack → s.pending = [] → s.nsect.toNat ≤ 128 → s.sectPtr = s.nsect →
    step s = .next { s with phase := if s.short then .deint else if s.pauseEn then .paused else .solve }

/-- R212, R215: under P4 the deinterleaver moves line `l` of band `i` of window `w` of group `g` from its place in the coding
order to its place in the window, keeps every other element of `DS`, leaves for PAUSED or SOLVE, and changes nothing
else but the pending entry that let the engine move (log 3). -/
def Obligations.DeinterleaveMovesEveryLine : Prop :=
  ∀ s : State, s.phase = .deint → engineMoves s → premiseP4 s →
    let off : Nat → Nat := fun i => (s.soff.read i).toNat
    let len : Nat → Nat := fun g => (s.glen.read g).toNat
    let before : Nat → Nat := fun g => ((List.range g).map len).sum
    ∃ t, step s = .next t
      ∧ (∀ g i w l, g < s.ngroup.toNat → i < s.nsfbs.toNat → w < len g → l < off (i + 1) - off i →
          t.ds.read ((before g + w) * 128 + off i + l)
            = s.qs.read (before g * off s.nsfbs.toNat + off i * len g + w * (off (i + 1) - off i) + l))
      ∧ (∀ j, off s.nsfbs.toNat ≤ j % 128 ∨ 1024 ≤ j → t.ds.read j = s.ds.read j)
      ∧ t = { s with ds := t.ds, phase := if s.pauseEn then .paused else .solve, pending := afterEngine s }

/-- R346 P4: the geometry the model accepts is exactly the one the premise describes, where `STOP` is held to it at the entries
the sections of the launch name (R343; the model's reading of the two rules, log 20). -/
def Obligations.GeometryPremise : Prop := ∀ s : State, geometryOk s = true ↔ premiseP4 s

/-! The host. -/

/-- R36, R61: an element the host writes while the engine is not busy reads back as its low bits, extended by the element's
type; every other element of every space reads as before, and an index outside the space writes nothing. -/
def Obligations.ElementReadsBack : Prop :=
  ∀ (s : State) (sp : Space) (i : Nat) (v : HostWord) (rest : List HostMove), s.busy = false →
    s.pending = .writeElem sp i v :: .readElem sp i :: rest →
    ∃ t, step s = .next t ∧ t.pending = .readElem sp i :: rest
      ∧ (i < sp.count → ∃ u, step t = .next u ∧ u.hostData = sp.roundTrip v ∧ u = { t with hostData := u.hostData, pending := rest })
      ∧ (∀ (sp' : Space) (j : Nat), sp' ≠ sp ∨ j ≠ i → t.elemWord sp' j = s.elemWord sp' j)
      ∧ (sp.count ≤ i → t = { s with pending := .readElem sp i :: rest })

/-- R71: while the engine is busy a host write to a register or memory is dropped, a read changes nothing but what it returns,
a `STATUS` read returns `STATUS`, and a command other than ABORT is ignored. -/
def Obligations.BusyHostWritesAreDropped : Prop :=
  ∀ (s : State) (rest : List HostMove), s.busy = true →
    (∀ sp i v, s.pending = .writeElem sp i v :: rest → step s = .next { s with pending := rest })
    ∧ (∀ r v, (r = .ctrl → v.getLsbD 2 = false) → s.pending = .writeReg r v :: rest → step s = .next { s with pending := rest })
    ∧ (s.pending = .readReg .status :: rest → step s = .next { s with pending := rest, hostData := s.statusWord })
    ∧ (∀ r, r ≠ .status → s.pending = .readReg r :: rest →
        ∃ d, step s = .next { s with pending := rest, hostData := d, draws := s.draws + 1 })
    ∧ ∀ sp i, s.pending = .readElem sp i :: rest →
        ∃ d, step s = .next { s with pending := rest, hostData := d, draws := s.draws + 1 }

/-- R33, R35: outside the busy phases the machine takes a host write of a writable register and then gives back what was
written in its fields and 0 in its other bits; every other register reads as before, but `STATUS`, whose `IRQ` follows
`CFG.IEN` (R32); a write of a read-only register changes nothing; nothing but the five writable registers changes. A write of
`CTRL` is a command (ControlWriteRunsOneCommand), and `CTRL` reads 0. -/
def Obligations.RegisterReadsBack : Prop :=
  (∀ (s : State) (r : HostReg) (v : HostWord) (rest : List HostMove), s.busy = false → r ≠ .ctrl →
    s.pending = .writeReg r v :: .readReg r :: rest →
    ∃ t u, step s = .next t ∧ t.pending = .readReg r :: rest ∧ step t = .next u
      ∧ (r = .cfg ∨ r = .nsect ∨ r = .ngroup ∨ r = .nsfbs ∨ r = .max → u.hostData = v &&& registerMask r)
      ∧ (r = .status ∨ r = .err ∨ r = .gq ∨ r = .seq →
          t = { s with pending := .readReg r :: rest } ∧ u.hostData = s.regWord r)
      ∧ (∀ r', r' ≠ r → r' ≠ .status ∨ r ≠ .cfg → t.regWord r' = s.regWord r')
      ∧ t = { s with pending := .readReg r :: rest, short := t.short, pauseEn := t.pauseEn, ien := t.ien, nsect := t.nsect,
                     ngroup := t.ngroup, nsfbs := t.nsfbs, maxMag := t.maxMag }
      ∧ u = { t with pending := rest, hostData := u.hostData })
  ∧ ∀ (s : State) (rest : List HostMove), s.busy = false → s.pending = .readReg .ctrl :: rest →
      step s = .next { s with pending := rest, hostData := 0 }

/-- R32, R34, R310: `STATUS` is `STATE` and the five flags of it, and `IRQ` is the level of the output. -/
def Obligations.StatusWordFields : Prop :=
  ∀ s : State,
    s.statusWord.extractLsb' 0 3 = s.phase.code
    ∧ (s.statusWord.getLsbD 3 = true ↔ s.phase.code.toNat = 1 ∨ s.phase.code.toNat = 2 ∨ s.phase.code.toNat = 4 ∨ s.phase.code.toNat = 5)
    ∧ (s.statusWord.getLsbD 4 = true ↔ s.phase.code.toNat = 6)
    ∧ (s.statusWord.getLsbD 5 = true ↔ s.phase.code.toNat = 7)
    ∧ (s.statusWord.getLsbD 6 = true ↔ s.phase.code.toNat = 3)
    ∧ (s.statusWord.getLsbD 7 = true ↔ s.ien = true ∧ (s.phase = .paused ∨ s.phase = .done ∨ s.phase = .error))
    ∧ s.statusWord.extractLsb' 8 24 = 0#24
    ∧ s.errWord.extractLsb' 0 2 = s.errCode ∧ s.errWord.extractLsb' 16 16 = s.errInfo
    ∧ s.seqWord.extractLsb' 0 8 = s.sectPtr ∧ s.seqWord.extractLsb' 16 11 = s.line

/-! Commands and reset. -/

/-- R281, R285: START in IDLE, DONE and ERROR clears the error record, `MAX`, `SECT_PTR` and `LINE` and enters UNPACK, changing
nothing else of the spec's state (`launchPos` is the model's own, log 5); in every other state it changes nothing. -/
def Obligations.StartLaunches : Prop :=
  ∀ s : State,
    (s.phase = .idle ∨ s.phase = .done ∨ s.phase = .error →
      exec .start s = .next { s with errCode := 0, errInfo := 0, maxMag := 0, sectPtr := 0, line := 0, phase := .unpack,
                                     launchPos := s.dp.reader.pos })
    ∧ (s.phase = .unpack ∨ s.phase = .deint ∨ s.phase = .paused ∨ s.phase = .solve ∨ s.phase = .rescale →
      exec .start s = .next s)

/-- R282, R285: RESUME in PAUSED enters SOLVE and changes nothing else; in every other state it changes nothing. -/
def Obligations.ResumeSolves : Prop :=
  ∀ s : State, (s.phase = .paused → exec .resume s = .next { s with phase := .solve })
    ∧ (s.phase ≠ .paused → exec .resume s = .next s)

/-- R283: ABORT enters IDLE and clears the error record in every state; where it hits no busy state it changes nothing else,
and in every case it keeps the configuration and the input tables. -/
def Obligations.AbortReturnsToIdle : Prop :=
  ∀ s : State, ∃ t, exec .abort s = .next t ∧ t.phase = .idle ∧ t.errCode = 0#2 ∧ t.errInfo = 0#16 ∧ keepsInputs s t
    ∧ (s.busy = false → t = { s with phase := .idle, errCode := 0, errInfo := 0 })

/-- R340: reset gives the registers the values of R48 and leaves the scratch registers, the input tables, the ROMs and the
stream; it leaves the buffers and the reader's position where it interrupts no busy phase. -/
def Obligations.ResetInputClearsRegisters : Prop :=
  ∀ (s : State) (rest : List HostMove), s.pending = .resetInput :: rest →
    ∃ t, step s = .next t ∧ t.phase = .idle ∧ t.sectPtr = 0 ∧ t.line = 0 ∧ t.win = 0 ∧ t.bidx = 0 ∧ t.bflat = 0 ∧ t.roff = 0
      ∧ t.errCode = 0 ∧ t.errInfo = 0 ∧ t.short = false ∧ t.pauseEn = false ∧ t.ien = false ∧ t.nsect = 0 ∧ t.ngroup = 0
      ∧ t.nsfbs = 0 ∧ t.maxMag = 0 ∧ t.gq = 0 ∧ t.irq = false ∧ keepsScratch s t
      ∧ t.sect = s.sect ∧ t.stop = s.stop ∧ t.glen = s.glen ∧ t.soff = s.soff ∧ t.nb = s.nb ∧ t.btop = s.btop ∧ t.sf = s.sf
      ∧ t.rom = s.rom
      ∧ (s.busy = false → t.qs = s.qs ∧ t.ds = s.ds ∧ t.coef = s.coef ∧ t.qfmt = s.qfmt ∧ t.dp = s.dp)

/-- R48, R341: after reset the registers hold the values of the table and the engine does nothing. -/
def Obligations.ResetValues : Prop :=
  State.reset.phase = .idle ∧ State.reset.sectPtr = 0 ∧ State.reset.line = 0 ∧ State.reset.win = 0 ∧ State.reset.bidx = 0
    ∧ State.reset.bflat = 0 ∧ State.reset.roff = 0 ∧ State.reset.errCode = 0 ∧ State.reset.errInfo = 0
    ∧ State.reset.short = false ∧ State.reset.pauseEn = false ∧ State.reset.ien = false ∧ State.reset.nsect = 0
    ∧ State.reset.ngroup = 0 ∧ State.reset.nsfbs = 0 ∧ State.reset.maxMag = 0 ∧ State.reset.gq = 0
    ∧ State.reset.irq = false ∧ State.reset.busy = false ∧ step State.reset = .next State.reset

/-! Invariants and whole-machine rules. -/

/-- The invariant holds after reset. -/
def Obligations.ResetMeetsInvariant : Prop := State.reset.inv = true

/-- R22, R23, R25, R35, R36, R45, R236: every step keeps the invariant: memories in canonical form, counters in range, an
error code exactly in ERROR, the reader not before its position at START, and in RESCALE a sweep inside its tables. -/
def Obligations.StepKeepsInvariant : Prop := ∀ s t : State, s.inv = true → step s = .next t → t.inv = true

/-- From a state that meets the invariant no step faults: the one fault of the model, the band step's check that `ROFF` is not
negative and `BFLAT` below 512, is never met (log 16; R25, R251). -/
def Obligations.InvariantExcludesFaults : Prop := ∀ (s : State) (f : Fault), s.inv = true → step s ≠ .fault f

/-- R290: `STATE` changes only as the transition table says, each change under its condition. -/
def Obligations.PhaseChangesAreListed : Prop :=
  ∀ s t : State, step s = .next t → t.phase ≠ s.phase →
    (t.phase = .unpack ∧ (s.phase = .idle ∨ s.phase = .done ∨ s.phase = .error) ∧ hostIssues s .start)
    ∨ (s.phase = .unpack ∧ t.phase = .deint ∧ s.nsect.toNat ≤ s.sectPtr.toNat ∧ s.short = true)
    ∨ (s.phase = .unpack ∧ t.phase = .paused ∧ s.nsect.toNat ≤ s.sectPtr.toNat ∧ s.short = false ∧ s.pauseEn = true)
    ∨ (s.phase = .unpack ∧ t.phase = .solve ∧ s.nsect.toNat ≤ s.sectPtr.toNat ∧ s.short = false ∧ s.pauseEn = false)
    ∨ (s.phase = .unpack ∧ t.phase = .error ∧ (t.errCode = 1#2 ∨ (t.errCode = 2#2 ∧ t.errInfo = 0xFFFF#16)))
    ∨ (s.phase = .deint ∧ t.phase = .paused ∧ s.pauseEn = true)
    ∨ (s.phase = .deint ∧ t.phase = .solve ∧ s.pauseEn = false)
    ∨ (s.phase = .paused ∧ t.phase = .solve ∧ hostIssues s .resume)
    ∨ (s.phase = .solve ∧ t.phase = .rescale ∧ s.maxMag.toNat ≤ 8192)
    ∨ (s.phase = .solve ∧ t.phase = .error ∧ t.errCode = 2#2 ∧ 8192 < s.maxMag.toNat)
    ∨ (s.phase = .rescale ∧ t.phase = .done ∧ (if s.short then 8 else 1) ≤ s.win.toNat)
    ∨ (s.phase = .rescale ∧ t.phase = .error ∧ t.errCode = 3#2)
    ∨ (t.phase = .idle ∧ (hostIssues s .abort ∨ hostResets s))

/-- R20, R37, R38, R74, R344: no step writes a ROM; and while the engine is busy no step but reset changes a configuration
register or an input table. -/
def Obligations.InputsAreImmutableWhileBusy : Prop :=
  ∀ s t : State, step s = .next t → t.rom = s.rom ∧ (s.busy = true → ¬ hostResets s → keepsInputs s t)

/-- R22, R23, R29, R45: while the engine stays in UNPACK, `SECT_PTR` moves by at most 1 and never back, `LINE` and `MAX` never
fall, and the reader never moves back over an unchanged stream. -/
def Obligations.UnpackOnlyMovesForward : Prop :=
  ∀ s t : State, s.inv = true → step s = .next t → s.phase = .unpack → t.phase = .unpack →
    (t.sectPtr.toNat = s.sectPtr.toNat ∨ t.sectPtr.toNat = s.sectPtr.toNat + 1) ∧ s.line.toNat ≤ t.line.toNat
    ∧ s.maxMag.toNat ≤ t.maxMag.toNat
    ∧ s.dp.reader.pos ≤ t.dp.reader.pos ∧ t.dp.reader.stream = s.dp.reader.stream

/-- R68, R76: outside UNPACK an engine step that does not enter ERROR leaves the reader and the tuple registers alone. -/
def Obligations.OnlyUnpackReadsBits : Prop :=
  ∀ s t : State, engineMoves s → step s = .next t → s.phase ≠ .unpack → t.phase ≠ .error → t.dp = s.dp

/-- R352: a launch ends: from any busy state that meets the invariant, the engine left alone (whatever entries that let it move
are pending) reaches PAUSED, DONE or ERROR within 652 steps, unless it meets a broken premise P1 to P4. -/
def Obligations.EveryLaunchEnds : Prop :=
  ∀ s : State, s.inv = true → s.busy = true → (∀ m ∈ s.pending, m = .engine ∨ m = .await) →
    ∃ n ≤ 652, (∃ t, runSteps n s = .next t ∧ (t.phase = .paused ∨ t.phase = .done ∨ t.phase = .error))
      ∨ ∃ r, runSteps n s = .refused r ∧ (r = .sectionTable ∨ r = .sectionRange ∨ r = .bandWindow ∨ r = .groupGeometry)
end

