-- ==== Sys2Proof/Laws/Memory.lean ====
section
/-! SUPPORT. Element memories: read after write, and every memory operation keeps the canonical form. -/

namespace Sys2Proof.Machine

theorem cellAt_putCell {w : Nat} (i j : Nat) (v : BitVec w) (cs : List (Nat × BitVec w)) :
    cellAt j (putCell i v cs) = if j = i then some v else cellAt j cs := by
  induction cs with
  | nil => simp [putCell, cellAt, eq_comm]
  | cons c cs ih =>
    unfold putCell
    split
    · simp [cellAt, eq_comm]
    · split
      · rename_i h
        by_cases hj : j = i
        · simp [cellAt, hj]
        · have h1 : ¬ i = j := fun e => hj e.symm
          have h2 : ¬ c.1 = j := by omega
          simp [cellAt, hj, h1, h2]
      · by_cases hc : c.1 = j
        · have : ¬ j = i := by omega
          simp [cellAt, hc, this]
        · simp [cellAt, hc, ih]

theorem cellAt_filter_ne {w : Nat} (i j : Nat) (cs : List (Nat × BitVec w)) :
    cellAt j (cs.filter (fun c => c.1 != i)) = if j = i then none else cellAt j cs := by
  induction cs with
  | nil => simp [cellAt]
  | cons c cs ih =>
    by_cases hc : c.1 = i
    · have hf : (c :: cs).filter (fun c => c.1 != i) = cs.filter (fun c => c.1 != i) := by simp [hc]
      rw [hf, ih]
      by_cases hj : j = i
      · simp [hj]
      · have : ¬ c.1 = j := by omega
        simp [hj, cellAt, this]
    · have hf : (c :: cs).filter (fun c => c.1 != i) = c :: cs.filter (fun c => c.1 != i) := by simp [hc]
      rw [hf, cellAt, ih, cellAt]
      by_cases hcj : c.1 = j
      · have : ¬ j = i := by omega
        simp [hcj, this]
      · simp [hcj]

@[simp] theorem Mem.lost_write {w : Nat} (m : Mem w) (i : Nat) (v : BitVec w) : (m.write i v).lost = m.lost := by
  unfold Mem.write; split <;> rfl

@[simp] theorem Mem.unlisted_write {w : Nat} (m : Mem w) (i j : Nat) (v : BitVec w) :
    (m.write i v).unlisted j = m.unlisted j := by simp [Mem.unlisted]

/-- Read after write, at the same and at any other index. -/
theorem Mem.read_write {w : Nat} (m : Mem w) (i j : Nat) (v : BitVec w) :
    (m.write i v).read j = if j = i then v else m.read j := by
  by_cases hz : m.lost = none ∧ v = 0#w
  · have hw : m.write i v = { m with cells := m.cells.filter (fun c => c.1 != i) } := by
      rw [Mem.write, if_pos hz]
    have hu : ∀ k, (m.write i v).unlisted k = m.unlisted k := fun k => m.unlisted_write i k v
    by_cases hj : j = i
    · have h0 : m.unlisted j = v := by simp [Mem.unlisted, hz.1, hz.2]
      rw [Mem.read, hu, hw]; simp [cellAt_filter_ne, hj]; rw [← hj, h0]
    · rw [Mem.read, hu, hw]; simp [cellAt_filter_ne, hj, Mem.read]
  · have hw : m.write i v = { m with cells := putCell i v m.cells } := by rw [Mem.write, if_neg hz]
    by_cases hj : j = i
    · rw [Mem.read, Mem.unlisted_write, hw]; simp [cellAt_putCell, hj]
    · rw [Mem.read, Mem.unlisted_write, hw]; simp [cellAt_putCell, hj, Mem.read]

@[simp] theorem Mem.read_empty (w i : Nat) : (Mem.empty w).read i = 0#w := rfl

theorem rising_putCell {w : Nat} (n i : Nat) (v : BitVec w) (hi : i < n) (cs : List (Nat × BitVec w)) :
    ∀ lo, rising n lo cs = true → lo ≤ i → rising n lo (putCell i v cs) = true := by
  induction cs with
  | nil => intro lo _ hlo; simp [putCell, rising, hlo, hi]
  | cons c cs ih =>
    intro lo h hlo
    simp only [rising, Bool.and_eq_true, decide_eq_true_eq] at h
    unfold putCell
    split
    · simp [rising, hlo, hi, h.1.2, h.2]; omega
    · split
      · simp only [rising, Bool.and_eq_true, decide_eq_true_eq]
        refine ⟨⟨hlo, hi⟩, ?_⟩
        rename_i heq; rw [heq]; exact h.2
      · simp only [rising, Bool.and_eq_true, decide_eq_true_eq]
        exact ⟨h.1, ih _ h.2 (by omega)⟩

theorem rising_weaken {w : Nat} (n : Nat) (cs : List (Nat × BitVec w)) :
    ∀ lo lo', lo' ≤ lo → rising n lo cs = true → rising n lo' cs = true := by
  cases cs with
  | nil => intros; rfl
  | cons c cs =>
    intro lo lo' hle h
    simp only [rising, Bool.and_eq_true, decide_eq_true_eq] at h ⊢
    exact ⟨⟨by omega, h.1.2⟩, h.2⟩

theorem rising_filter {w : Nat} (n : Nat) (p : Nat × BitVec w → Bool) (cs : List (Nat × BitVec w)) :
    ∀ lo, rising n lo cs = true → rising n lo (cs.filter p) = true := by
  induction cs with
  | nil => intro lo h; exact h
  | cons c cs ih =>
    intro lo h
    simp only [rising, Bool.and_eq_true, decide_eq_true_eq] at h
    by_cases hp : p c = true
    · simp only [List.filter_cons, hp, if_true, rising, Bool.and_eq_true, decide_eq_true_eq]
      exact ⟨h.1, ih _ h.2⟩
    · simp only [List.filter_cons, hp]
      exact rising_weaken n _ (c.1 + 1) lo (by omega) (ih _ h.2)

theorem mem_putCell {w : Nat} (i : Nat) (v : BitVec w) (cs : List (Nat × BitVec w)) :
    ∀ c ∈ putCell i v cs, c = (i, v) ∨ c ∈ cs := by
  induction cs with
  | nil => simp [putCell]
  | cons d cs ih =>
    intro c hc
    unfold putCell at hc
    split at hc
    · simpa using hc
    · split at hc
      · rcases List.mem_cons.1 hc with h | h
        · exact .inl h
        · exact .inr (List.mem_cons_of_mem _ h)
      · rcases List.mem_cons.1 hc with h | h
        · exact .inr (by simp [h])
        · rcases ih c h with h | h
          · exact .inl h
          · exact .inr (List.mem_cons_of_mem _ h)

/-- A write inside the space keeps the canonical form. -/
theorem Mem.wf_write {w n : Nat} {m : Mem w} {i : Nat} (v : BitVec w) (hm : m.wf n = true) (hi : i < n) :
    (m.write i v).wf n = true := by
  simp only [Mem.wf, Bool.and_eq_true] at hm ⊢
  unfold Mem.write
  split
  · refine ⟨rising_filter n _ _ 0 hm.1, ?_⟩
    rcases Bool.or_eq_true .. ▸ hm.2 with h | h
    · simp [h]
    · refine Bool.or_eq_true .. ▸ .inr (List.all_eq_true.2 fun c hc => ?_)
      exact List.all_eq_true.1 h c (List.mem_filter.1 hc).1
  · rename_i hz
    refine ⟨rising_putCell n i v hi _ 0 hm.1 (Nat.zero_le _), ?_⟩
    rcases Bool.or_eq_true .. ▸ hm.2 with h | h
    · simp [h]
    · cases hl : m.lost with
      | some k => simp
      | none =>
        refine Bool.or_eq_true .. ▸ .inr (List.all_eq_true.2 fun c hc => ?_)
        rcases mem_putCell i v _ c hc with rfl | hc
        · have hv : v ≠ 0#w := fun hv => hz ⟨hl, hv⟩
          simpa using hv
        · exact List.all_eq_true.1 h c hc

@[simp] theorem Mem.wf_empty (w n : Nat) : (Mem.empty w).wf n = true := rfl

@[simp] theorem Mem.wf_unspecified (w k n : Nat) : (Mem.unspecified w k).wf n = true := rfl

/-! Runs of writes. -/

theorem read_zeroRun {w : Nat} (j : Nat) : ∀ (n i : Nat) (m : Mem w),
    (zeroRun n i m).read j = if i ≤ j ∧ j < i + n then 0#w else m.read j := by
  intro n
  induction n with
  | zero => intro i m; simp [zeroRun]
  | succ n ih =>
    intro i m
    rw [zeroRun, ih, Mem.read_write]
    by_cases h1 : i + 1 ≤ j ∧ j < i + 1 + n
    · rw [if_pos h1, if_pos (by omega)]
    · rw [if_neg h1]
      by_cases h2 : j = i
      · rw [if_pos h2, if_pos (by omega)]; rfl
      · rw [if_neg h2, if_neg (by omega)]

theorem wf_zeroRun {w k : Nat} : ∀ (n i : Nat) (m : Mem w), m.wf k = true → i + n ≤ k →
    (zeroRun n i m).wf k = true := by
  intro n
  induction n with
  | zero => intro i m h _; exact h
  | succ n ih => intro i m h hk; exact ih _ _ (Mem.wf_write _ h (by omega)) (by omega)

theorem read_storeRun {w : Nat} (j : Nat) : ∀ (vals : List Int) (i : Nat) (m : Mem w),
    (storeRun vals i m).read j =
      if i ≤ j ∧ j < i + vals.length then BitVec.ofInt w (vals.getD (j - i) 0) else m.read j := by
  intro vals
  induction vals with
  | nil => intro i m; simp [storeRun]
  | cons v vs ih =>
    intro i m
    rw [storeRun, ih, Mem.read_write]
    by_cases h1 : i + 1 ≤ j ∧ j < i + 1 + vs.length
    · rw [if_pos h1, if_pos (by simp only [List.length_cons]; omega)]
      obtain ⟨d, rfl⟩ : ∃ d, j = i + 1 + d := ⟨j - (i + 1), by omega⟩
      have e1 : i + 1 + d - (i + 1) = d := by omega
      have e2 : i + 1 + d - i = d + 1 := by omega
      rw [e1, e2]; rfl
    · rw [if_neg h1]
      by_cases h2 : j = i
      · subst h2; simp
      · rw [if_neg h2, if_neg (by simp only [List.length_cons]; omega)]

theorem wf_storeRun {w k : Nat} : ∀ (vals : List Int) (i : Nat) (m : Mem w), m.wf k = true → i + vals.length ≤ k →
    (storeRun vals i m).wf k = true := by
  intro vals
  induction vals with
  | nil => intro i m h _; exact h
  | cons v vs ih =>
    intro i m h hk
    simp only [List.length_cons] at hk
    exact ih _ _ (Mem.wf_write _ h (by omega)) (by omega)

theorem wf_copyRun (k : Nat) (qs : Mem 16) : ∀ (ts : List Nat) (src : Nat) (ds : Mem 16), ds.wf k = true →
    (∀ t ∈ ts, t < k) → (copyRun qs ts src ds).wf k = true := by
  intro ts
  induction ts with
  | nil => intro src ds h _; exact h
  | cons t ts ih =>
    intro src ds h ht
    exact ih _ _ (Mem.wf_write _ h (ht t (by simp))) fun u hu => ht u (List.mem_cons_of_mem _ hu)

/-- A target that is not written again reads as before. -/
theorem read_copyRun_of_not_mem (qs : Mem 16) (j : Nat) : ∀ (ts : List Nat) (src : Nat) (ds : Mem 16), j ∉ ts →
    (copyRun qs ts src ds).read j = ds.read j := by
  intro ts
  induction ts with
  | nil => intro src ds _; rfl
  | cons t ts ih =>
    intro src ds h
    simp only [List.mem_cons, not_or] at h
    rw [copyRun, ih _ _ h.2, Mem.read_write, if_neg h.1]

/-- The `k`-th of pairwise distinct targets reads the `k`-th source. -/
theorem read_copyRun (qs : Mem 16) : ∀ (ts : List Nat) (src k : Nat) (ds : Mem 16), ts.Nodup → (h : k < ts.length) →
    (copyRun qs ts src ds).read ts[k] = qs.read (src + k) := by
  intro ts
  induction ts with
  | nil => intro src k ds _ h; exact absurd h (Nat.not_lt_zero _)
  | cons t ts ih =>
    intro src k ds hn h
    obtain ⟨ht, hn⟩ := List.nodup_cons.1 hn
    cases k with
    | zero => simp only [List.getElem_cons_zero, copyRun]; rw [read_copyRun_of_not_mem _ _ _ _ _ ht, Mem.read_write]; simp
    | succ k =>
      simp only [List.getElem_cons_succ, copyRun]
      rw [ih _ _ _ hn (by simpa using h)]
      congr 1; omega

/-- The lines of a band: every line gets its coefficient under some draw, the other lines read as before. -/
theorem read_coefRun (s : State) (fi j : Nat) : ∀ (n ln : Nat) (c : Mem 32) (d : Nat),
    (¬ (ln ≤ j ∧ j < ln + n) → (coefRun s fi n ln c d).1.read j = c.read j) ∧
    (ln ≤ j ∧ j < ln + n → ∃ d', (coefRun s fi n ln c d).1.read j = (coefficient s fi j d').1) := by
  intro n
  induction n with
  | zero => intro ln c d; exact ⟨fun _ => rfl, fun h => absurd h (by omega)⟩
  | succ n ih =>
    intro ln c d
    have hrec := ih (ln + 1) (c.write ln (coefficient s fi ln d).1) (coefficient s fi ln d).2
    refine ⟨fun h => ?_, fun h => ?_⟩
    · rw [coefRun, hrec.1 (by omega), Mem.read_write, if_neg (by omega)]
    · by_cases hj : j = ln
      · refine ⟨d, ?_⟩
        rw [coefRun, hrec.1 (by omega), Mem.read_write, if_pos hj, hj]
      · rw [coefRun]; exact hrec.2 (by omega)

theorem wf_coefRun (s : State) (fi k : Nat) : ∀ (n ln : Nat) (c : Mem 32) (d : Nat), c.wf k = true → ln + n ≤ k →
    (coefRun s fi n ln c d).1.wf k = true := by
  intro n
  induction n with
  | zero => intro ln c d h _; exact h
  | succ n ih => intro ln c d h hk; exact ih _ _ _ (Mem.wf_write _ h (by omega)) (by omega)

end Sys2Proof.Machine
end

