-- ==== Sys2Proof/Laws/Deinterleave.lean ====
section
/-! SUPPORT. The deinterleaver writes inside `DS` and keeps its canonical form (spec R212, R346 P4). -/

namespace Sys2Proof.Machine

theorem windowBase_succ (s : State) (g : Nat) : s.windowBase (g + 1) = s.windowBase g + s.glenAt g := by
  simp [State.windowBase, List.range_succ]

theorem windowBase_mono (s : State) {g h : Nat} (hgh : g ≤ h) : s.windowBase g ≤ s.windowBase h := by
  induction h, hgh using Nat.le_induction with
  | base => exact le_refl _
  | succ h _ ih => rw [windowBase_succ]; omega

/-- Offsets that do not fall stay below their last one. -/
theorem soffAt_mono (s : State) {n : Nat} (h : ∀ i < n, s.soffAt i ≤ s.soffAt (i + 1)) : ∀ k i, i + k = n → s.soffAt i ≤ s.soffAt n
  | 0, i, hi => by rw [show i = n by omega]
  | k + 1, i, hi => le_trans (h i (by omega)) (soffAt_mono s h k (i + 1) (by omega))

/-- Premise P4 in the terms a proof uses (R346). -/
theorem geometryOk_bounds {s : State} (h : geometryOk s = true) :
    s.windowBase s.ngroup.toNat = 8 ∧ (∀ i < s.nsfbs.toNat, s.soffAt i ≤ s.soffAt (i + 1)) ∧ s.soffAt s.nsfbs.toNat ≤ 128 := by
  simp only [geometryOk, Bool.and_eq_true, decide_eq_true_eq, List.all_eq_true, List.mem_range, beq_iff_eq] at h
  exact ⟨h.1.1.1.1.1.2, h.1.1.2, h.1.2⟩

/-- The number of coded bands (R213). -/
theorem codedSpans_length (s : State) : s.codedSpans.length = s.ngroup.toNat * s.nsfbs.toNat := by
  simp [State.codedSpans, List.length_flatMap]

theorem sum_flatMap (f : Nat → List Nat) : ∀ l : List Nat, (l.flatMap f).sum = (l.map fun h => (f h).sum).sum
  | [] => rfl
  | a :: l => by simp [sum_flatMap f l]

/-- Lists of `n` elements joined and cut inside the one at `g`. -/
theorem take_flatMap_range {f : Nat → List Nat} {n : Nat} (hf : ∀ g, (f g).length = n) :
    ∀ (m g i : Nat), g < m → i ≤ n →
      (((List.range m).flatMap f).take (g * n + i)).sum = ((List.range g).map fun h => (f h).sum).sum + ((f g).take i).sum
  | 0, g, i, hg, _ => absurd hg (Nat.not_lt_zero _)
  | m + 1, g, i, hg, hi => by
    have hlen : ((List.range m).flatMap f).length = m * n := by simp [List.length_flatMap, hf]
    rw [List.range_succ, List.flatMap_append]
    rcases Nat.lt_succ_iff_lt_or_eq.1 hg with h | rfl
    · have hle : g * n + i ≤ m * n := by
        calc g * n + i ≤ g * n + n := by omega
          _ = (g + 1) * n := by ring
          _ ≤ m * n := Nat.mul_le_mul_right n h
      rw [List.take_append_of_le_length (by omega)]
      exact take_flatMap_range hf m g i h hi
    · rw [List.take_append, List.take_of_length_le (by omega), hlen, Nat.add_sub_cancel_left, List.sum_append]
      simp [sum_flatMap]

/-- The spans of the first `i` bands of one group add up to `SOFF[i]` times the group's length, for offsets from 0 that do not
fall. -/
theorem spans_sum (s : State) (g : Nat) (h0 : s.soffAt 0 = 0) :
    ∀ (i : Nat), (∀ j < i, s.soffAt j ≤ s.soffAt (j + 1)) →
      ((List.range i).map fun j => s.shortWidth j * s.glenAt g).sum = s.soffAt i * s.glenAt g
  | 0, _ => by simp [h0]
  | i + 1, h => by
    rw [List.range_succ, List.map_append, List.sum_append, spans_sum s g h0 i fun j hj => h j (by omega)]
    have := h i (by omega)
    unfold State.shortWidth
    simp only [List.map_cons, List.map_nil, List.sum_cons, List.sum_nil, Nat.add_zero]
    rw [← Nat.add_mul]
    congr 1
    omega

/-- The sum P4 words, closed: the spans up to and including band `i` of group `g` (R213, R346). -/
theorem codedSpans_take_sum (s : State) (h0 : s.soffAt 0 = 0) (hm : ∀ i < s.nsfbs.toNat, s.soffAt i ≤ s.soffAt (i + 1))
    {g i : Nat} (hg : g < s.ngroup.toNat) (hi : i < s.nsfbs.toNat) :
    (s.codedSpans.take (g * s.nsfbs.toNat + i + 1)).sum
      = s.windowBase g * s.soffAt s.nsfbs.toNat + s.soffAt (i + 1) * s.glenAt g := by
  unfold State.codedSpans
  rw [Nat.add_assoc, take_flatMap_range (n := s.nsfbs.toNat) (by simp) _ g (i + 1) hg (by omega), List.map_take.symm,
    List.take_range, Nat.min_eq_left (by omega), spans_sum s g h0 (i + 1) fun j hj => hm j (by omega)]
  congr 1
  simp only [spans_sum s _ h0 s.nsfbs.toNat hm]
  unfold State.windowBase
  rw [← List.sum_map_mul_right]
  simp [Nat.mul_comm]

/-- Every place the loops write is the line of a coded band of one of the eight windows (R212). -/
theorem deintTargets_coded {s : State} (h : geometryOk s = true) :
    ∀ t ∈ s.deintTargets, t < 1024 ∧ t % 128 < s.soffAt s.nsfbs.toNat := by
  obtain ⟨h8, hm, h128⟩ := geometryOk_bounds h
  intro t ht
  simp only [State.deintTargets, List.mem_flatMap, List.mem_range, List.mem_map] at ht
  obtain ⟨g, hg, i, hi, w, hw, l, hl, rfl⟩ := ht
  have hb := windowBase_mono s (Nat.succ_le_of_lt hg)
  rw [Nat.succ_eq_add_one, windowBase_succ, h8] at hb
  have hs := soffAt_mono s hm (s.nsfbs.toNat - (i + 1)) (i + 1) (by omega)
  unfold State.shortWidth at hl
  constructor
  · omega
  · rw [show (s.windowBase g + w) * 128 + s.soffAt i + l = s.soffAt i + l + 128 * (s.windowBase g + w) by ring,
      Nat.add_mul_mod_self_left, Nat.mod_eq_of_lt (by omega)]
    omega

theorem deint_wf {s : State} (h : geometryOk s = true) (hd : s.ds.wf 1024 = true) :
    (copyRun s.qs s.deintTargets 0 s.ds).wf 1024 = true :=
  wf_copyRun _ _ _ _ _ hd fun t ht => (deintTargets_coded h t ht).1

end Sys2Proof.Machine
end

