-- ==== Sys2Proof/Laws/Operands.lean ====
section
/-! SUPPORT. What each reader of the bit stream and each unpacking step can do, said once. -/

namespace Sys2Proof.Machine

/-! The reader only moves forward over an unchanged stream. -/

/-- `r'` is `r` moved forward: same stream, no position or draw taken back (R45, R66). -/
def Reader.Ahead (r r' : Reader) : Prop := r'.stream = r.stream ∧ r.pos ≤ r'.pos ∧ r.past ≤ r'.past

theorem Reader.Ahead.rfl' (r : Reader) : r.Ahead r := ⟨rfl, le_refl _, le_refl _⟩

theorem Reader.Ahead.trans' {a b c : Reader} (h1 : a.Ahead b) (h2 : b.Ahead c) : a.Ahead c :=
  ⟨h2.1.trans h1.1, le_trans h1.2.1 h2.2.1, le_trans h1.2.2 h2.2.2⟩

@[simp] theorem Reader.bit_pos (r : Reader) : r.bit.2.pos = r.pos + 1 := by unfold Reader.bit; split <;> rfl

@[simp] theorem Reader.bit_stream (r : Reader) : r.bit.2.stream = r.stream := by unfold Reader.bit; split <;> rfl

theorem Reader.bit_ahead (r : Reader) : r.Ahead r.bit.2 := by
  refine ⟨by simp, by simp, ?_⟩
  unfold Reader.bit; split <;> simp

/-- A supplied bit is read as it stands in the stream (R66). -/
theorem Reader.bit_supplied (pre post : List Bool) (b : Bool) (past : Nat) :
    Reader.bit ⟨pre ++ b :: post, pre.length, past⟩ = (b, ⟨pre ++ b :: post, pre.length + 1, past⟩) := by
  simp [Reader.bit]

theorem Reader.bitsFrom_ahead : ∀ (n v : Nat) (r : Reader), r.Ahead (r.bitsFrom v n).2
  | 0, _, r => .rfl' r
  | n + 1, _, r => (Reader.bit_ahead r).trans' (Reader.bitsFrom_ahead n _ _)

@[simp] theorem Reader.bitsFrom_pos : ∀ (n v : Nat) (r : Reader), (r.bitsFrom v n).2.pos = r.pos + n
  | 0, _, _ => rfl
  | n + 1, v, r => by rw [Reader.bitsFrom, Reader.bitsFrom_pos]; simp; omega

/-- `n` bits after `v` give a value below `(v + 1) * 2^n`. -/
theorem Reader.bitsFrom_lt : ∀ (n v : Nat) (r : Reader), (r.bitsFrom v n).1 < (v + 1) * 2 ^ n
  | 0, v, _ => by simp [Reader.bitsFrom]
  | n + 1, v, r => by
    rw [Reader.bitsFrom]
    have h := Reader.bitsFrom_lt n (2 * v + r.bit.1.toNat) r.bit.2
    have hb : r.bit.1.toNat ≤ 1 := Bool.toNat_le _
    calc _ < _ := h
      _ ≤ (2 * v + 1 + 1) * 2 ^ n := Nat.mul_le_mul_right _ (by omega)
      _ = (v + 1) * 2 ^ (n + 1) := by rw [pow_succ]; ring

theorem Reader.bits_lt (n : Nat) (r : Reader) : (r.bits n).1 < 2 ^ n := by
  simpa [Reader.bits] using Reader.bitsFrom_lt n 0 r

theorem Reader.bits_ahead (n : Nat) (r : Reader) : r.Ahead (r.bits n).2 := Reader.bitsFrom_ahead n 0 r

theorem walk_ahead : ∀ (t : CodeTree) (r : Reader), r.Ahead (t.walk r).2
  | .leaf _, r => .rfl' r
  | .node z o, r => by
    unfold CodeTree.walk
    split
    · exact (Reader.bit_ahead r).trans' (walk_ahead o _)
    · exact (Reader.bit_ahead r).trans' (walk_ahead z _)

/-- A walk reads at most `depth` bits, and at least one from an inner node. -/
theorem walk_length : ∀ (t : CodeTree) (r : Reader), (t.walk r).2.pos ≤ r.pos + t.depth
  | .leaf _, _ => le_refl _
  | .node z o, r => by
    unfold CodeTree.walk CodeTree.depth
    have hz := walk_length z r.bit.2
    have ho := walk_length o r.bit.2
    have h1 := Nat.le_max_left z.depth o.depth
    have h2 := Nat.le_max_right z.depth o.depth
    simp only [Reader.bit_pos] at hz ho
    split <;> (simp only [Nat.max_def] at *; omega)

theorem walk_nonempty (t : CodeTree) (r : Reader) (h : t.isNode = true) : r.pos + 1 ≤ (t.walk r).2.pos := by
  cases t with
  | leaf _ => simp [CodeTree.isNode] at h
  | node z o =>
    unfold CodeTree.walk
    have hz := (walk_ahead z r.bit.2).2.1
    have ho := (walk_ahead o r.bit.2).2.1
    simp only [Reader.bit_pos] at hz ho
    split <;> assumption

/-- A walk of a tree with leaves below `n` ends below `n`. -/
theorem walk_lt (n : Nat) : ∀ (t : CodeTree) (r : Reader), t.leavesBelow n = true → (t.walk r).1.toNat < n
  | .leaf i, _, h => by simpa [CodeTree.leavesBelow, CodeTree.walk] using h
  | .node z o, r, h => by
    simp only [CodeTree.leavesBelow, Bool.and_eq_true] at h
    unfold CodeTree.walk
    split
    · exact walk_lt n o _ h.2
    · exact walk_lt n z _ h.1

/-! Digits. -/

@[simp] theorem digits_length (b : CodeBook) (idx : Nat) : (digits b idx).length = b.dim.count := by
  unfold digits; cases b.dim <;> rfl

/-- Every digit lies in `-offset .. modulus - 1 - offset` (R181). -/
theorem digits_range (b : CodeBook) (idx : Nat) (h : idx < b.indexBound) :
    ∀ d ∈ digits b idx, -(b.offset : Int) ≤ d ∧ d < (b.modulus : Int) - b.offset := by
  have hm : 0 < b.modulus := by
    rcases Nat.eq_zero_or_pos b.modulus with h0 | h0
    · rw [CodeBook.indexBound, h0] at h; cases hd : b.dim <;> simp [hd, Dim.count] at h
    · exact h0
  have key : ∀ x : Nat, x < b.modulus → -(b.offset : Int) ≤ (x : Int) - b.offset ∧
      (x : Int) - b.offset < (b.modulus : Int) - b.offset := fun x hx => by omega
  unfold digits
  cases hd : b.dim with
  | pair =>
    have h' : idx < b.modulus * b.modulus := by simpa [CodeBook.indexBound, hd, Dim.count, pow_two] using h
    simp only [List.mem_cons, List.not_mem_nil, or_false]
    rintro d (rfl | rfl)
    · exact key _ (Nat.div_lt_of_lt_mul h')
    · exact key _ (Nat.mod_lt _ hm)
  | quad =>
    have h' : idx < b.modulus ^ 3 * b.modulus := by
      have : idx < b.modulus ^ 4 := by simpa [CodeBook.indexBound, hd, Dim.count] using h
      calc idx < _ := this
        _ = _ := by ring
    have p3 : 0 < b.modulus ^ 3 := Nat.pow_pos hm
    have p2 : 0 < b.modulus ^ 2 := Nat.pow_pos hm
    simp only [List.mem_cons, List.not_mem_nil, or_false]
    rintro d (rfl | rfl | rfl | rfl)
    · exact key _ (Nat.div_lt_of_lt_mul h')
    · refine key _ (Nat.div_lt_of_lt_mul ?_)
      calc idx % b.modulus ^ 3 < b.modulus ^ 3 := Nat.mod_lt _ p3
        _ = _ := by ring
    · refine key _ (Nat.div_lt_of_lt_mul ?_)
      calc idx % b.modulus ^ 3 % b.modulus ^ 2 < b.modulus ^ 2 := Nat.mod_lt _ p2
        _ = _ := by ring
    · exact key _ (Nat.mod_lt _ hm)

/-! Signs. -/

@[simp] theorem signs_length : ∀ (ds : List Int) (r : Reader), (signs ds r).1.length = ds.length
  | [], _ => rfl
  | d :: ds, r => by unfold signs; split <;> simp [signs_length ds]

theorem signs_ahead : ∀ (ds : List Int) (r : Reader), r.Ahead (signs ds r).2
  | [], r => .rfl' r
  | d :: ds, r => by
    unfold signs
    split
    · exact signs_ahead ds r
    · exact (Reader.bit_ahead r).trans' (signs_ahead ds _)

/-- Signs change no magnitude. -/
theorem signs_natAbs : ∀ (ds : List Int) (r : Reader), (signs ds r).1.map Int.natAbs = ds.map Int.natAbs
  | [], _ => rfl
  | d :: ds, r => by
    unfold signs
    split
    · simp [signs_natAbs ds]
    · simp only [List.map_cons, signs_natAbs ds]
      split <;> simp

/-- Each nonzero digit reads one bit, a zero digit none (R191). -/
theorem signs_pos : ∀ (ds : List Int) (r : Reader),
    (signs ds r).2.pos = r.pos + ds.countP (fun d => d != 0)
  | [], _ => rfl
  | d :: ds, r => by
    unfold signs
    split
    · rename_i h; simp [h, signs_pos ds]
    · rename_i h; simp [h, signs_pos ds]; omega

/-! Escapes. -/

theorem escapeRun_ahead : ∀ (k n : Nat) (r : Reader), r.Ahead (escapeRun k n r).2
  | 0, _, r => Reader.bit_ahead r
  | k + 1, n, r => by
    unfold escapeRun
    split
    · exact (Reader.bit_ahead r).trans' (escapeRun_ahead k _ _)
    · exact Reader.bit_ahead r

theorem escapeRun_range : ∀ (k n : Nat) (r : Reader) (m : Nat), (escapeRun k n r).1 = some m → n ≤ m ∧ m ≤ n + k
  | 0, n, r, m, h => by
    unfold escapeRun at h
    split at h <;> simp at h; omega
  | k + 1, n, r, m, h => by
    unfold escapeRun at h
    split at h
    · have := escapeRun_range k (n + 1) _ m h; omega
    · simp at h; omega

theorem expand_ahead (d : Int) (e : EscRegs) (r : Reader) : r.Ahead (expand d e r).reader := by
  unfold expand
  dsimp only
  split
  · exact escapeRun_ahead _ _ r
  · exact (escapeRun_ahead _ _ r).trans' (Reader.bits_ahead _ _)

/-- A sentinel expands to a magnitude in 16..16383 (R188, R189). -/
theorem expand_natAbs (d : Int) (e : EscRegs) (r : Reader) (v : Int) (hd : d.natAbs = 16)
    (h : (expand d e r).value = some v) : 16 ≤ v.natAbs ∧ v.natAbs ≤ 16383 := by
  unfold expand at h
  dsimp only at h
  split at h
  · simp at h
  · rename_i n hn
    have hr := escapeRun_range _ _ _ _ hn
    simp only [Config.escNMax, Config.escN0] at hr
    simp only [Option.some.injEq] at h
    have hl := Reader.bits_lt n (escapeRun (Config.escNMax - Config.escN0) Config.escN0 r).2
    generalize (Reader.bits n (escapeRun (Config.escNMax - Config.escN0) Config.escN0 r).2).1 = l at *
    have h4 : 2 ^ 4 ≤ 2 ^ n := Nat.pow_le_pow_right (by omega) (by omega)
    have h13 : 2 ^ n ≤ 2 ^ 13 := Nat.pow_le_pow_right (by omega) (by omega)
    generalize 2 ^ n = q at *
    rw [Int.shiftRight_eq_div_pow] at h
    have hd' : d = 16 ∨ d = -16 := by omega
    rcases hd' with rfl | rfl <;> (subst h; norm_num at *; omega)

theorem escapes_length : ∀ (ds : List Int) (e : EscRegs) (r : Reader), (escapes ds e r).vals.length = ds.length
  | [], _, _ => rfl
  | d :: ds, e, r => by
    unfold escapes
    dsimp only
    split
    · split
      · rfl
      · simp [escapes_length ds]
    · simp [escapes_length ds]

theorem escapes_ahead : ∀ (ds : List Int) (e : EscRegs) (r : Reader), r.Ahead (escapes ds e r).reader
  | [], _, r => .rfl' r
  | d :: ds, e, r => by
    unfold escapes
    dsimp only
    split
    · split
      · exact expand_ahead d e r
      · exact (expand_ahead d e r).trans' (escapes_ahead ds _ _)
    · exact escapes_ahead ds e r

/-- On the digits of the escape codebook the sentinel test is magnitude 16 (R186). -/
theorem isSentinel_iff (d : Int) (h : d.natAbs ≤ 16) : isSentinel d = true ↔ d.natAbs = 16 := by
  have : ∀ k : Fin 33, isSentinel ((k : Int) - 16) = true ↔ ((k : Int) - 16).natAbs = 16 := by decide
  have hk := this ⟨(d + 16).toNat, by omega⟩
  have e : (((d + 16).toNat : Nat) : Int) - 16 = d := by omega
  simpa only [e] using hk

theorem escapes_natAbs : ∀ (ds : List Int) (e : EscRegs) (r : Reader), (∀ d ∈ ds, d.natAbs ≤ 16) →
    ∀ v ∈ (escapes ds e r).vals, v.natAbs ≤ 16383
  | [], _, _, _ => by simp [escapes]
  | d :: ds, e, r, h => by
    have hd := h d (by simp)
    have hds : ∀ x ∈ ds, x.natAbs ≤ 16 := fun x hx => h x (List.mem_cons_of_mem _ hx)
    unfold escapes
    dsimp only
    split
    · rename_i hs
      split
      · intro v hv
        have := h v hv; omega
      · rename_i v hv
        intro u hu
        rcases List.mem_cons.1 hu with rfl | hu
        · exact (expand_natAbs d e r _ ((isSentinel_iff d hd).1 hs) hv).2
        · exact escapes_natAbs ds _ _ hds u hu
    · intro u hu
      rcases List.mem_cons.1 hu with rfl | hu
      · omega
      · exact escapes_natAbs ds _ _ hds u hu

/-! One tuple. -/

@[simp] theorem Datapath.setDig_reader (d : Datapath) (vs : List Int) : (d.setDig vs).reader = d.reader := by
  unfold Datapath.setDig; split <;> rfl

theorem unpack_ahead (rule : UnpackRule) (b : CodeBook) (idx : Nat) (d : Datapath) :
    d.reader.Ahead (unpack rule b idx d).dp.reader := by
  cases rule with
  | plain => simpa [unpack] using Reader.Ahead.rfl' d.reader
  | explicitSign => simpa [unpack] using signs_ahead (digits b idx) d.reader
  | escape => simpa [unpack] using (signs_ahead (digits b idx) d.reader).trans' (escapes_ahead _ _ _)

theorem unpack_length (rule : UnpackRule) (b : CodeBook) (idx : Nat) (d : Datapath) :
    (unpack rule b idx d).vals.length = b.dim.count := by
  cases rule <;> simp [unpack, escapes_length]

theorem unpack_outcome (rule : UnpackRule) (b : CodeBook) (idx : Nat) (d : Datapath) :
    (unpack rule b idx d).outcome = .complete ∨ (unpack rule b idx d).outcome = .overrun ∧ rule = .escape := by
  cases rule with
  | plain => exact .inl rfl
  | explicitSign => exact .inl rfl
  | escape => unfold unpack; dsimp only; split <;> simp

theorem CodeBook.wf_modulus {k cb : Nat} {b : CodeBook} (h : b.wf k cb = true) : 2 ≤ b.modulus ∧ b.modulus ≤ 512 := by
  simp only [CodeBook.wf, Bool.and_eq_true, decide_eq_true_eq] at h
  obtain ⟨⟨⟨⟨⟨_, h2⟩, h512⟩, _⟩, _⟩, _⟩ := h
  refine ⟨h2, le_trans ?_ h512⟩
  unfold CodeBook.indexBound
  cases b.dim
  · exact Nat.le_self_pow (by simp [Dim.count]) _
  · exact Nat.le_self_pow (by simp [Dim.count]) _

theorem CodeBook.wf_offset {k cb : Nat} {b : CodeBook} (h : b.wf k cb = true) : b.offset < b.modulus := by
  simp only [CodeBook.wf, Bool.and_eq_true, decide_eq_true_eq] at h
  exact h.1.1.2

/-- The escape codebook is (2, unsigned, 0, 17) (R40). -/
theorem CodeBook.wf_escape {k : Nat} {b : CodeBook} (h : b.wf k 11 = true) :
    b.dim = .pair ∧ b.signed = false ∧ b.offset = 0 ∧ b.modulus = 17 := by
  simp [CodeBook.wf, Config.escCb] at h
  obtain ⟨⟨⟨⟨_, _⟩, _⟩, h1⟩, ⟨h2, h3⟩, h4⟩ := h
  exact ⟨h2, h3, by simpa [h3] using h1, h4⟩

theorem digits_natAbs {k cb : Nat} {b : CodeBook} (hb : b.wf k cb = true) (idx : Nat) (h : idx < b.indexBound) :
    ∀ d ∈ digits b idx, d.natAbs < b.modulus := by
  intro d hd
  have := digits_range b idx h d hd
  have := CodeBook.wf_offset hb
  omega

theorem unpack_natAbs {k cb : Nat} {b : CodeBook} (hb : b.wf k cb = true) (idx : Nat) (h : idx < b.indexBound)
    (d : Datapath) : ∀ v ∈ (unpack (unpackRule cb b) b idx d).vals, v.natAbs ≤ 16383 := by
  have hm := (CodeBook.wf_modulus hb).2
  have hds := digits_natAbs hb idx h
  have hsg : ∀ (r : Reader), ∀ v ∈ (signs (digits b idx) r).1, v.natAbs < b.modulus := by
    intro r v hv
    have : v.natAbs ∈ (digits b idx).map Int.natAbs := by
      rw [← signs_natAbs _ r]; exact List.mem_map_of_mem hv
    obtain ⟨u, hu, huv⟩ := List.mem_map.1 this
    have := hds u hu; omega
  cases hr : unpackRule cb b with
  | plain => intro v hv; have := hds v (by simpa [unpack] using hv); omega
  | explicitSign => intro v hv; have := hsg _ v (by simpa [unpack] using hv); omega
  | escape =>
    have hcb : cb = 11 := by
      unfold unpackRule Config.escCb at hr
      split at hr
      · assumption
      · split at hr <;> simp at hr
    subst hcb
    have h17 := (CodeBook.wf_escape hb).2.2.2
    intro v hv
    refine escapes_natAbs _ _ _ ?_ v (by simpa [unpack] using hv)
    intro x hx
    have := hsg _ x hx; omega

/-! The configuration. -/

end Sys2Proof.Machine

namespace Sys2Proof

open Sys2Proof.Machine

theorem RomTables.pairsWf_get (k l : Nat) : ∀ (bs : List CodeBook) (ts : List CodeTree) (cb i : Nat),
    RomTables.pairsWf k l cb bs ts = true → i < bs.length →
    ∃ b t, bs[i]? = some b ∧ ts[i]? = some t ∧ b.wf k (cb + i) = true ∧ t.wf l b = true
  | [], _, _, i, _, hi => absurd hi (Nat.not_lt_zero _)
  | b :: bs, [], _, _, h, _ => by simp [RomTables.pairsWf] at h
  | b :: bs, t :: ts, cb, i, h, hi => by
    simp only [RomTables.pairsWf, Bool.and_eq_true] at h
    cases i with
    | zero => exact ⟨b, t, rfl, rfl, h.1.1, h.1.2⟩
    | succ i =>
      obtain ⟨b', t', h1, h2, h3, h4⟩ := RomTables.pairsWf_get k l bs ts (cb + 1) i h.2 (by simpa using hi)
      exact ⟨b', t', h1, h2, by rw [show cb + (i + 1) = cb + 1 + i by omega]; exact h3, h4⟩

/-- Every regular id has a well-formed record and a well-formed tree (R40, R163). -/
theorem Rom.entry_wf (rom : Rom) {cb : Nat} (h1 : 1 ≤ cb) (h11 : cb ≤ 11) :
    (rom.book cb).wf rom.dimBoundary cb = true ∧ (rom.tree cb).wf rom.lmax (rom.book cb) = true := by
  have h := rom.ok
  simp only [RomTables.wf, Bool.and_eq_true, beq_iff_eq] at h
  obtain ⟨b, t, hb, ht, h3, h4⟩ := RomTables.pairsWf_get _ _ _ _ _ (cb - 1) h.2 (by omega)
  rw [show 1 + (cb - 1) = cb by omega] at h3
  have eb : rom.book cb = b := by unfold Rom.book; rw [List.getD_eq_getElem?_getD, hb]; rfl
  have et : rom.tree cb = t := by unfold Rom.tree; rw [List.getD_eq_getElem?_getD, ht]; rfl
  rw [eb, et]
  exact ⟨h3, h4⟩

/-- `LMAX` is at most 32 (R163 (c)). -/
theorem Rom.lmax_le (rom : Rom) : rom.lmax ≤ 32 := by
  have h := rom.ok
  simp only [RomTables.wf, Bool.and_eq_true, decide_eq_true_eq] at h
  exact h.1.2

/-- A walk in the tree of a regular id reads 1 to `LMAX` bits and gives an index of the codebook (R161, R163). -/
theorem Rom.walk_wf (rom : Rom) {cb : Nat} (h1 : 1 ≤ cb) (h11 : cb ≤ 11) (r : Reader) :
    ((rom.tree cb).walk r).1.toNat < (rom.book cb).indexBound ∧ r.pos < ((rom.tree cb).walk r).2.pos ∧
      ((rom.tree cb).walk r).2.pos ≤ r.pos + rom.lmax := by
  have h := (rom.entry_wf h1 h11).2
  simp only [CodeTree.wf, Bool.and_eq_true, decide_eq_true_eq] at h
  have hl := walk_length (rom.tree cb) r
  exact ⟨walk_lt _ _ r h.2, walk_nonempty _ r h.1.1, by omega⟩

end Sys2Proof

namespace Sys2Proof.Machine

/-! One tuple, in a configuration. -/

theorem tuple_ahead (rom : Rom) (cb : Nat) (d : Datapath) : d.reader.Ahead (tuple rom cb d).dp.reader :=
  (walk_ahead (rom.tree cb) d.reader).trans' (unpack_ahead _ (rom.book cb) _ _)

/-- A tuple yields exactly `dimension` values (R126). -/
theorem tuple_length (rom : Rom) (cb : Nat) (d : Datapath) : (tuple rom cb d).vals.length = dimOf rom cb :=
  unpack_length _ _ _ _

theorem tuple_natAbs (rom : Rom) {cb : Nat} (h1 : 1 ≤ cb) (h11 : cb ≤ 11) (d : Datapath) :
    ∀ v ∈ (tuple rom cb d).vals, v.natAbs ≤ 16383 :=
  unpack_natAbs (rom.entry_wf h1 h11).1 _ (rom.walk_wf h1 h11 d.reader).1 _

/-- Only the escape codebook overruns (R308). -/
theorem tuple_overrun (rom : Rom) (cb : Nat) (d : Datapath) (h : (tuple rom cb d).outcome = .overrun) : cb = 11 := by
  unfold tuple at h
  dsimp only at h
  rcases unpack_outcome (unpackRule cb (rom.book cb)) (rom.book cb) ((rom.tree cb).walk d.reader).1.toNat
    { d with cwidx := ((rom.tree cb).walk d.reader).1, reader := ((rom.tree cb).walk d.reader).2 } with h' | ⟨_, hr⟩
  · rw [h'] at h; simp at h
  · unfold unpackRule Config.escCb at hr
    split at hr
    · assumption
    · split at hr <;> simp at hr

/-! The tuples of a section. -/

theorem tuples_ahead (rom : Rom) (cb : Nat) : ∀ (n : Nat) (d : Datapath), d.reader.Ahead (tuples rom cb n d).dp.reader
  | 0, d => .rfl' _
  | n + 1, d => by
    unfold tuples
    dsimp only
    split
    · exact (tuple_ahead rom cb d).trans' (tuples_ahead rom cb n _)
    · exact tuple_ahead rom cb d

theorem tuples_length (rom : Rom) (cb : Nat) : ∀ (n : Nat) (d : Datapath), (tuples rom cb n d).outcome = .complete →
    (tuples rom cb n d).vals.length = n * dimOf rom cb
  | 0, d, _ => by simp [tuples]
  | n + 1, d, h => by
    unfold tuples at h ⊢
    dsimp only at h ⊢
    split at h
    · dsimp only
      rw [List.length_append, tuple_length rom cb d, tuples_length rom cb n _ h]; ring
    · simp at h

theorem tuples_natAbs (rom : Rom) {cb : Nat} (h1 : 1 ≤ cb) (h11 : cb ≤ 11) : ∀ (n : Nat) (d : Datapath), ∀ v ∈ (tuples rom cb n d).vals,
    v.natAbs ≤ 16383
  | 0, d => by simp [tuples]
  | n + 1, d => by
    unfold tuples
    dsimp only
    split
    · intro v hv
      rcases List.mem_append.1 hv with h | h
      · exact tuple_natAbs rom h1 h11 d v h
      · exact tuples_natAbs rom h1 h11 n _ v h
    · simp

theorem tuples_overrun (rom : Rom) (cb : Nat) : ∀ (n : Nat) (d : Datapath), (tuples rom cb n d).outcome = .overrun →
    cb = 11
  | 0, d, h => by simp [tuples] at h
  | n + 1, d, h => by
    unfold tuples at h
    dsimp only at h
    split at h
    · exact tuples_overrun rom cb n _ h
    · rename_i hc; exact tuple_overrun rom cb d hc

end Sys2Proof.Machine
end

