-- ==== Sys2Proof/Laws/PerInstr.lean ====
section
/-! SUPPORT. Per-instruction facts: the fixed bits of each encoding (spec R91, R93, R96; spec/opcode_table.json). -/

namespace Sys2Proof.Laws.OpcodeBits

/-- The row of spec/opcode_table.json an instruction's code word must match: mask and match of a descriptor (R91, R93), or of
a `CTRL` write (R96). -/
def row : Instr → (BitVec 16 × BitVec 16) ⊕ (BitVec 32 × BitVec 32)
  | .zero _ => .inl (0xF000, 0x0000)
  | .hcb1 _ => .inl (0xF000, 0x1000)
  | .hcb2 _ => .inl (0xF000, 0x2000)
  | .hcb3 _ => .inl (0xF000, 0x3000)
  | .hcb4 _ => .inl (0xF000, 0x4000)
  | .hcb5 _ => .inl (0xF000, 0x5000)
  | .hcb6 _ => .inl (0xF000, 0x6000)
  | .hcb7 _ => .inl (0xF000, 0x7000)
  | .hcb8 _ => .inl (0xF000, 0x8000)
  | .hcb9 _ => .inl (0xF000, 0x9000)
  | .hcb10 _ => .inl (0xF000, 0xA000)
  | .hcb11 _ => .inl (0xF000, 0xB000)
  | .rsvd12 _ => .inl (0xF000, 0xC000)
  | .noise _ => .inl (0xF000, 0xD000)
  | .int2 _ => .inl (0xF000, 0xE000)
  | .int _ => .inl (0xF000, 0xF000)
  | .start => .inr (1, 1)
  | .resume => .inr (2, 2)
  | .abort => .inr (4, 4)

/-- The encoded word has the row's fixed bits. -/
def Statement (i : Instr) : Prop :=
  match encode i, row i with
  | .descriptor w, .inl (mask, m) => w &&& mask = m
  | .control w, .inr (mask, m) => w &&& mask = m
  | .descriptor _, .inr _ => False
  | .control _, .inl _ => False

theorem descriptorWord_opcode (cb : BitVec 4) (e : SfbEnd) : descriptorWord cb e &&& 0xF000#16 = cb.setWidth 16 <<< 12 := by
  apply BitVec.eq_of_getLsbD_eq
  intro i hi
  simp only [descriptorWord]
  interval_cases i <;> simp

theorem zero (e : SfbEnd) : Statement (.zero e) := descriptorWord_opcode 0 e

theorem hcb1 (e : SfbEnd) : Statement (.hcb1 e) := descriptorWord_opcode 1 e

theorem hcb2 (e : SfbEnd) : Statement (.hcb2 e) := descriptorWord_opcode 2 e

theorem hcb3 (e : SfbEnd) : Statement (.hcb3 e) := descriptorWord_opcode 3 e

theorem hcb4 (e : SfbEnd) : Statement (.hcb4 e) := descriptorWord_opcode 4 e

theorem hcb5 (e : SfbEnd) : Statement (.hcb5 e) := descriptorWord_opcode 5 e

theorem hcb6 (e : SfbEnd) : Statement (.hcb6 e) := descriptorWord_opcode 6 e

theorem hcb7 (e : SfbEnd) : Statement (.hcb7 e) := descriptorWord_opcode 7 e

theorem hcb8 (e : SfbEnd) : Statement (.hcb8 e) := descriptorWord_opcode 8 e

theorem hcb9 (e : SfbEnd) : Statement (.hcb9 e) := descriptorWord_opcode 9 e

theorem hcb10 (e : SfbEnd) : Statement (.hcb10 e) := descriptorWord_opcode 10 e

theorem hcb11 (e : SfbEnd) : Statement (.hcb11 e) := descriptorWord_opcode 11 e

theorem rsvd12 (e : SfbEnd) : Statement (.rsvd12 e) := descriptorWord_opcode 12 e

theorem noise (e : SfbEnd) : Statement (.noise e) := descriptorWord_opcode 13 e

theorem int2 (e : SfbEnd) : Statement (.int2 e) := descriptorWord_opcode 14 e

theorem int (e : SfbEnd) : Statement (.int e) := descriptorWord_opcode 15 e

theorem start : Statement .start := rfl

theorem resume : Statement .resume := rfl

theorem abort : Statement .abort := rfl

end Sys2Proof.Laws.OpcodeBits
end

