-- ==== Sys2Proof/Laws/State.lean ====
section
/-! SUPPORT. One lemma per field and shared operation: what the operation leaves, and what it sets. -/

namespace Sys2Proof.Machine

/-! `loseBuffers`: the fields it leaves. -/

@[simp] theorem loseBuffers_phase (s : State) : (loseBuffers s).phase = s.phase := rfl
@[simp] theorem loseBuffers_sectPtr (s : State) : (loseBuffers s).sectPtr = s.sectPtr := rfl
@[simp] theorem loseBuffers_line (s : State) : (loseBuffers s).line = s.line := rfl
@[simp] theorem loseBuffers_win (s : State) : (loseBuffers s).win = s.win := rfl
@[simp] theorem loseBuffers_bidx (s : State) : (loseBuffers s).bidx = s.bidx := rfl
@[simp] theorem loseBuffers_bflat (s : State) : (loseBuffers s).bflat = s.bflat := rfl
@[simp] theorem loseBuffers_roff (s : State) : (loseBuffers s).roff = s.roff := rfl
@[simp] theorem loseBuffers_dp (s : State) : (loseBuffers s).dp = s.dp := rfl
@[simp] theorem loseBuffers_maxMag (s : State) : (loseBuffers s).maxMag = s.maxMag := rfl
@[simp] theorem loseBuffers_gq (s : State) : (loseBuffers s).gq = s.gq := rfl
@[simp] theorem loseBuffers_short (s : State) : (loseBuffers s).short = s.short := rfl
@[simp] theorem loseBuffers_pauseEn (s : State) : (loseBuffers s).pauseEn = s.pauseEn := rfl
@[simp] theorem loseBuffers_ien (s : State) : (loseBuffers s).ien = s.ien := rfl
@[simp] theorem loseBuffers_nsect (s : State) : (loseBuffers s).nsect = s.nsect := rfl
@[simp] theorem loseBuffers_ngroup (s : State) : (loseBuffers s).ngroup = s.ngroup := rfl
@[simp] theorem loseBuffers_nsfbs (s : State) : (loseBuffers s).nsfbs = s.nsfbs := rfl
@[simp] theorem loseBuffers_errCode (s : State) : (loseBuffers s).errCode = s.errCode := rfl
@[simp] theorem loseBuffers_errInfo (s : State) : (loseBuffers s).errInfo = s.errInfo := rfl
@[simp] theorem loseBuffers_sect (s : State) : (loseBuffers s).sect = s.sect := rfl
@[simp] theorem loseBuffers_stop (s : State) : (loseBuffers s).stop = s.stop := rfl
@[simp] theorem loseBuffers_glen (s : State) : (loseBuffers s).glen = s.glen := rfl
@[simp] theorem loseBuffers_soff (s : State) : (loseBuffers s).soff = s.soff := rfl
@[simp] theorem loseBuffers_nb (s : State) : (loseBuffers s).nb = s.nb := rfl
@[simp] theorem loseBuffers_btop (s : State) : (loseBuffers s).btop = s.btop := rfl
@[simp] theorem loseBuffers_sf (s : State) : (loseBuffers s).sf = s.sf := rfl
@[simp] theorem loseBuffers_rom (s : State) : (loseBuffers s).rom = s.rom := rfl
@[simp] theorem loseBuffers_pending (s : State) : (loseBuffers s).pending = s.pending := rfl
@[simp] theorem loseBuffers_hostData (s : State) : (loseBuffers s).hostData = s.hostData := rfl
@[simp] theorem loseBuffers_launchPos (s : State) : (loseBuffers s).launchPos = s.launchPos := rfl

/-! `loseReader`: the fields it leaves. -/

@[simp] theorem loseReader_phase (s : State) : (loseReader s).phase = s.phase := rfl
@[simp] theorem loseReader_sectPtr (s : State) : (loseReader s).sectPtr = s.sectPtr := rfl
@[simp] theorem loseReader_line (s : State) : (loseReader s).line = s.line := rfl
@[simp] theorem loseReader_win (s : State) : (loseReader s).win = s.win := rfl
@[simp] theorem loseReader_bidx (s : State) : (loseReader s).bidx = s.bidx := rfl
@[simp] theorem loseReader_bflat (s : State) : (loseReader s).bflat = s.bflat := rfl
@[simp] theorem loseReader_roff (s : State) : (loseReader s).roff = s.roff := rfl
@[simp] theorem loseReader_maxMag (s : State) : (loseReader s).maxMag = s.maxMag := rfl
@[simp] theorem loseReader_gq (s : State) : (loseReader s).gq = s.gq := rfl
@[simp] theorem loseReader_short (s : State) : (loseReader s).short = s.short := rfl
@[simp] theorem loseReader_pauseEn (s : State) : (loseReader s).pauseEn = s.pauseEn := rfl
@[simp] theorem loseReader_ien (s : State) : (loseReader s).ien = s.ien := rfl
@[simp] theorem loseReader_nsect (s : State) : (loseReader s).nsect = s.nsect := rfl
@[simp] theorem loseReader_ngroup (s : State) : (loseReader s).ngroup = s.ngroup := rfl
@[simp] theorem loseReader_nsfbs (s : State) : (loseReader s).nsfbs = s.nsfbs := rfl
@[simp] theorem loseReader_errCode (s : State) : (loseReader s).errCode = s.errCode := rfl
@[simp] theorem loseReader_errInfo (s : State) : (loseReader s).errInfo = s.errInfo := rfl
@[simp] theorem loseReader_sect (s : State) : (loseReader s).sect = s.sect := rfl
@[simp] theorem loseReader_stop (s : State) : (loseReader s).stop = s.stop := rfl
@[simp] theorem loseReader_glen (s : State) : (loseReader s).glen = s.glen := rfl
@[simp] theorem loseReader_soff (s : State) : (loseReader s).soff = s.soff := rfl
@[simp] theorem loseReader_nb (s : State) : (loseReader s).nb = s.nb := rfl
@[simp] theorem loseReader_btop (s : State) : (loseReader s).btop = s.btop := rfl
@[simp] theorem loseReader_sf (s : State) : (loseReader s).sf = s.sf := rfl
@[simp] theorem loseReader_qs (s : State) : (loseReader s).qs = s.qs := rfl
@[simp] theorem loseReader_ds (s : State) : (loseReader s).ds = s.ds := rfl
@[simp] theorem loseReader_coef (s : State) : (loseReader s).coef = s.coef := rfl
@[simp] theorem loseReader_qfmt (s : State) : (loseReader s).qfmt = s.qfmt := rfl
@[simp] theorem loseReader_rom (s : State) : (loseReader s).rom = s.rom := rfl
@[simp] theorem loseReader_pending (s : State) : (loseReader s).pending = s.pending := rfl
@[simp] theorem loseReader_hostData (s : State) : (loseReader s).hostData = s.hostData := rfl
@[simp] theorem loseReader_launchPos (s : State) : (loseReader s).launchPos = s.launchPos := rfl

/-! `loseCounters`: the fields it leaves. -/

@[simp] theorem loseCounters_phase (s : State) : (loseCounters s).phase = s.phase := rfl
@[simp] theorem loseCounters_sectPtr (s : State) : (loseCounters s).sectPtr = s.sectPtr := rfl
@[simp] theorem loseCounters_dp (s : State) : (loseCounters s).dp = s.dp := rfl
@[simp] theorem loseCounters_short (s : State) : (loseCounters s).short = s.short := rfl
@[simp] theorem loseCounters_pauseEn (s : State) : (loseCounters s).pauseEn = s.pauseEn := rfl
@[simp] theorem loseCounters_ien (s : State) : (loseCounters s).ien = s.ien := rfl
@[simp] theorem loseCounters_nsect (s : State) : (loseCounters s).nsect = s.nsect := rfl
@[simp] theorem loseCounters_ngroup (s : State) : (loseCounters s).ngroup = s.ngroup := rfl
@[simp] theorem loseCounters_nsfbs (s : State) : (loseCounters s).nsfbs = s.nsfbs := rfl
@[simp] theorem loseCounters_errCode (s : State) : (loseCounters s).errCode = s.errCode := rfl
@[simp] theorem loseCounters_errInfo (s : State) : (loseCounters s).errInfo = s.errInfo := rfl
@[simp] theorem loseCounters_sect (s : State) : (loseCounters s).sect = s.sect := rfl
@[simp] theorem loseCounters_stop (s : State) : (loseCounters s).stop = s.stop := rfl
@[simp] theorem loseCounters_glen (s : State) : (loseCounters s).glen = s.glen := rfl
@[simp] theorem loseCounters_soff (s : State) : (loseCounters s).soff = s.soff := rfl
@[simp] theorem loseCounters_nb (s : State) : (loseCounters s).nb = s.nb := rfl
@[simp] theorem loseCounters_btop (s : State) : (loseCounters s).btop = s.btop := rfl
@[simp] theorem loseCounters_sf (s : State) : (loseCounters s).sf = s.sf := rfl
@[simp] theorem loseCounters_qs (s : State) : (loseCounters s).qs = s.qs := rfl
@[simp] theorem loseCounters_ds (s : State) : (loseCounters s).ds = s.ds := rfl
@[simp] theorem loseCounters_coef (s : State) : (loseCounters s).coef = s.coef := rfl
@[simp] theorem loseCounters_qfmt (s : State) : (loseCounters s).qfmt = s.qfmt := rfl
@[simp] theorem loseCounters_rom (s : State) : (loseCounters s).rom = s.rom := rfl
@[simp] theorem loseCounters_pending (s : State) : (loseCounters s).pending = s.pending := rfl
@[simp] theorem loseCounters_hostData (s : State) : (loseCounters s).hostData = s.hostData := rfl
@[simp] theorem loseCounters_launchPos (s : State) : (loseCounters s).launchPos = s.launchPos := rfl

/-! `loseSectPtr`: the fields it leaves. -/

@[simp] theorem loseSectPtr_phase (s : State) : (loseSectPtr s).phase = s.phase := rfl
@[simp] theorem loseSectPtr_line (s : State) : (loseSectPtr s).line = s.line := rfl
@[simp] theorem loseSectPtr_win (s : State) : (loseSectPtr s).win = s.win := rfl
@[simp] theorem loseSectPtr_bidx (s : State) : (loseSectPtr s).bidx = s.bidx := rfl
@[simp] theorem loseSectPtr_bflat (s : State) : (loseSectPtr s).bflat = s.bflat := rfl
@[simp] theorem loseSectPtr_roff (s : State) : (loseSectPtr s).roff = s.roff := rfl
@[simp] theorem loseSectPtr_dp (s : State) : (loseSectPtr s).dp = s.dp := rfl
@[simp] theorem loseSectPtr_maxMag (s : State) : (loseSectPtr s).maxMag = s.maxMag := rfl
@[simp] theorem loseSectPtr_gq (s : State) : (loseSectPtr s).gq = s.gq := rfl
@[simp] theorem loseSectPtr_short (s : State) : (loseSectPtr s).short = s.short := rfl
@[simp] theorem loseSectPtr_pauseEn (s : State) : (loseSectPtr s).pauseEn = s.pauseEn := rfl
@[simp] theorem loseSectPtr_ien (s : State) : (loseSectPtr s).ien = s.ien := rfl
@[simp] theorem loseSectPtr_nsect (s : State) : (loseSectPtr s).nsect = s.nsect := rfl
@[simp] theorem loseSectPtr_ngroup (s : State) : (loseSectPtr s).ngroup = s.ngroup := rfl
@[simp] theorem loseSectPtr_nsfbs (s : State) : (loseSectPtr s).nsfbs = s.nsfbs := rfl
@[simp] theorem loseSectPtr_errCode (s : State) : (loseSectPtr s).errCode = s.errCode := rfl
@[simp] theorem loseSectPtr_errInfo (s : State) : (loseSectPtr s).errInfo = s.errInfo := rfl
@[simp] theorem loseSectPtr_sect (s : State) : (loseSectPtr s).sect = s.sect := rfl
@[simp] theorem loseSectPtr_stop (s : State) : (loseSectPtr s).stop = s.stop := rfl
@[simp] theorem loseSectPtr_glen (s : State) : (loseSectPtr s).glen = s.glen := rfl
@[simp] theorem loseSectPtr_soff (s : State) : (loseSectPtr s).soff = s.soff := rfl
@[simp] theorem loseSectPtr_nb (s : State) : (loseSectPtr s).nb = s.nb := rfl
@[simp] theorem loseSectPtr_btop (s : State) : (loseSectPtr s).btop = s.btop := rfl
@[simp] theorem loseSectPtr_sf (s : State) : (loseSectPtr s).sf = s.sf := rfl
@[simp] theorem loseSectPtr_qs (s : State) : (loseSectPtr s).qs = s.qs := rfl
@[simp] theorem loseSectPtr_ds (s : State) : (loseSectPtr s).ds = s.ds := rfl
@[simp] theorem loseSectPtr_coef (s : State) : (loseSectPtr s).coef = s.coef := rfl
@[simp] theorem loseSectPtr_qfmt (s : State) : (loseSectPtr s).qfmt = s.qfmt := rfl
@[simp] theorem loseSectPtr_rom (s : State) : (loseSectPtr s).rom = s.rom := rfl
@[simp] theorem loseSectPtr_pending (s : State) : (loseSectPtr s).pending = s.pending := rfl
@[simp] theorem loseSectPtr_hostData (s : State) : (loseSectPtr s).hostData = s.hostData := rfl
@[simp] theorem loseSectPtr_launchPos (s : State) : (loseSectPtr s).launchPos = s.launchPos := rfl

/-! `raiseError`: the fields it leaves. -/

@[simp] theorem raiseError_sectPtr (e : EngineError) (n : Nat) (s : State) : (raiseError e n s).sectPtr = s.sectPtr := rfl
@[simp] theorem raiseError_short (e : EngineError) (n : Nat) (s : State) : (raiseError e n s).short = s.short := rfl
@[simp] theorem raiseError_pauseEn (e : EngineError) (n : Nat) (s : State) : (raiseError e n s).pauseEn = s.pauseEn := rfl
@[simp] theorem raiseError_ien (e : EngineError) (n : Nat) (s : State) : (raiseError e n s).ien = s.ien := rfl
@[simp] theorem raiseError_nsect (e : EngineError) (n : Nat) (s : State) : (raiseError e n s).nsect = s.nsect := rfl
@[simp] theorem raiseError_ngroup (e : EngineError) (n : Nat) (s : State) : (raiseError e n s).ngroup = s.ngroup := rfl
@[simp] theorem raiseError_nsfbs (e : EngineError) (n : Nat) (s : State) : (raiseError e n s).nsfbs = s.nsfbs := rfl
@[simp] theorem raiseError_sect (e : EngineError) (n : Nat) (s : State) : (raiseError e n s).sect = s.sect := rfl
@[simp] theorem raiseError_stop (e : EngineError) (n : Nat) (s : State) : (raiseError e n s).stop = s.stop := rfl
@[simp] theorem raiseError_glen (e : EngineError) (n : Nat) (s : State) : (raiseError e n s).glen = s.glen := rfl
@[simp] theorem raiseError_soff (e : EngineError) (n : Nat) (s : State) : (raiseError e n s).soff = s.soff := rfl
@[simp] theorem raiseError_nb (e : EngineError) (n : Nat) (s : State) : (raiseError e n s).nb = s.nb := rfl
@[simp] theorem raiseError_btop (e : EngineError) (n : Nat) (s : State) : (raiseError e n s).btop = s.btop := rfl
@[simp] theorem raiseError_sf (e : EngineError) (n : Nat) (s : State) : (raiseError e n s).sf = s.sf := rfl
@[simp] theorem raiseError_rom (e : EngineError) (n : Nat) (s : State) : (raiseError e n s).rom = s.rom := rfl
@[simp] theorem raiseError_pending (e : EngineError) (n : Nat) (s : State) : (raiseError e n s).pending = s.pending := rfl
@[simp] theorem raiseError_hostData (e : EngineError) (n : Nat) (s : State) : (raiseError e n s).hostData = s.hostData := rfl
@[simp] theorem raiseError_launchPos (e : EngineError) (n : Nat) (s : State) : (raiseError e n s).launchPos = s.launchPos := rfl

/-! `clearError`: the fields it leaves. -/

@[simp] theorem clearError_phase (s : State) : (clearError s).phase = s.phase := rfl
@[simp] theorem clearError_sectPtr (s : State) : (clearError s).sectPtr = s.sectPtr := rfl
@[simp] theorem clearError_line (s : State) : (clearError s).line = s.line := rfl
@[simp] theorem clearError_win (s : State) : (clearError s).win = s.win := rfl
@[simp] theorem clearError_bidx (s : State) : (clearError s).bidx = s.bidx := rfl
@[simp] theorem clearError_bflat (s : State) : (clearError s).bflat = s.bflat := rfl
@[simp] theorem clearError_roff (s : State) : (clearError s).roff = s.roff := rfl
@[simp] theorem clearError_dp (s : State) : (clearError s).dp = s.dp := rfl
@[simp] theorem clearError_maxMag (s : State) : (clearError s).maxMag = s.maxMag := rfl
@[simp] theorem clearError_gq (s : State) : (clearError s).gq = s.gq := rfl
@[simp] theorem clearError_short (s : State) : (clearError s).short = s.short := rfl
@[simp] theorem clearError_pauseEn (s : State) : (clearError s).pauseEn = s.pauseEn := rfl
@[simp] theorem clearError_ien (s : State) : (clearError s).ien = s.ien := rfl
@[simp] theorem clearError_nsect (s : State) : (clearError s).nsect = s.nsect := rfl
@[simp] theorem clearError_ngroup (s : State) : (clearError s).ngroup = s.ngroup := rfl
@[simp] theorem clearError_nsfbs (s : State) : (clearError s).nsfbs = s.nsfbs := rfl
@[simp] theorem clearError_sect (s : State) : (clearError s).sect = s.sect := rfl
@[simp] theorem clearError_stop (s : State) : (clearError s).stop = s.stop := rfl
@[simp] theorem clearError_glen (s : State) : (clearError s).glen = s.glen := rfl
@[simp] theorem clearError_soff (s : State) : (clearError s).soff = s.soff := rfl
@[simp] theorem clearError_nb (s : State) : (clearError s).nb = s.nb := rfl
@[simp] theorem clearError_btop (s : State) : (clearError s).btop = s.btop := rfl
@[simp] theorem clearError_sf (s : State) : (clearError s).sf = s.sf := rfl
@[simp] theorem clearError_qs (s : State) : (clearError s).qs = s.qs := rfl
@[simp] theorem clearError_ds (s : State) : (clearError s).ds = s.ds := rfl
@[simp] theorem clearError_coef (s : State) : (clearError s).coef = s.coef := rfl
@[simp] theorem clearError_qfmt (s : State) : (clearError s).qfmt = s.qfmt := rfl
@[simp] theorem clearError_rom (s : State) : (clearError s).rom = s.rom := rfl
@[simp] theorem clearError_pending (s : State) : (clearError s).pending = s.pending := rfl
@[simp] theorem clearError_hostData (s : State) : (clearError s).hostData = s.hostData := rfl
@[simp] theorem clearError_launchPos (s : State) : (clearError s).launchPos = s.launchPos := rfl
@[simp] theorem clearError_draws (s : State) : (clearError s).draws = s.draws := rfl

/-! `nextSection`: the fields it leaves. -/

@[simp] theorem nextSection_phase (s : State) : (nextSection s).phase = s.phase := rfl
@[simp] theorem nextSection_line (s : State) : (nextSection s).line = s.line := rfl
@[simp] theorem nextSection_win (s : State) : (nextSection s).win = s.win := rfl
@[simp] theorem nextSection_bidx (s : State) : (nextSection s).bidx = s.bidx := rfl
@[simp] theorem nextSection_bflat (s : State) : (nextSection s).bflat = s.bflat := rfl
@[simp] theorem nextSection_roff (s : State) : (nextSection s).roff = s.roff := rfl
@[simp] theorem nextSection_dp (s : State) : (nextSection s).dp = s.dp := rfl
@[simp] theorem nextSection_maxMag (s : State) : (nextSection s).maxMag = s.maxMag := rfl
@[simp] theorem nextSection_gq (s : State) : (nextSection s).gq = s.gq := rfl
@[simp] theorem nextSection_short (s : State) : (nextSection s).short = s.short := rfl
@[simp] theorem nextSection_pauseEn (s : State) : (nextSection s).pauseEn = s.pauseEn := rfl
@[simp] theorem nextSection_ien (s : State) : (nextSection s).ien = s.ien := rfl
@[simp] theorem nextSection_nsect (s : State) : (nextSection s).nsect = s.nsect := rfl
@[simp] theorem nextSection_ngroup (s : State) : (nextSection s).ngroup = s.ngroup := rfl
@[simp] theorem nextSection_nsfbs (s : State) : (nextSection s).nsfbs = s.nsfbs := rfl
@[simp] theorem nextSection_errCode (s : State) : (nextSection s).errCode = s.errCode := rfl
@[simp] theorem nextSection_errInfo (s : State) : (nextSection s).errInfo = s.errInfo := rfl
@[simp] theorem nextSection_sect (s : State) : (nextSection s).sect = s.sect := rfl
@[simp] theorem nextSection_stop (s : State) : (nextSection s).stop = s.stop := rfl
@[simp] theorem nextSection_glen (s : State) : (nextSection s).glen = s.glen := rfl
@[simp] theorem nextSection_soff (s : State) : (nextSection s).soff = s.soff := rfl
@[simp] theorem nextSection_nb (s : State) : (nextSection s).nb = s.nb := rfl
@[simp] theorem nextSection_btop (s : State) : (nextSection s).btop = s.btop := rfl
@[simp] theorem nextSection_sf (s : State) : (nextSection s).sf = s.sf := rfl
@[simp] theorem nextSection_qs (s : State) : (nextSection s).qs = s.qs := rfl
@[simp] theorem nextSection_ds (s : State) : (nextSection s).ds = s.ds := rfl
@[simp] theorem nextSection_coef (s : State) : (nextSection s).coef = s.coef := rfl
@[simp] theorem nextSection_qfmt (s : State) : (nextSection s).qfmt = s.qfmt := rfl
@[simp] theorem nextSection_rom (s : State) : (nextSection s).rom = s.rom := rfl
@[simp] theorem nextSection_pending (s : State) : (nextSection s).pending = s.pending := rfl
@[simp] theorem nextSection_hostData (s : State) : (nextSection s).hostData = s.hostData := rfl
@[simp] theorem nextSection_launchPos (s : State) : (nextSection s).launchPos = s.launchPos := rfl
@[simp] theorem nextSection_draws (s : State) : (nextSection s).draws = s.draws := rfl

/-! `storeValues`: the fields it leaves. -/

@[simp] theorem storeValues_phase (v : List Int) (s : State) : (storeValues v s).phase = s.phase := rfl
@[simp] theorem storeValues_sectPtr (v : List Int) (s : State) : (storeValues v s).sectPtr = s.sectPtr := rfl
@[simp] theorem storeValues_win (v : List Int) (s : State) : (storeValues v s).win = s.win := rfl
@[simp] theorem storeValues_bidx (v : List Int) (s : State) : (storeValues v s).bidx = s.bidx := rfl
@[simp] theorem storeValues_bflat (v : List Int) (s : State) : (storeValues v s).bflat = s.bflat := rfl
@[simp] theorem storeValues_roff (v : List Int) (s : State) : (storeValues v s).roff = s.roff := rfl
@[simp] theorem storeValues_dp (v : List Int) (s : State) : (storeValues v s).dp = s.dp := rfl
@[simp] theorem storeValues_gq (v : List Int) (s : State) : (storeValues v s).gq = s.gq := rfl
@[simp] theorem storeValues_short (v : List Int) (s : State) : (storeValues v s).short = s.short := rfl
@[simp] theorem storeValues_pauseEn (v : List Int) (s : State) : (storeValues v s).pauseEn = s.pauseEn := rfl
@[simp] theorem storeValues_ien (v : List Int) (s : State) : (storeValues v s).ien = s.ien := rfl
@[simp] theorem storeValues_nsect (v : List Int) (s : State) : (storeValues v s).nsect = s.nsect := rfl
@[simp] theorem storeValues_ngroup (v : List Int) (s : State) : (storeValues v s).ngroup = s.ngroup := rfl
@[simp] theorem storeValues_nsfbs (v : List Int) (s : State) : (storeValues v s).nsfbs = s.nsfbs := rfl
@[simp] theorem storeValues_errCode (v : List Int) (s : State) : (storeValues v s).errCode = s.errCode := rfl
@[simp] theorem storeValues_errInfo (v : List Int) (s : State) : (storeValues v s).errInfo = s.errInfo := rfl
@[simp] theorem storeValues_sect (v : List Int) (s : State) : (storeValues v s).sect = s.sect := rfl
@[simp] theorem storeValues_stop (v : List Int) (s : State) : (storeValues v s).stop = s.stop := rfl
@[simp] theorem storeValues_glen (v : List Int) (s : State) : (storeValues v s).glen = s.glen := rfl
@[simp] theorem storeValues_soff (v : List Int) (s : State) : (storeValues v s).soff = s.soff := rfl
@[simp] theorem storeValues_nb (v : List Int) (s : State) : (storeValues v s).nb = s.nb := rfl
@[simp] theorem storeValues_btop (v : List Int) (s : State) : (storeValues v s).btop = s.btop := rfl
@[simp] theorem storeValues_sf (v : List Int) (s : State) : (storeValues v s).sf = s.sf := rfl
@[simp] theorem storeValues_ds (v : List Int) (s : State) : (storeValues v s).ds = s.ds := rfl
@[simp] theorem storeValues_coef (v : List Int) (s : State) : (storeValues v s).coef = s.coef := rfl
@[simp] theorem storeValues_qfmt (v : List Int) (s : State) : (storeValues v s).qfmt = s.qfmt := rfl
@[simp] theorem storeValues_rom (v : List Int) (s : State) : (storeValues v s).rom = s.rom := rfl
@[simp] theorem storeValues_pending (v : List Int) (s : State) : (storeValues v s).pending = s.pending := rfl
@[simp] theorem storeValues_hostData (v : List Int) (s : State) : (storeValues v s).hostData = s.hostData := rfl
@[simp] theorem storeValues_launchPos (v : List Int) (s : State) : (storeValues v s).launchPos = s.launchPos := rfl
@[simp] theorem storeValues_draws (v : List Int) (s : State) : (storeValues v s).draws = s.draws := rfl

/-! `zeroFill`: the fields it leaves. -/

@[simp] theorem zeroFill_phase (n : Nat) (s : State) : (zeroFill n s).phase = s.phase := rfl
@[simp] theorem zeroFill_sectPtr (n : Nat) (s : State) : (zeroFill n s).sectPtr = s.sectPtr := rfl
@[simp] theorem zeroFill_win (n : Nat) (s : State) : (zeroFill n s).win = s.win := rfl
@[simp] theorem zeroFill_bidx (n : Nat) (s : State) : (zeroFill n s).bidx = s.bidx := rfl
@[simp] theorem zeroFill_bflat (n : Nat) (s : State) : (zeroFill n s).bflat = s.bflat := rfl
@[simp] theorem zeroFill_roff (n : Nat) (s : State) : (zeroFill n s).roff = s.roff := rfl
@[simp] theorem zeroFill_dp (n : Nat) (s : State) : (zeroFill n s).dp = s.dp := rfl
@[simp] theorem zeroFill_maxMag (n : Nat) (s : State) : (zeroFill n s).maxMag = s.maxMag := rfl
@[simp] theorem zeroFill_gq (n : Nat) (s : State) : (zeroFill n s).gq = s.gq := rfl
@[simp] theorem zeroFill_short (n : Nat) (s : State) : (zeroFill n s).short = s.short := rfl
@[simp] theorem zeroFill_pauseEn (n : Nat) (s : State) : (zeroFill n s).pauseEn = s.pauseEn := rfl
@[simp] theorem zeroFill_ien (n : Nat) (s : State) : (zeroFill n s).ien = s.ien := rfl
@[simp] theorem zeroFill_nsect (n : Nat) (s : State) : (zeroFill n s).nsect = s.nsect := rfl
@[simp] theorem zeroFill_ngroup (n : Nat) (s : State) : (zeroFill n s).ngroup = s.ngroup := rfl
@[simp] theorem zeroFill_nsfbs (n : Nat) (s : State) : (zeroFill n s).nsfbs = s.nsfbs := rfl
@[simp] theorem zeroFill_errCode (n : Nat) (s : State) : (zeroFill n s).errCode = s.errCode := rfl
@[simp] theorem zeroFill_errInfo (n : Nat) (s : State) : (zeroFill n s).errInfo = s.errInfo := rfl
@[simp] theorem zeroFill_sect (n : Nat) (s : State) : (zeroFill n s).sect = s.sect := rfl
@[simp] theorem zeroFill_stop (n : Nat) (s : State) : (zeroFill n s).stop = s.stop := rfl
@[simp] theorem zeroFill_glen (n : Nat) (s : State) : (zeroFill n s).glen = s.glen := rfl
@[simp] theorem zeroFill_soff (n : Nat) (s : State) : (zeroFill n s).soff = s.soff := rfl
@[simp] theorem zeroFill_nb (n : Nat) (s : State) : (zeroFill n s).nb = s.nb := rfl
@[simp] theorem zeroFill_btop (n : Nat) (s : State) : (zeroFill n s).btop = s.btop := rfl
@[simp] theorem zeroFill_sf (n : Nat) (s : State) : (zeroFill n s).sf = s.sf := rfl
@[simp] theorem zeroFill_coef (n : Nat) (s : State) : (zeroFill n s).coef = s.coef := rfl
@[simp] theorem zeroFill_qfmt (n : Nat) (s : State) : (zeroFill n s).qfmt = s.qfmt := rfl
@[simp] theorem zeroFill_rom (n : Nat) (s : State) : (zeroFill n s).rom = s.rom := rfl
@[simp] theorem zeroFill_pending (n : Nat) (s : State) : (zeroFill n s).pending = s.pending := rfl
@[simp] theorem zeroFill_hostData (n : Nat) (s : State) : (zeroFill n s).hostData = s.hostData := rfl
@[simp] theorem zeroFill_launchPos (n : Nat) (s : State) : (zeroFill n s).launchPos = s.launchPos := rfl
@[simp] theorem zeroFill_draws (n : Nat) (s : State) : (zeroFill n s).draws = s.draws := rfl

/-! `launch`: the fields it leaves. -/

@[simp] theorem launch_win (s : State) : (launch s).win = s.win := rfl
@[simp] theorem launch_bidx (s : State) : (launch s).bidx = s.bidx := rfl
@[simp] theorem launch_bflat (s : State) : (launch s).bflat = s.bflat := rfl
@[simp] theorem launch_roff (s : State) : (launch s).roff = s.roff := rfl
@[simp] theorem launch_dp (s : State) : (launch s).dp = s.dp := rfl
@[simp] theorem launch_gq (s : State) : (launch s).gq = s.gq := rfl
@[simp] theorem launch_short (s : State) : (launch s).short = s.short := rfl
@[simp] theorem launch_pauseEn (s : State) : (launch s).pauseEn = s.pauseEn := rfl
@[simp] theorem launch_ien (s : State) : (launch s).ien = s.ien := rfl
@[simp] theorem launch_nsect (s : State) : (launch s).nsect = s.nsect := rfl
@[simp] theorem launch_ngroup (s : State) : (launch s).ngroup = s.ngroup := rfl
@[simp] theorem launch_nsfbs (s : State) : (launch s).nsfbs = s.nsfbs := rfl
@[simp] theorem launch_sect (s : State) : (launch s).sect = s.sect := rfl
@[simp] theorem launch_stop (s : State) : (launch s).stop = s.stop := rfl
@[simp] theorem launch_glen (s : State) : (launch s).glen = s.glen := rfl
@[simp] theorem launch_soff (s : State) : (launch s).soff = s.soff := rfl
@[simp] theorem launch_nb (s : State) : (launch s).nb = s.nb := rfl
@[simp] theorem launch_btop (s : State) : (launch s).btop = s.btop := rfl
@[simp] theorem launch_sf (s : State) : (launch s).sf = s.sf := rfl
@[simp] theorem launch_qs (s : State) : (launch s).qs = s.qs := rfl
@[simp] theorem launch_ds (s : State) : (launch s).ds = s.ds := rfl
@[simp] theorem launch_coef (s : State) : (launch s).coef = s.coef := rfl
@[simp] theorem launch_qfmt (s : State) : (launch s).qfmt = s.qfmt := rfl
@[simp] theorem launch_rom (s : State) : (launch s).rom = s.rom := rfl
@[simp] theorem launch_pending (s : State) : (launch s).pending = s.pending := rfl
@[simp] theorem launch_hostData (s : State) : (launch s).hostData = s.hostData := rfl
@[simp] theorem launch_draws (s : State) : (launch s).draws = s.draws := rfl

/-! `leaveUnpack`: the fields it leaves. -/

@[simp] theorem leaveUnpack_sectPtr (s : State) : (leaveUnpack s).sectPtr = s.sectPtr := rfl
@[simp] theorem leaveUnpack_line (s : State) : (leaveUnpack s).line = s.line := rfl
@[simp] theorem leaveUnpack_win (s : State) : (leaveUnpack s).win = s.win := rfl
@[simp] theorem leaveUnpack_bidx (s : State) : (leaveUnpack s).bidx = s.bidx := rfl
@[simp] theorem leaveUnpack_bflat (s : State) : (leaveUnpack s).bflat = s.bflat := rfl
@[simp] theorem leaveUnpack_roff (s : State) : (leaveUnpack s).roff = s.roff := rfl
@[simp] theorem leaveUnpack_dp (s : State) : (leaveUnpack s).dp = s.dp := rfl
@[simp] theorem leaveUnpack_maxMag (s : State) : (leaveUnpack s).maxMag = s.maxMag := rfl
@[simp] theorem leaveUnpack_gq (s : State) : (leaveUnpack s).gq = s.gq := rfl
@[simp] theorem leaveUnpack_short (s : State) : (leaveUnpack s).short = s.short := rfl
@[simp] theorem leaveUnpack_pauseEn (s : State) : (leaveUnpack s).pauseEn = s.pauseEn := rfl
@[simp] theorem leaveUnpack_ien (s : State) : (leaveUnpack s).ien = s.ien := rfl
@[simp] theorem leaveUnpack_nsect (s : State) : (leaveUnpack s).nsect = s.nsect := rfl
@[simp] theorem leaveUnpack_ngroup (s : State) : (leaveUnpack s).ngroup = s.ngroup := rfl
@[simp] theorem leaveUnpack_nsfbs (s : State) : (leaveUnpack s).nsfbs = s.nsfbs := rfl
@[simp] theorem leaveUnpack_errCode (s : State) : (leaveUnpack s).errCode = s.errCode := rfl
@[simp] theorem leaveUnpack_errInfo (s : State) : (leaveUnpack s).errInfo = s.errInfo := rfl
@[simp] theorem leaveUnpack_sect (s : State) : (leaveUnpack s).sect = s.sect := rfl
@[simp] theorem leaveUnpack_stop (s : State) : (leaveUnpack s).stop = s.stop := rfl
@[simp] theorem leaveUnpack_glen (s : State) : (leaveUnpack s).glen = s.glen := rfl
@[simp] theorem leaveUnpack_soff (s : State) : (leaveUnpack s).soff = s.soff := rfl
@[simp] theorem leaveUnpack_nb (s : State) : (leaveUnpack s).nb = s.nb := rfl
@[simp] theorem leaveUnpack_btop (s : State) : (leaveUnpack s).btop = s.btop := rfl
@[simp] theorem leaveUnpack_sf (s : State) : (leaveUnpack s).sf = s.sf := rfl
@[simp] theorem leaveUnpack_qs (s : State) : (leaveUnpack s).qs = s.qs := rfl
@[simp] theorem leaveUnpack_ds (s : State) : (leaveUnpack s).ds = s.ds := rfl
@[simp] theorem leaveUnpack_coef (s : State) : (leaveUnpack s).coef = s.coef := rfl
@[simp] theorem leaveUnpack_qfmt (s : State) : (leaveUnpack s).qfmt = s.qfmt := rfl
@[simp] theorem leaveUnpack_rom (s : State) : (leaveUnpack s).rom = s.rom := rfl
@[simp] theorem leaveUnpack_pending (s : State) : (leaveUnpack s).pending = s.pending := rfl
@[simp] theorem leaveUnpack_hostData (s : State) : (leaveUnpack s).hostData = s.hostData := rfl
@[simp] theorem leaveUnpack_launchPos (s : State) : (leaveUnpack s).launchPos = s.launchPos := rfl
@[simp] theorem leaveUnpack_draws (s : State) : (leaveUnpack s).draws = s.draws := rfl

/-! `enterRescale`: the fields it leaves. -/

@[simp] theorem enterRescale_sectPtr (s : State) : (enterRescale s).sectPtr = s.sectPtr := rfl
@[simp] theorem enterRescale_line (s : State) : (enterRescale s).line = s.line := rfl
@[simp] theorem enterRescale_dp (s : State) : (enterRescale s).dp = s.dp := rfl
@[simp] theorem enterRescale_maxMag (s : State) : (enterRescale s).maxMag = s.maxMag := rfl
@[simp] theorem enterRescale_gq (s : State) : (enterRescale s).gq = s.gq := rfl
@[simp] theorem enterRescale_short (s : State) : (enterRescale s).short = s.short := rfl
@[simp] theorem enterRescale_pauseEn (s : State) : (enterRescale s).pauseEn = s.pauseEn := rfl
@[simp] theorem enterRescale_ien (s : State) : (enterRescale s).ien = s.ien := rfl
@[simp] theorem enterRescale_nsect (s : State) : (enterRescale s).nsect = s.nsect := rfl
@[simp] theorem enterRescale_ngroup (s : State) : (enterRescale s).ngroup = s.ngroup := rfl
@[simp] theorem enterRescale_nsfbs (s : State) : (enterRescale s).nsfbs = s.nsfbs := rfl
@[simp] theorem enterRescale_errCode (s : State) : (enterRescale s).errCode = s.errCode := rfl
@[simp] theorem enterRescale_errInfo (s : State) : (enterRescale s).errInfo = s.errInfo := rfl
@[simp] theorem enterRescale_sect (s : State) : (enterRescale s).sect = s.sect := rfl
@[simp] theorem enterRescale_stop (s : State) : (enterRescale s).stop = s.stop := rfl
@[simp] theorem enterRescale_glen (s : State) : (enterRescale s).glen = s.glen := rfl
@[simp] theorem enterRescale_soff (s : State) : (enterRescale s).soff = s.soff := rfl
@[simp] theorem enterRescale_nb (s : State) : (enterRescale s).nb = s.nb := rfl
@[simp] theorem enterRescale_btop (s : State) : (enterRescale s).btop = s.btop := rfl
@[simp] theorem enterRescale_sf (s : State) : (enterRescale s).sf = s.sf := rfl
@[simp] theorem enterRescale_qs (s : State) : (enterRescale s).qs = s.qs := rfl
@[simp] theorem enterRescale_ds (s : State) : (enterRescale s).ds = s.ds := rfl
@[simp] theorem enterRescale_coef (s : State) : (enterRescale s).coef = s.coef := rfl
@[simp] theorem enterRescale_qfmt (s : State) : (enterRescale s).qfmt = s.qfmt := rfl
@[simp] theorem enterRescale_rom (s : State) : (enterRescale s).rom = s.rom := rfl
@[simp] theorem enterRescale_pending (s : State) : (enterRescale s).pending = s.pending := rfl
@[simp] theorem enterRescale_hostData (s : State) : (enterRescale s).hostData = s.hostData := rfl
@[simp] theorem enterRescale_launchPos (s : State) : (enterRescale s).launchPos = s.launchPos := rfl
@[simp] theorem enterRescale_draws (s : State) : (enterRescale s).draws = s.draws := rfl

/-! `rescaleBand`: the fields it leaves. -/

@[simp] theorem rescaleBand_phase (s : State) : (rescaleBand s).phase = s.phase := rfl
@[simp] theorem rescaleBand_sectPtr (s : State) : (rescaleBand s).sectPtr = s.sectPtr := rfl
@[simp] theorem rescaleBand_line (s : State) : (rescaleBand s).line = s.line := rfl
@[simp] theorem rescaleBand_win (s : State) : (rescaleBand s).win = s.win := rfl
@[simp] theorem rescaleBand_dp (s : State) : (rescaleBand s).dp = s.dp := rfl
@[simp] theorem rescaleBand_maxMag (s : State) : (rescaleBand s).maxMag = s.maxMag := rfl
@[simp] theorem rescaleBand_gq (s : State) : (rescaleBand s).gq = s.gq := rfl
@[simp] theorem rescaleBand_short (s : State) : (rescaleBand s).short = s.short := rfl
@[simp] theorem rescaleBand_pauseEn (s : State) : (rescaleBand s).pauseEn = s.pauseEn := rfl
@[simp] theorem rescaleBand_ien (s : State) : (rescaleBand s).ien = s.ien := rfl
@[simp] theorem rescaleBand_nsect (s : State) : (rescaleBand s).nsect = s.nsect := rfl
@[simp] theorem rescaleBand_ngroup (s : State) : (rescaleBand s).ngroup = s.ngroup := rfl
@[simp] theorem rescaleBand_nsfbs (s : State) : (rescaleBand s).nsfbs = s.nsfbs := rfl
@[simp] theorem rescaleBand_errCode (s : State) : (rescaleBand s).errCode = s.errCode := rfl
@[simp] theorem rescaleBand_errInfo (s : State) : (rescaleBand s).errInfo = s.errInfo := rfl
@[simp] theorem rescaleBand_sect (s : State) : (rescaleBand s).sect = s.sect := rfl
@[simp] theorem rescaleBand_stop (s : State) : (rescaleBand s).stop = s.stop := rfl
@[simp] theorem rescaleBand_glen (s : State) : (rescaleBand s).glen = s.glen := rfl
@[simp] theorem rescaleBand_soff (s : State) : (rescaleBand s).soff = s.soff := rfl
@[simp] theorem rescaleBand_nb (s : State) : (rescaleBand s).nb = s.nb := rfl
@[simp] theorem rescaleBand_btop (s : State) : (rescaleBand s).btop = s.btop := rfl
@[simp] theorem rescaleBand_sf (s : State) : (rescaleBand s).sf = s.sf := rfl
@[simp] theorem rescaleBand_qs (s : State) : (rescaleBand s).qs = s.qs := rfl
@[simp] theorem rescaleBand_ds (s : State) : (rescaleBand s).ds = s.ds := rfl
@[simp] theorem rescaleBand_rom (s : State) : (rescaleBand s).rom = s.rom := rfl
@[simp] theorem rescaleBand_pending (s : State) : (rescaleBand s).pending = s.pending := rfl
@[simp] theorem rescaleBand_hostData (s : State) : (rescaleBand s).hostData = s.hostData := rfl
@[simp] theorem rescaleBand_launchPos (s : State) : (rescaleBand s).launchPos = s.launchPos := rfl

/-! What the shared operations set. -/

@[simp] theorem raiseError_phase (e : EngineError) (n : Nat) (s : State) : (raiseError e n s).phase = .error := rfl
@[simp] theorem raiseError_errCode (e : EngineError) (n : Nat) (s : State) : (raiseError e n s).errCode = e.code := rfl
@[simp] theorem raiseError_errInfo (e : EngineError) (n : Nat) (s : State) :
    (raiseError e n s).errInfo = BitVec.ofNat 16 n := rfl
@[simp] theorem clearError_errCode (s : State) : (clearError s).errCode = 0 := rfl
@[simp] theorem clearError_errInfo (s : State) : (clearError s).errInfo = 0 := rfl
@[simp] theorem nextSection_sectPtr (s : State) : (nextSection s).sectPtr = s.sectPtr + 1 := rfl
@[simp] theorem launch_phase (s : State) : (launch s).phase = .unpack := rfl
@[simp] theorem enterRescale_phase (s : State) : (enterRescale s).phase = .rescale := rfl

/-! The reader after an error keeps its stream. -/

@[simp] theorem loseReader_stream (s : State) : (loseReader s).dp.reader.stream = s.dp.reader.stream := rfl
@[simp] theorem raiseError_stream (e : EngineError) (n : Nat) (s : State) :
    (raiseError e n s).dp.reader.stream = s.dp.reader.stream := rfl
@[simp] theorem raiseError_pos (e : EngineError) (n : Nat) (s : State) :
    (raiseError e n s).dp.reader.pos = s.launchPos + Config.freeNat (s.draws + 4) := rfl

end Sys2Proof.Machine
end

