-- ==== Sys2Proof/Laws/Sections.lean ====
section
/-! SUPPORT. What a section can do, said once: the line range, zero-fill, and the regular sections. -/

namespace Sys2Proof.Machine

/-- Premise P2 spelled out (R346). -/
theorem rangeOk_iff (e : SfbEnd) (s : State) : rangeOk e s = true ↔
    e.toNat ≤ 128 ∧ s.line.toNat ≤ sectionEnd e s ∧ sectionEnd e s ≤ 1024 ∧ (sectionEnd e s - s.line.toNat) % 4 = 0 := by
  unfold rangeOk
  rw [Bool.and_eq_true, Bool.and_eq_true, Bool.and_eq_true, decide_eq_true_iff, decide_eq_true_iff, decide_eq_true_iff,
    beq_iff_eq, and_assoc, and_assoc]

theorem dimOf_dvd (rom : Rom) (cb : Nat) : dimOf rom cb = 2 ∨ dimOf rom cb = 4 := by
  unfold dimOf
  cases (rom.book cb).dim <;> simp [Dim.count]

/-- The tuples of a section fill its lines exactly (R125). -/
theorem sectionTuples_length {cb : Nat} {e : SfbEnd} {s : State} (hr : rangeOk e s = true)
    (hc : (sectionTuples cb e s).outcome = .complete) :
    s.line.toNat + (sectionTuples cb e s).vals.length = sectionEnd e s := by
  obtain ⟨_, hle, _, hmod⟩ := (rangeOk_iff e s).1 hr
  have h := tuples_length s.rom cb _ s.dp hc
  have hd := dimOf_dvd s.rom cb
  unfold sectionTuples
  rw [h]
  rcases hd with hd | hd <;> rw [hd] <;> omega

theorem sectionTuples_natAbs {cb : Nat} (h1 : 1 ≤ cb) (h11 : cb ≤ 11) (e : SfbEnd) (s : State) :
    ∀ v ∈ (sectionTuples cb e s).vals, v.natAbs ≤ 16383 :=
  tuples_natAbs s.rom h1 h11 _ s.dp

theorem maxAbs_ge : ∀ (vs : List Int) (m : Nat), m ≤ maxAbs vs m
  | [], _ => le_refl _
  | _ :: vs, _ => le_trans (Nat.le_max_left _ _) (maxAbs_ge vs _)

theorem maxAbs_mem : ∀ (vs : List Int) (m : Nat), ∀ v ∈ vs, v.natAbs ≤ maxAbs vs m
  | [], _, v, hv => by simp at hv
  | u :: vs, m, v, hv => by
    rcases List.mem_cons.1 hv with rfl | hv
    · exact le_trans (Nat.le_max_right m _) (maxAbs_ge vs _)
    · exact maxAbs_mem vs _ v hv

theorem maxAbs_le {b : Nat} : ∀ (vs : List Int) (m : Nat), m ≤ b → (∀ v ∈ vs, v.natAbs ≤ b) → maxAbs vs m ≤ b
  | [], _, hm, _ => hm
  | v :: vs, m, hm, h =>
    maxAbs_le vs _ (Nat.max_le.2 ⟨hm, h v (by simp)⟩) fun u hu => h u (List.mem_cons_of_mem _ hu)

/-- `MAX` after a section, as a number: nothing is cut off (R29, R192). -/
theorem storeValues_max {vs : List Int} (s : State) (h : ∀ v ∈ vs, v.natAbs ≤ 16383) :
    (storeValues vs s).maxMag.toNat = maxAbs vs s.maxMag.toNat := by
  have hm : s.maxMag.toNat ≤ 65535 := by have := s.maxMag.isLt; omega
  have := maxAbs_le vs s.maxMag.toNat hm fun v hv => le_trans (h v hv) (by norm_num)
  simp only [storeValues, BitVec.toNat_ofNat]
  exact Nat.mod_eq_of_lt (by omega)

/-- Everything a special section can do. -/
theorem zeroSection_cases (e : SfbEnd) (s : State) :
    (rangeOk e s = true ∧ zeroSection e s = .next (nextSection (zeroFill (sectionEnd e s) s))) ∨
    (rangeOk e s = false ∧ zeroSection e s = .refused .sectionRange) := by
  unfold zeroSection
  cases h : rangeOk e s <;> simp

/-- Everything a regular section can do. -/
theorem regular_cases {cb : Nat} (h1 : 1 ≤ cb) (h11 : cb ≤ 11) (e : SfbEnd) (s : State) :
    (rangeOk e s = true ∧ (sectionTuples cb e s).outcome = .complete ∧ regular cb e s =
      .next (nextSection (storeValues (sectionTuples cb e s).vals { s with dp := (sectionTuples cb e s).dp }))) ∨
    (rangeOk e s = true ∧ cb = 11 ∧ (sectionTuples cb e s).outcome = .overrun ∧ regular cb e s =
      .next (raiseError .magnitudeOutOfRange 0xFFFF { s with dp := (sectionTuples cb e s).dp })) ∨
    (rangeOk e s = false ∧ regular cb e s = .refused .sectionRange) := by
  have hid : ¬ (cb < 1 ∨ 11 < cb) := by omega
  unfold regular
  rw [if_neg hid]
  cases hr : rangeOk e s
  · exact .inr (.inr ⟨rfl, by simp⟩)
  · rw [if_pos rfl]
    cases ho : (sectionTuples cb e s).outcome
    · exact .inl ⟨rfl, rfl, by simp [ho]⟩
    · exact .inr (.inl ⟨rfl, tuples_overrun _ _ _ _ ho, rfl, by simp [ho]⟩)

/-- The illegal opcode raises, whatever its operand (R142). -/
theorem regular_twelve (e : SfbEnd) (s : State) :
    regular 12 e s = .next (raiseError .invalidCodebook s.sectPtr.toNat s) := rfl

/-! The decoder's classes (R93, R94). -/

/-- Every descriptor decodes, to the instruction of its `cb` (R93). -/
theorem decodeDescriptor_cases (w : Descriptor) :
    (∃ e, decodeDescriptor w = .ok (.zero e)) ∨ (∃ e, decodeDescriptor w = .ok (.noise e)) ∨
    (∃ e, decodeDescriptor w = .ok (.int2 e)) ∨ (∃ e, decodeDescriptor w = .ok (.int e)) ∨
    (∃ e, decodeDescriptor w = .ok (.rsvd12 e)) ∨
    (∃ i cb e, decodeDescriptor w = .ok i ∧ 1 ≤ cb ∧ cb ≤ 11 ∧ w.cb = BitVec.ofNat 4 cb ∧ ∀ s, exec i s = regular cb e s) := by
  have h16 : ∀ c : BitVec 4, c = 0 ∨ c = 1 ∨ c = 2 ∨ c = 3 ∨ c = 4 ∨ c = 5 ∨ c = 6 ∨ c = 7 ∨ c = 8 ∨ c = 9 ∨ c = 10 ∨
      c = 11 ∨ c = 12 ∨ c = 13 ∨ c = 14 ∨ c = 15 := by decide
  have hd : ∀ c f, w.cb = c → opcodeMap.find? (fun row => row.1 == c) = some (c, f) →
      decodeDescriptor w = .ok (f w.sfbEnd) := by
    intro c f hc hf
    unfold decodeDescriptor; rw [hc, hf]
  have reg : ∀ (cb : Nat) (f : SfbEnd → Instr), 1 ≤ cb → cb ≤ 11 → w.cb = BitVec.ofNat 4 cb →
      opcodeMap.find? (fun row => row.1 == BitVec.ofNat 4 cb) = some (BitVec.ofNat 4 cb, f) →
      (∀ s, exec (f w.sfbEnd) s = regular cb w.sfbEnd s) →
      ∃ i cb e, decodeDescriptor w = .ok i ∧ 1 ≤ cb ∧ cb ≤ 11 ∧ w.cb = BitVec.ofNat 4 cb ∧ ∀ s, exec i s = regular cb e s :=
    fun cb f h1 h2 hc hf he => ⟨_, cb, w.sfbEnd, hd _ _ hc hf, h1, h2, hc, he⟩
  rcases h16 w.cb with h | h | h | h | h | h | h | h | h | h | h | h | h | h | h | h
  · exact .inl ⟨_, hd 0 .zero h rfl⟩
  · exact .inr (.inr (.inr (.inr (.inr (reg 1 .hcb1 (by omega) (by omega) h rfl fun _ => rfl)))))
  · exact .inr (.inr (.inr (.inr (.inr (reg 2 .hcb2 (by omega) (by omega) h rfl fun _ => rfl)))))
  · exact .inr (.inr (.inr (.inr (.inr (reg 3 .hcb3 (by omega) (by omega) h rfl fun _ => rfl)))))
  · exact .inr (.inr (.inr (.inr (.inr (reg 4 .hcb4 (by omega) (by omega) h rfl fun _ => rfl)))))
  · exact .inr (.inr (.inr (.inr (.inr (reg 5 .hcb5 (by omega) (by omega) h rfl fun _ => rfl)))))
  · exact .inr (.inr (.inr (.inr (.inr (reg 6 .hcb6 (by omega) (by omega) h rfl fun _ => rfl)))))
  · exact .inr (.inr (.inr (.inr (.inr (reg 7 .hcb7 (by omega) (by omega) h rfl fun _ => rfl)))))
  · exact .inr (.inr (.inr (.inr (.inr (reg 8 .hcb8 (by omega) (by omega) h rfl fun _ => rfl)))))
  · exact .inr (.inr (.inr (.inr (.inr (reg 9 .hcb9 (by omega) (by omega) h rfl fun _ => rfl)))))
  · exact .inr (.inr (.inr (.inr (.inr (reg 10 .hcb10 (by omega) (by omega) h rfl fun _ => rfl)))))
  · exact .inr (.inr (.inr (.inr (.inr (reg 11 .hcb11 (by omega) (by omega) h rfl fun _ => rfl)))))
  · exact .inr (.inr (.inr (.inr (.inl ⟨_, hd 12 .rsvd12 h rfl⟩))))
  · exact .inr (.inl ⟨_, hd 13 .noise h rfl⟩)
  · exact .inr (.inr (.inl ⟨_, hd 14 .int2 h rfl⟩))
  · exact .inr (.inr (.inr (.inl ⟨_, hd 15 .int h rfl⟩)))

end Sys2Proof.Machine
end

