-- ==== Sys2Proof/Laws/Solver.lean ====
section
/-! SUPPORT. The range of the solver's result. -/

namespace Sys2Proof.Machine

/-- The root is at most `2^16` for a `QT` of 16 or more, whatever the table (R234). -/
theorem solverRoot_le (rom : Rom) (m : Nat) (h : 16 ≤ rom.qt) : solverRoot rom m ≤ 2 ^ 16 := by
  have ht : rom.cbrt (m / 2 ^ 3 + 1) < 2 ^ 32 := by unfold Rom.cbrt; exact BitVec.isLt _
  have hq : 2 ^ 16 ≤ 2 ^ rom.qt := Nat.pow_le_pow_right (by omega) h
  unfold solverRoot
  refine Nat.lt_succ_iff.1 ((Nat.div_lt_iff_lt_mul (by positivity)).2 ?_)
  generalize 2 ^ rom.qt = q at *
  generalize rom.cbrt (m / 2 ^ 3 + 1) = c at *
  omega

theorem bitlen_le {a n : Nat} (h : a < 2 ^ n) : bitlen a ≤ n := by
  unfold bitlen
  split
  · omega
  · rename_i h0
    exact (Nat.log2_lt h0).2 h

/-- `GQ` does not wrap and is at most `QT`, for a `QT` of 16 or more, whatever the table (R236; log 12). -/
theorem globalQWord_range (rom : Rom) (m : Nat) (hm : m ≤ 8192) (h : 16 ≤ rom.qt) :
    ((globalQWord rom m).toNat : Int) = globalQ rom m ∧ (globalQWord rom m).toNat ≤ rom.qt := by
  have hB : bitlen (m * solverRoot rom m) ≤ 30 := by
    refine bitlen_le (lt_of_le_of_lt (Nat.mul_le_mul hm (solverRoot_le rom m h)) (by norm_num))
  have hq : 0 ≤ globalQ rom m ∧ globalQ rom m ≤ rom.qt ∧ globalQ rom m ≤ 30 := by
    unfold globalQ bFloor Config.qTop
    omega
  unfold globalQWord
  rw [BitVec.toNat_ofInt]
  omega

end Sys2Proof.Machine
end

