-- ==== Sys2Proof/Laws/Step.lean ====
section
/-! SUPPORT. What one step can do, said once: the moves of the engine and of the host. -/

namespace Sys2Proof.Machine

/-- The next states of one engine step. -/
inductive EngineMove (s : State) : State → Prop where
  | rest (h : s.busy = false) : EngineMove s s
  | leave (h : s.phase = .unpack) (hp : s.nsect.toNat ≤ s.sectPtr.toNat) : EngineMove s (leaveUnpack s)
  | zeroed (h : s.phase = .unpack) (hn : s.nsect.toNat ≤ 128) (hp : s.sectPtr.toNat < s.nsect.toNat) (e : SfbEnd)
      (hr : rangeOk e s = true) : EngineMove s (nextSection (zeroFill (sectionEnd e s) s))
  | stored (h : s.phase = .unpack) (hn : s.nsect.toNat ≤ 128) (hp : s.sectPtr.toNat < s.nsect.toNat) (cb : Nat) (e : SfbEnd)
      (h1 : 1 ≤ cb) (h11 : cb ≤ 11) (hr : rangeOk e s = true) (hc : (sectionTuples cb e s).outcome = .complete) :
      EngineMove s (nextSection (storeValues (sectionTuples cb e s).vals { s with dp := (sectionTuples cb e s).dp }))
  | illegal (h : s.phase = .unpack) (hn : s.nsect.toNat ≤ 128) (hp : s.sectPtr.toNat < s.nsect.toNat) (hcb : s.fetched.cb = 12#4) :
      EngineMove s (raiseError .invalidCodebook s.sectPtr.toNat s)
  | overrun (h : s.phase = .unpack) (hn : s.nsect.toNat ≤ 128) (hp : s.sectPtr.toNat < s.nsect.toNat) (hcb : s.fetched.cb = 11#4)
      (e : SfbEnd) : EngineMove s (raiseError .magnitudeOutOfRange 0xFFFF { s with dp := (sectionTuples 11 e s).dp })
  | deinterleaved (h : s.phase = .deint) (hg : geometryOk s = true) : EngineMove s
      { s with ds := copyRun s.qs s.deintTargets 0 s.ds, phase := if s.pauseEn then .paused else .solve }
  | tooLarge (h : s.phase = .solve) (hm : 8192 < s.maxMag.toNat) :
      EngineMove s (raiseError .magnitudeOutOfRange s.maxMag.toNat s)
  | solved (h : s.phase = .solve) (hm : s.maxMag.toNat ≤ 8192) :
      EngineMove s (enterRescale { s with gq := globalQWord s.rom s.maxMag.toNat })
  | swept (h : s.phase = .rescale) (hw : s.windows ≤ s.win.toNat) : EngineMove s { s with phase := .done }
  | window (h : s.phase = .rescale) (hw : s.win.toNat < s.windows) (hn : s.bandsIn s.win.toNat ≤ 64)
      (hb : s.bandsIn s.win.toNat ≤ s.bidx.toNat) : EngineMove s (endWindow s)
  | badBand (h : s.phase = .rescale) (hw : s.win.toNat < s.windows) (hn : s.bandsIn s.win.toNat ≤ 64)
      (hb : s.bidx.toNat < s.bandsIn s.win.toNat) (hbad : badWidth s.bandWidth = true) :
      EngineMove s (raiseError .invalidBandGeometry s.bflat.toNat s)
  | band (h : s.phase = .rescale) (hw : s.win.toNat < s.windows) (hn : s.bandsIn s.win.toNat ≤ 64)
      (hb : s.bidx.toNat < s.bandsIn s.win.toNat) (hgood : badWidth s.bandWidth = false) (hr : 0 ≤ s.roff.toInt)
      (hf : s.bflat.toNat < 512) (ht : s.bandTop ≤ (s.windowLen : Int)) : EngineMove s (rescaleBand s)

theorem unpackStep_next {s t : State} (hph : s.phase = .unpack) (h : unpackStep s = .next t) : EngineMove s t := by
  unfold unpackStep at h
  split at h
  · simp at h
  rename_i hn
  simp only [Config.maxSect, not_lt] at hn
  split at h
  · rename_i hp
    rw [decode] at h
    have special : ∀ (i : Instr) (e : SfbEnd), decodeDescriptor s.fetched = .ok i → (∀ s, exec i s = zeroSection e s) →
        EngineMove s t := by
      intro i e hd he
      rw [hd, runDecoded, he] at h
      rcases zeroSection_cases e s with ⟨hr, hx⟩ | ⟨hr, hx⟩
      · rw [hx] at h; cases h; exact .zeroed hph hn hp e hr
      · rw [hx] at h; cases h
    rcases decodeDescriptor_cases s.fetched with ⟨e, hd⟩ | ⟨e, hd⟩ | ⟨e, hd⟩ | ⟨e, hd⟩ | ⟨e, hd⟩ | ⟨i, cb, e, hd, h1, h11, hcb, he⟩
    · exact special _ e hd fun _ => rfl
    · exact special _ e hd fun _ => rfl
    · exact special _ e hd fun _ => rfl
    · exact special _ e hd fun _ => rfl
    · have hcb : s.fetched.cb = 12#4 := by
        have h16 : ∀ c : BitVec 4, c ≠ 12#4 → ∀ e', (match opcodeMap.find? (fun row => row.1 == c) with
            | some row => (Except.ok (row.2 e') : Except DecodeReject Instr)
            | none => .error .noOpcode) ≠ .ok (.rsvd12 e) := by
          intro c hc e'
          have : ∀ c : BitVec 4, c = 0 ∨ c = 1 ∨ c = 2 ∨ c = 3 ∨ c = 4 ∨ c = 5 ∨ c = 6 ∨ c = 7 ∨ c = 8 ∨ c = 9 ∨ c = 10 ∨
              c = 11 ∨ c = 12 ∨ c = 13 ∨ c = 14 ∨ c = 15 := by decide
          rcases this c with rfl | rfl | rfl | rfl | rfl | rfl | rfl | rfl | rfl | rfl | rfl | rfl | rfl | rfl | rfl | rfl
            <;> first | exact absurd rfl hc | (simp [opcodeMap])
        by_contra hc
        exact h16 _ hc s.fetched.sfbEnd hd
      rw [hd, runDecoded] at h
      cases h
      exact .illegal hph hn hp hcb
    · rw [hd, runDecoded, he] at h
      rcases regular_cases h1 h11 e s with ⟨hr, hc, hx⟩ | ⟨hr, hc, ho, hx⟩ | ⟨_, hx⟩
      · rw [hx] at h; cases h; exact .stored hph hn hp cb e h1 h11 hr hc
      · subst hc; rw [hx] at h; cases h; exact .overrun hph hn hp hcb e
      · rw [hx] at h; cases h
  · rename_i hp
    cases h
    exact .leave hph (not_lt.1 hp)

theorem rescaleStep_next {s t : State} (hph : s.phase = .rescale) (h : rescaleStep s = .next t) : EngineMove s t := by
  unfold rescaleStep at h
  split at h
  · rename_i hw; cases h; exact .swept hph hw
  rename_i hw
  split at h
  · cases h
  rename_i hn
  simp only [Config.maxNb, not_lt] at hn
  rw [not_le] at hw
  split at h
  · rename_i hb; cases h; exact .window hph hw hn hb
  rename_i hb
  simp only [not_le] at hb
  unfold bandStep at h
  split at h
  · rename_i hbad; cases h; exact .badBand hph hw hn hb hbad
  rename_i hgood
  split at h
  · cases h
  rename_i hf
  split at h
  · cases h
  rename_i ht
  cases h
  simp only [Config.maxBand, not_or, not_lt, not_le] at hf ht
  exact .band hph hw hn hb (by simpa using hgood) hf.1 hf.2 ht

/-- Everything an engine step can answer as a next state. -/
theorem engineStep_next {s t : State} (h : engineStep s = .next t) : EngineMove s t := by
  unfold engineStep at h
  split at h
  · rename_i hp; cases h; exact .rest (by simp [State.busy, hp])
  · rename_i hp; exact unpackStep_next hp h
  · rename_i hp
    unfold deintStep at h
    split at h
    · rename_i hg; cases h; exact .deinterleaved hp hg
    · cases h
  · rename_i hp; cases h; exact .rest (by simp [State.busy, hp])
  · rename_i hp
    unfold solveStep at h
    split at h
    · rename_i hm; cases h; exact .tooLarge hp hm
    · rename_i hm; cases h; exact .solved hp (not_lt.1 hm)
  · rename_i hp; exact rescaleStep_next hp h
  · rename_i hp; cases h; exact .rest (by simp [State.busy, hp])
  · rename_i hp; cases h; exact .rest (by simp [State.busy, hp])

/-- The next states of one host move, from the state with the move taken off the list. -/
inductive HostMoved (s : State) : HostMove → State → Prop where
  | waited (hb : s.busy = false) : HostMoved s .await s
  | noCommand (v : HostWord) (r : DecodeReject) (hd : decode (.control v) = .error r) : HostMoved s (.writeReg .ctrl v) s
  | command (v : HostWord) (i : Instr) (hd : decode (.control v) = .ok i) (hi : i = .start ∨ i = .resume ∨ i = .abort)
      (t : State) (h : exec i s = .next t) : HostMoved s (.writeReg .ctrl v) t
  | register (r : HostReg) (hr : r ≠ .ctrl) (v : HostWord) : HostMoved s (.writeReg r v) (writeReg r v s)
  | registerRead (r : HostReg) : HostMoved s (.readReg r) (readReg r s)
  | element (sp : Space) (i : Nat) (v : HostWord) : HostMoved s (.writeElem sp i v) (writeElem sp i v s)
  | elementRead (sp : Space) (i : Nat) : HostMoved s (.readElem sp i) (readElem sp i s)
  | reader (hb : s.busy = false) (bits : List Bool) (pos : Nat) : HostMoved s (.positionReader bits pos)
      { s with dp := { s.dp with reader := { s.dp.reader with stream := bits, pos := pos } }, launchPos := pos }
  | reset : HostMoved s .resetInput (resetInput s)

theorem decodeControl_command {v : HostWord} {i : Instr} (h : decodeControl v = .ok i) :
    i = .start ∨ i = .resume ∨ i = .abort := by
  unfold decodeControl at h
  split at h
  · cases h; simp
  · split at h
    · cases h; simp
    · split at h
      · cases h; simp
      · cases h

theorem hostWrite_next {r : HostReg} {v : HostWord} {s t : State} (h : hostWrite r v s = .next t) :
    HostMoved s (.writeReg r v) t := by
  unfold hostWrite at h
  cases r
  case ctrl =>
    dsimp only at h
    cases hd : decode (.control v) with
    | error r => rw [hd] at h; cases h; exact .noCommand v r hd
    | ok i => rw [hd] at h; exact .command v i hd (decodeControl_command hd) t h
  all_goals (cases h; exact .register _ (by simp) v)

/-- Everything a step can answer as a next state: an engine move, with or without a pending entry taken off, or the host
move that was pending. -/
theorem step_next {s t : State} (h : step s = .next t) :
    ((s.pending = [] ∨ (s.busy = true ∧ ∃ rest, s.pending = .await :: rest)) ∧ EngineMove s t)
    ∨ (∃ rest, s.pending = .engine :: rest ∧ EngineMove { s with pending := rest } t)
    ∨ ∃ m rest, s.pending = m :: rest ∧ HostMoved { s with pending := rest } m t := by
  unfold step advance at h
  split at h
  · rename_i hp; exact .inl ⟨.inl hp, engineStep_next h⟩
  · rename_i rest hp; exact .inr (.inl ⟨rest, hp, engineStep_next h⟩)
  · rename_i rest hp
    split at h
    · rename_i hb; exact .inl ⟨.inr ⟨hb, rest, hp⟩, engineStep_next h⟩
    · rename_i hb; cases h; exact .inr (.inr ⟨_, rest, hp, .waited (by simpa [State.busy] using hb)⟩)
  · rename_i r v rest hp; exact .inr (.inr ⟨_, rest, hp, hostWrite_next h⟩)
  · rename_i r rest hp; cases h; exact .inr (.inr ⟨_, rest, hp, .registerRead r⟩)
  · rename_i sp i v rest hp; cases h; exact .inr (.inr ⟨_, rest, hp, .element sp i v⟩)
  · rename_i sp i rest hp; cases h; exact .inr (.inr ⟨_, rest, hp, .elementRead sp i⟩)
  · rename_i bits pos rest hp
    unfold positionReader at h
    split at h
    · cases h
    · rename_i hb; cases h; exact .inr (.inr ⟨_, rest, hp, .reader (by simpa using hb) bits pos⟩)
  · rename_i rest hp; cases h; exact .inr (.inr ⟨_, rest, hp, .reset⟩)

end Sys2Proof.Machine
end

