-- ==== Sys2Proof/Tests/Slice0.lean ====
section
/-! SUPPORT. Tests: expected results from the spec's worked examples and vectors (95_test_vectors.md and the rules named),
and for every statement of Certificates/Slice0/Obligations.lean with hypotheses a witness that meets them. -/

namespace Sys2Proof.Tests

open Sys2Proof.Machine

set_option Elab.async false

/-! Helpers. -/

/-- The machine after reset with the configuration of the vectors, `HCB_TEST` (R166). -/
def base : State := { State.reset with rom := testRom }

/-- The next state, if there is one. -/
def nextOf (o : Host.Outcome State Fault Refusal) : Option State :=
  match o with
  | .next t => some t
  | .fault _ => none
  | .refused _ => none

/-- Why a step was refused. -/
def refusalOf (o : Host.Outcome State Fault Refusal) : Option Refusal :=
  match o with
  | .next _ => none
  | .fault _ => none
  | .refused r => some r

/-- `n` elements as signed integers. -/
def signedFrom {w : Nat} (m : Mem w) (i n : Nat) : List Int := (List.range n).map fun k => (m.read (i + k)).toInt

/-- A memory holding the given values from index 0 on. -/
def filled {w : Nat} (vs : List Int) : Mem w := storeRun vs 0 (Mem.empty w)

/-- A bit string as in R98: a list of 0 and 1. -/
def bitString (l : List Nat) : List Bool := l.map fun b => b == 1

/-- UNPACK at section 0 of one, the descriptor `w`, from line `line`, with `STOP[k] = stop`, stale 7 in `QS` and `DS`, and
the given bits in the reader. -/
def unpacking (w : Descriptor) (line : BitVec 11) (k : Nat) (stop : BitVec 11) (bits : List Nat) : State :=
  { base with
    phase := .unpack, nsect := 1, line := line
    sect := (Mem.empty 16).write 0 w
    stop := (Mem.empty 11).write k stop
    qs := filled (List.replicate 36 7), ds := filled (List.replicate 36 7)
    dp := { base.dp with reader := { stream := bitString bits, pos := 0, past := 0 } } }

/-- What a section leaves: four lines of `QS` from `i`, `MAX`, `LINE`, the bits read, `SECT_PTR`. -/
def sectionResult (s : State) (i : Nat) : Option (List Int × Nat × Nat × Nat × Nat) :=
  (nextOf (step s)).map fun t => (signedFrom t.qs i 4, t.maxMag.toNat, t.line.toNat, t.dp.reader.pos, t.sectPtr.toNat)

/-- RESCALE of a long block at its first band: samples, `MAX`, `GQ`, one band up to `top`, `SF[0] = sf`. -/
def rescaling (samples : List Int) (maxMag : BitVec 16) (gq : BitVec 5) (top sf : BitVec 16) : State :=
  { base with
    phase := .rescale, maxMag := maxMag, gq := gq, qs := filled samples
    nb := (Mem.empty 7).write 0 1, btop := (Mem.empty 16).write 0 top, sf := (Mem.empty 16).write 0 sf }

/-! WellFormed. -/

theorem test_wf_refuses_sfbEnd_129 : (Instr.zero 129#8).wf = false := by decide
theorem test_wf_refuses_sfbEnd_255 : (Instr.hcb11 255#8).wf = false := by decide
theorem test_wf_accepts_sfbEnd_128 : (Instr.rsvd12 128#8).wf = true := by decide

/-! Decoding: words written out from R91, R93, R96 and the examples of R98, R99. -/

theorem test_decode_zero : decodeTableWord 16 0b0000000000110001 = some (.zero 49#8) := by decide
theorem test_decode_hcb1 : decodeTableWord 16 0b0001000000000001 = some (.hcb1 1#8) := by decide
theorem test_decode_hcb2 : decodeTableWord 16 0b0010000000000010 = some (.hcb2 2#8) := by decide
theorem test_decode_hcb3 : decodeTableWord 16 0b0011000000000001 = some (.hcb3 1#8) := by decide
theorem test_decode_hcb4 : decodeTableWord 16 0b0100000010000000 = some (.hcb4 128#8) := by decide
theorem test_decode_hcb5 : decodeTableWord 16 0b0101000000000101 = some (.hcb5 5#8) := by decide
theorem test_decode_hcb6 : decodeTableWord 16 0b0110000000000110 = some (.hcb6 6#8) := by decide
theorem test_decode_hcb7 : decodeTableWord 16 0b0111000000000111 = some (.hcb7 7#8) := by decide
theorem test_decode_hcb8 : decodeTableWord 16 0b1000000000001000 = some (.hcb8 8#8) := by decide
theorem test_decode_hcb9 : decodeTableWord 16 0b1001000000001001 = some (.hcb9 9#8) := by decide
theorem test_decode_hcb10 : decodeTableWord 16 0b1010000000001010 = some (.hcb10 10#8) := by decide
theorem test_decode_hcb11 : decodeTableWord 16 0b1011000000001011 = some (.hcb11 11#8) := by decide
theorem test_decode_rsvd12 : decodeTableWord 16 0b1100000000000101 = some (.rsvd12 5#8) := by decide
theorem test_decode_noise : decodeTableWord 16 0b1101000000000101 = some (.noise 5#8) := by decide
theorem test_decode_int2 : decodeTableWord 16 0b1110000000000110 = some (.int2 6#8) := by decide
theorem test_decode_int : decodeTableWord 16 0b1111000000001100 = some (.int 12#8) := by decide
theorem test_decode_start : decodeTableWord 32 0b001 = some .start := by decide
theorem test_decode_resume : decodeTableWord 32 0b010 = some .resume := by decide
theorem test_decode_abort : decodeTableWord 32 0b100 = some .abort := by decide
theorem test_decode_ignores_reserved : decodeTableWord 16 0b0011111100000001 = some (.hcb3 1#8) := by decide
theorem test_decode_no_command : decode (.control 0xFFFFFFF8#32) = .error .noCommand := rfl
/-- V1: the special ids. -/
theorem test_special_ids : (List.range 16).filter (fun c => special (BitVec.ofNat 4 c)) = [0, 13, 14, 15] := by decide

/-! Configuration. -/

/-- R42, anchors. -/
theorem test_cbrt_anchors : [0, 1, 2, 3, 27, 64, 1000, 1024, 1025].map testRom.cbrt =
    [0, 0x08000000, 0x0A14517C, 0x0B89BA24, 0x18000000, 0x20000000, 0x50000000, 0x50A28BE6, 0x50A9438D] := by decide +kernel
/-- A comb of `n` levels: its longest codeword has `n` bits. -/
def comb : (n : Nat) → CodeTree
  | 0 => .leaf 0#9
  | n + 1 => .node (.leaf 0#9) (comb n)

/-- The default tables with another tree for codebook 1. -/
def withFirstTree (t : CodeTree) : RomTables := defaultTables (t :: testTrees.tail)

/-- R163 (c): a codeword of 32 bits is a configuration of HD11, one of 33 bits is none, and `LMAX` is at most 32. -/
theorem test_configure_depth :
    [withFirstTree (comb 32), withFirstTree (comb 33), { withFirstTree (comb 33) with lmax := 40 }].map
      (fun r => r.configure.isSome) = [true, false, false] := by decide +kernel
/-- R161, R163 (d): an index of 81 in a book of 81, and an empty codeword. -/
theorem test_configure_leaves :
    [withFirstTree (.node (.leaf 80#9) (.leaf 0#9)), withFirstTree (.node (.leaf 81#9) (.leaf 0#9)),
      withFirstTree (.leaf 0#9)].map (fun r => r.configure.isSome) = [true, false, false] := by decide +kernel
/-- R40: `dimension = 4` exactly when `id < DIM_BOUNDARY`. -/
theorem test_configure_meta : ({ defaultTables testTrees with dimBoundary := 6 }).configure.isSome = false := by decide +kernel
/-- R166: `100110` is index 38 of codebook 3; `111111111` is index 288 of codebook 11. -/
theorem test_walk_cb3 : ((testRom.tree 3).walk ⟨bitString [1,0,0,1,1,0], 0, 0⟩).1 = 38#9 := by decide +kernel
theorem test_walk_cb11 :
    ((testRom.tree 11).walk ⟨bitString [1,1,1,1,1,1,1,1,1], 0, 0⟩).1 = 288#9 := by decide +kernel
/-- R164: a two-leaf tree in the node format, and a child word with bits 14:9 set is still a leaf. -/
theorem test_node_rom :
    treeOfNodes [(0x8005#16, 0x0001#16), (0x8001#16, 0x8002#16)] 0#15 = some (.node (.leaf 5#9) (.node (.leaf 1#9) (.leaf 2#9))) := by
  decide

/-! Sections, one step each: the examples of R130 to R145. -/

theorem test_zero : (nextOf (step (unpacking 0x0001#16 0 0 4 []))).map
    (fun t => (signedFrom t.qs 0 6, signedFrom t.ds 0 6, t.line.toNat, t.maxMag.toNat, t.dp.reader.pos)) =
    some ([0, 0, 0, 0, 7, 7], [0, 0, 0, 0, 7, 7], 4, 0, 0) := by decide +kernel
theorem test_noise : (nextOf (step (unpacking 0xD005#16 8 4 20 []))).map
    (fun t => (signedFrom t.qs 7 14, signedFrom t.ds 19 2, t.line.toNat)) =
    some ([7, 0, 0, 0, 0, 0, 0, 0, 0, 0, 0, 0, 0, 7], [0, 7], 20) := by decide +kernel
theorem test_int2 : (nextOf (step (unpacking 0xE006#16 20 5 24 []))).map
    (fun t => (signedFrom t.qs 19 6, signedFrom t.ds 19 6, t.line.toNat)) =
    some ([7, 0, 0, 0, 0, 7], [7, 0, 0, 0, 0, 7], 24) := by decide +kernel
theorem test_int : (nextOf (step (unpacking 0xF007#16 24 6 32 []))).map
    (fun t => (signedFrom t.qs 23 10, t.line.toNat, t.sectPtr.toNat)) =
    some ([7, 0, 0, 0, 0, 0, 0, 0, 0, 7], 32, 1) := by decide +kernel
theorem test_hcb1 : sectionResult (unpacking 0x1001#16 0 0 4 [1,0,1,0,0,1]) 0 = some ([0, 0, 0, 1], 1, 4, 6, 1) := by decide +kernel
theorem test_hcb2 : sectionResult (unpacking 0x2001#16 0 0 4 [0,0,0,1,0,1]) 0 = some ([-1, -1, 0, 1], 1, 4, 6, 1) := by
  decide +kernel
theorem test_hcb3 : sectionResult (unpacking 0x3001#16 0 0 4 [1,0,0,1,1,0, 0,1,0]) 0 = some ([1, -1, 0, 2], 2, 4, 9, 1) := by
  decide +kernel
theorem test_hcb4 : sectionResult (unpacking 0x4001#16 0 0 4 [0,1,1,0,1,1, 1]) 0 = some ([-1, 0, 0, 0], 1, 4, 7, 1) := by
  decide +kernel
theorem test_hcb5 : sectionResult (unpacking 0x5001#16 0 0 4 [0,0,1,1,0,1, 1,0,1,0,0,0]) 0 = some ([-3, 0, 0, 0], 3, 4, 12, 1) := by
  decide +kernel
theorem test_hcb6 : sectionResult (unpacking 0x6001#16 0 0 4 [1,0,1,1,0,0, 1,0,1,0,0,0]) 0 = some ([0, 4, 0, 0], 4, 4, 12, 1) := by
  decide +kernel
theorem test_hcb7 : sectionResult (unpacking 0x7001#16 0 0 4 [0,1,1,1,0,1, 1,0, 0,0,0,0,0,0]) 0 =
    some ([-3, 5, 0, 0], 5, 4, 14, 1) := by decide +kernel
theorem test_hcb8 : sectionResult (unpacking 0x8001#16 0 0 4 [0,0,1,0,0,0, 0, 0,0,0,0,0,0]) 0 =
    some ([1, 0, 0, 0], 1, 4, 13, 1) := by decide +kernel
theorem test_hcb9 : sectionResult (unpacking 0x9001#16 0 0 4 [0,0,0,1,1,1,0, 1,1, 0,0,0,0,0,0,0]) 0 =
    some ([-1, -1, 0, 0], 1, 4, 16, 1) := by decide +kernel
theorem test_hcb10 : sectionResult (unpacking 0xA001#16 0 0 4 [0,0,1,1,0,1,1, 0,1, 0,0,0,0,0,0,0]) 0 =
    some ([2, -1, 0, 0], 2, 4, 16, 1) := by decide +kernel
theorem test_hcb11 : sectionResult (unpacking 0xB001#16 0 0 4 [0,0,0,1,0,0,0,0, 1, 1,0, 0,0,0,1,1, 0,0,0,0,0,0,0,0]) 0 =
    some ([0, -35, 0, 0], 35, 4, 24, 1) := by decide +kernel

/-- HCB11 with ten one-bits after the codeword of (0, 16) and its sign (R189). -/
def overrunState : State := unpacking 0xB001#16 0 0 4 [0,0,0,1,0,0,0,0, 0, 1,1,1,1,1,1,1,1,1,1]

theorem test_hcb11_overrun : (nextOf (step overrunState)).map (fun t => (t.phase, t.errCode, t.errInfo, t.sectPtr)) =
    some (.error, 2#2, 0xFFFF#16, 0#8) := by decide +kernel

/-- R142: section 1 of `[0x3001, 0xC002]` raises. -/
def rsvd12State : State :=
  { unpacking 0x3001#16 4 1 8 [] with nsect := 2, sectPtr := 1, sect := filled [0x3001, 0xC002] }

theorem test_rsvd12 : (nextOf (step rsvd12State)).map (fun t => (t.phase, t.errCode, t.errInfo)) = some (.error, 1#2, 1#16) := by
  decide +kernel

/-! Commands. -/

theorem test_start : (nextOf (step { base with pending := [.writeReg .ctrl 1] })).map (fun t => (t.phase, t.sectPtr, t.line)) =
    some (.unpack, 0#8, 0#11) := by decide +kernel
theorem test_resume : (nextOf (step { base with phase := .paused, pending := [.writeReg .ctrl 2] })).map State.phase = some .solve := by
  decide +kernel
/-- R286: `CTRL = 3` in PAUSED selects START, which is ignored. -/
theorem test_start_and_resume_in_paused :
    (nextOf (step { base with phase := .paused, pending := [.writeReg .ctrl 3] })).map State.phase = some .paused := by decide +kernel
/-- R283: `ERR = 0x00050003`, then ABORT. -/
theorem test_abort :
    (nextOf (step { base with phase := .error, errCode := 3, errInfo := 5, pending := [.writeReg .ctrl 4] })).map
      (fun t => (t.phase, t.errWord)) = some (.idle, 0#32) := by decide +kernel
theorem test_err_word : { base with phase := .error, errCode := 3, errInfo := 5 }.errWord = 0x00050003#32 := by decide
theorem test_withFetchWord_runs :
    (nextOf (step (State.reset.withFetchWord 16 0xC000))).map (fun t => (t.phase, t.errCode)) = some (.error, 1#2) := by decide +kernel
theorem test_withFetchWord_runs_hcb11 :
    (nextOf (step (State.reset.withFetchWord 16 0xB000))).map (fun t => (t.phase, t.sectPtr)) = some (.unpack, 1#8) := by
  decide +kernel

/-! SOLVE and RESCALE: the tables of R237 and R265. -/

theorem test_solver : [0, 1, 7, 8, 16, 100, 1024, 4096, 8191, 8192].map (globalQ testRom) = [27, 27, 27, 25, 24, 21, 17, 14, 13, 13] := by
  decide +kernel
theorem test_rescale_small :
    [rescaleSample testRom 27 1 1, rescaleSample testRom 27 3 (-2), rescaleSample testRom 25 1 (-12), rescaleSample testRom 24 2 3] =
    [79806464, -284397522, -548133574, 51329500] := by decide +kernel
theorem test_rescale_large :
    [rescaleSample testRom 17 0 1025, rescaleSample testRom 16 2 2000, rescaleSample testRom 13 3 8192,
      rescaleSample testRom 13 3 (-8191)] = [677295354, 1167720026, 1137590093, -1137404929] := by decide +kernel
/-- R5, R234, R236, R255 with `QT = 26` and the table halved: for `M = 2` the ceiling of `GQ` is 26, and the sample 2 gives
half the coefficient it has with 27 (R257), `0x0A14517C / 2`. -/
def coarserTables : RomTables := { defaultTables testTrees with qt := 26, cbrtTab := defaultCbrtTab.map (fun c : BitVec 32 => c.ushiftRight 1) }

theorem test_qt_26 : coarserTables.configure.map (fun rom => (globalQ rom 2, rescaleSample rom 26 0 2)) =
    some (26, 0x050A28BE) := by decide +kernel
/-- R254. -/
theorem test_exponents : ([0, 5, -1, -4, -5] : List Int).map (fun e => (fineIndex e, coarsePart e)) =
    [(0, 1), (1, 2), (3, 0), (0, 0), (3, -1)] := by decide

/-- R264: the document's frame at its one band. -/
def scenario : State := rescaling [1, -1, 0, 2] 2 27 4 100

theorem test_band : (nextOf (step scenario)).map (fun t => (signedFrom t.coef 0 4, (t.qfmt.read 0).toInt, t.roff.toInt)) =
    some ([67108864, -67108864, 0, 169103740], 26, 4) := by decide +kernel

/-- R251: a long block's `ROFF` is the top of its last band after the sweep; a window that is not the last one is followed by
one that begins at 0. -/
theorem test_sweep_end :
    [{ scenario with bidx := 1, roff := 4 }, { scenario with short := true, bidx := 1, roff := 4 }].map
      (fun s => (nextOf (step s)).map fun t => (t.win.toNat, t.roff.toNat)) = [some (1, 4), some (1, 0)] := by decide +kernel

/-! DEINT: two groups of 3 and 5 windows, bands of 4 and 8 lines; expected places worked out by hand from R212. -/

/-- Lines of `QS` numbered from 0. Loaded as R343 asks: sections end at entries 1 and 3 of `STOP`, and entries 0 and 2, which
no section names, are stale. -/
def deinterleaving : State :=
  { base with
    phase := .deint, short := true, ngroup := 2, nsfbs := 2
    glen := filled [3, 5], soff := filled [0, 4, 12], stop := filled [7, 36, 7, 96]
    nsect := 2, sect := filled [0x0002, 0x0004]
    qs := filled ((List.range 96).map Int.ofNat) }

theorem test_deint_group0 : (nextOf (step deinterleaving)).map
    (fun t => (signedFrom t.ds 0 13, signedFrom t.ds 128 6, t.phase)) =
    some ([0, 1, 2, 3, 12, 13, 14, 15, 16, 17, 18, 19, 0], [4, 5, 6, 7, 20, 21], .solve) := by decide +kernel
theorem test_deint_group1 : (nextOf (step deinterleaving)).map
    (fun t => (signedFrom t.ds 384 6, signedFrom t.ds 896 12)) =
    some ([36, 37, 38, 39, 56, 57], [52, 53, 54, 55, 88, 89, 90, 91, 92, 93, 94, 95]) := by decide +kernel

/-- R346 P4: `STOP[3]` is named and is not 96. -/
theorem test_deint_named_stop :
    refusalOf (step { deinterleaving with stop := filled [7, 36, 7, 92] }) = some .groupGeometry := by decide +kernel

/-! Witnesses: for every statement with hypotheses, inputs that meet all of them. -/

theorem next_of {s : State} {p : State → Bool} (h : (nextOf (step s)).any p = true) : ∃ t, step s = .next t ∧ p t = true := by
  cases hs : step s with
  | next t => exact ⟨t, rfl, by simpa [hs, nextOf] using h⟩
  | fault f => simp [hs, nextOf] at h
  | refused r => simp [hs, nextOf] at h

/-- The last place of a full section table. -/
def lastSection (w : Descriptor) (pending : List HostMove) : State :=
  { base with phase := .unpack, nsect := 128, sectPtr := 127, sect := (Mem.empty 16).write 127 w, pending := pending }

theorem witness_StepRunsFetchedSection (ms : List HostMove) (h : ms = [] ∨ ms = [.engine] ∨ ms = [.await, .engine]) :
    (lastSection 0x3001#16 ms).phase = .unpack ∧ (lastSection 0x3001#16 ms).nsect.toNat ≤ 128
      ∧ (lastSection 0x3001#16 ms).sectPtr.toNat < (lastSection 0x3001#16 ms).nsect.toNat
      ∧ decode (.descriptor ((lastSection 0x3001#16 ms).sect.read (lastSection 0x3001#16 ms).sectPtr.toNat)) = .ok (.hcb3 1#8)
      ∧ engineMoves (lastSection 0x3001#16 ms) := by
  rcases h with rfl | rfl | rfl
  · exact ⟨rfl, by decide, by decide, by decide, .inl rfl⟩
  · exact ⟨rfl, by decide, by decide, by decide, .inr (.inl ⟨[], rfl⟩)⟩
  · exact ⟨rfl, by decide, by decide, by decide, .inr (.inr ⟨rfl, [.engine], rfl⟩)⟩

/-- Both classes, at the ids next to each other: 0, 1, 11, 12, 13, 15. -/
theorem witness_ClassDecidesTheSection (w : Descriptor) (h : w ∈ [0x0001#16, 0x1001#16, 0xB001#16, 0xC001#16, 0xD001#16, 0xF001#16]) :
    (lastSection w []).phase = .unpack ∧ (lastSection w []).nsect.toNat ≤ 128
      ∧ (lastSection w []).sectPtr.toNat < (lastSection w []).nsect.toNat ∧ (lastSection w []).pending = [] := by
  simp only [List.mem_cons, List.not_mem_nil, or_false] at h
  rcases h with rfl | rfl | rfl | rfl | rfl | rfl <;> decide

theorem witness_ControlWriteRunsOneCommand (v : HostWord) (_ : v ∈ [0#32, 1#32, 2#32, 4#32, 7#32]) :
    { base with pending := [.writeReg .ctrl v] }.pending = .writeReg .ctrl v :: [] := rfl

theorem witness_RestingStatesKeepEverything (p : Phase) (_ : p ∈ [Phase.idle, .paused, .done, .error]) :
    engineMoves { base with phase := p } ∧ engineMoves { base with phase := p, pending := [.engine] } :=
  ⟨.inl rfl, .inr (.inl ⟨[], rfl⟩)⟩

/-- One state for each reason. -/
theorem witness_RefusedOnlyForABrokenPremise :
    [{ base with phase := .unpack, nsect := 129 }, unpacking 0x3081#16 0 0 4 [],
      { base with phase := .deint },
      { base with phase := .rescale, nb := (Mem.empty 7).write 0 65 }, rescaling [] 0 27 1028 100 |> fun s => { s with roff := 4 },
      { base with phase := .solve, pending := [.positionReader [] 0] }].map (fun s => refusalOf (step s)) =
    [some .sectionTable, some .sectionRange, some .groupGeometry, some .bandWindow, some .bandWindow,
      some .readerInUse] := by decide +kernel

/-- Each clause of P2 broken: `sfb_end` 129, an end before `LINE`, an end past 1024, a span of 6. -/
theorem witness_BrokenSectionRangeIsRefused :
    ¬ premiseP2 129#8 (unpacking 0 0 0 4 []) ∧ ¬ premiseP2 1#8 (unpacking 0 8 0 4 []) ∧ ¬ premiseP2 1#8 (unpacking 0 0 0 1028 [])
      ∧ ¬ premiseP2 1#8 (unpacking 0 0 0 6 []) ∧ Instr.int 129#8 ∈ specialSections 129#8
      ∧ (Instr.hcb11 1#8, 11) ∈ regularSections 1#8 := by
  unfold premiseP2
  decide +kernel

/-- P2 at an empty section, a full spectrum, and the last band. -/
theorem witness_SpecialSectionsZeroFill :
    premiseP2 0#8 (unpacking 0 0 0 4 []) ∧ premiseP2 1#8 (unpacking 0 0 0 1024 []) ∧ premiseP2 128#8 (unpacking 0 1020 127 1024 [])
      ∧ (∀ i ∈ [Instr.zero 1#8, .noise 1#8, .int2 1#8, .int 1#8], i ∈ specialSections 1#8) := by
  unfold premiseP2
  decide +kernel

theorem witness_EmptySectionOnlyFallsThrough :
    sectionEnd 0#8 (unpacking 0 0 0 4 []) = (unpacking 0 0 0 4 []).line.toNat
      ∧ sectionEnd 128#8 (unpacking 0 1024 127 1024 []) = (unpacking 0 1024 127 1024 []).line.toNat
      ∧ (unpacking 0 1024 127 1024 []).line.toNat ≤ 1024 := by decide +kernel

theorem witness_SectionsOneToTenComplete :
    premiseP2 1#8 (unpacking 0x1001#16 0 0 4 [])
      ∧ (Instr.hcb1 1#8, 1) ∈ sectionsOneToTen 1#8 ∧ (Instr.hcb10 1#8, 10) ∈ sectionsOneToTen 1#8 := by
  unfold premiseP2
  decide +kernel

theorem witness_EscapeSectionCompletesOrRaises : premiseP2 1#8 overrunState := by
  unfold premiseP2
  decide +kernel

/-- R134: a tuple of codebook 3. -/
theorem codes_quad : CodesTuples testRom 3 [[1, -1, 0, 2]] (bitString [1,0,0,1,1,0, 0,1,0]) :=
  ⟨bitString [1,0,0,1,1,0, 0,1,0], [], rfl, ⟨⟨.quad, false, 0, 3⟩, bitString [1,0,0,1,1,0], 38#9, rfl, by decide +kernel, rfl,
    by decide, by decide, by decide, by decide⟩, rfl⟩

/-- R141: tuples of codebook 11, one with an escape sequence. -/
theorem codes_escape : CodesTuples testRom 11 [[0, -35], [0, 0]]
    (bitString [0,0,0,1,0,0,0,0, 1, 1,0, 0,0,0,1,1] ++ bitString [0,0,0,0,0,0,0,0]) :=
  ⟨bitString [0,0,0,1,0,0,0,0, 1, 1,0, 0,0,0,1,1], bitString [0,0,0,0,0,0,0,0], rfl,
   ⟨⟨.pair, false, 0, 17⟩, bitString [0,0,0,1,0,0,0,0], 16#9, rfl, by decide +kernel, rfl,
    by decide, by decide, by decide, by decide⟩,
   bitString [0,0,0,0,0,0,0,0], [], rfl, ⟨⟨.pair, false, 0, 17⟩, bitString [0,0,0,0,0,0,0,0], 0#9, rfl, by decide +kernel, rfl,
    by decide, by decide, by decide, by decide⟩, rfl⟩

theorem witness_CodedSectionDecodesToItsValues :
    (let s := unpacking 0x3001#16 0 0 4 [1,0,0,1,1,0, 0,1,0]
     (Instr.hcb3 1#8, 3) ∈ regularSections 1#8 ∧ premiseP2 1#8 s
      ∧ CodesTuples s.rom 3 [[1, -1, 0, 2]] (bitString [1,0,0,1,1,0, 0,1,0])
      ∧ s.line.toNat + [[1, -1, 0, 2]].flatten.length = sectionEnd 1#8 s
      ∧ s.dp.reader.supplies (bitString [1,0,0,1,1,0, 0,1,0]))
    ∧ (let s := unpacking 0xB080#16 1020 127 1024 [0,0,0,1,0,0,0,0, 1, 1,0, 0,0,0,1,1, 0,0,0,0,0,0,0,0]
       (Instr.hcb11 128#8, 11) ∈ regularSections 128#8 ∧ premiseP2 128#8 s
        ∧ CodesTuples s.rom 11 [[0, -35], [0, 0]]
            (bitString [0,0,0,1,0,0,0,0, 1, 1,0, 0,0,0,1,1] ++ bitString [0,0,0,0,0,0,0,0])
        ∧ s.line.toNat + [[0, -35], [0, 0]].flatten.length = sectionEnd 128#8 s
        ∧ s.dp.reader.supplies (bitString [0,0,0,1,0,0,0,0, 1, 1,0, 0,0,0,1,1] ++ bitString [0,0,0,0,0,0,0,0])) := by
  refine ⟨⟨by decide, ?_, codes_quad, by decide +kernel, ?_⟩,
    ⟨by decide, ?_, codes_escape, by decide +kernel, ?_⟩⟩ <;>
    first
    | (unfold premiseP2; decide +kernel)
    | (unfold Reader.supplies; decide)

theorem witness_EscapeOverrunInStreamRaises :
    premiseP2 1#8 overrunState ∧ CodesTuples overrunState.rom 11 [] []
      ∧ CodesOverrun overrunState.rom (bitString [0,0,0,1,0,0,0,0, 0, 1,1,1,1,1,1,1,1,1,1])
      ∧ overrunState.line.toNat + ([] : List (List Int)).flatten.length < sectionEnd 1#8 overrunState
      ∧ overrunState.dp.reader.supplies ([] ++ bitString [0,0,0,1,0,0,0,0, 0, 1,1,1,1,1,1,1,1,1,1]) := by
  refine ⟨by unfold premiseP2; decide +kernel, rfl,
    ⟨⟨.pair, false, 0, 17⟩, bitString [0,0,0,1,0,0,0,0], 16#9, [0, 16], [0], 16, [], rfl,
      by decide +kernel, rfl, rfl, by decide, by decide, by decide, by decide⟩,
    by decide +kernel, by unfold Reader.supplies; decide⟩

theorem witness_FirstBitReadIsMostSignificant :
    (⟨bitString [1,1,0,1], 1, 0⟩ : Reader).supplies (bitsOf 5 3) ∧ 5 < 2 ^ 3 := by
  unfold Reader.supplies
  decide

/-- A tree of two levels. -/
def smallTree : CodeTree := .node (.leaf 5#9) (.node (.leaf 1#9) (.leaf 2#9))

theorem witness_WalkReadsOneCodeword :
    ([true, false], 1#9) ∈ smallTree.code ∧ (⟨bitString [0,1,0], 1, 0⟩ : Reader).supplies [true, false] := by
  unfold Reader.supplies
  decide

theorem witness_NodeRomWalkAgrees :
    treeBelow [(0x8005#16, 0x0001#16), (0x8001#16, 0x8002#16)] 2 (.inner 0) = some smallTree := by decide

theorem witness_DigitsAreTheIndex :
    0 < (⟨.quad, true, 1, 3⟩ : CodeBook).modulus ∧ 80 < (⟨.quad, true, 1, 3⟩ : CodeBook).indexBound
      ∧ 288 < (⟨.pair, false, 0, 17⟩ : CodeBook).indexBound := by decide

theorem witness_SignBitsOfNonzeroDigits : (⟨bitString [0,1], 0, 0⟩ : Reader).supplies (signCode [1, 0, -1]) := by
  unfold Reader.supplies
  decide

/-- A reader at the start of the given bits. -/
def reading (bits : List Bool) : Reader := { stream := bits, pos := 0, past := 0 }

/-- Both ends of the range, and the overrun. -/
theorem witness_EscapeSequenceExpands :
    (reading (bitString [0, 0,0,0,0])).supplies (escapeCode 16)
      ∧ (reading (List.replicate 9 true ++ false :: List.replicate 13 true)).supplies (escapeCode 16383)
      ∧ (reading (List.replicate 10 true)).supplies (List.replicate 10 true)
      ∧ (expand (-16) ⟨0, 0⟩ (reading (bitString [0, 0,0,0,1]))).value = some (-17) := by
  unfold Reader.supplies
  decide +kernel

theorem witness_DimensionPartition :
    testRom.dimBoundary = 5
      ∧ (∀ cb ∈ [1, 4, 5, 11], (tuple testRom cb { base.dp with reader := reading (List.replicate 12 false) }).outcome = .complete) := by
  decide +kernel

theorem witness_TupleLeavesItsRegisters :
    (tuple testRom 4 { base.dp with reader := reading (List.replicate 12 false) }).outcome = .complete
      ∧ (tuple testRom 11 { base.dp with reader := reading (List.replicate 12 false) }).outcome = .complete := by decide +kernel

theorem witness_TupleReadsBoundedBits :
    (tuple testRom 11 { base.dp with reader := reading (List.replicate 12 false) }).outcome = .complete
      ∧ (tuple testRom 11 overrunState.dp).outcome = .overrun := by decide +kernel

/-- SOLVE above the limit. -/
def overLimit : State := { base with phase := .solve, maxMag := 8193 }

/-- RESCALE at a band of width 3. -/
def badBand : State := rescaling [1] 1 27 3 100

/-- One state for each row of R308. -/
theorem witness_OnlyTheseRaise (s : State) (h : s ∈ [rsvd12State, overrunState, overLimit, badBand]) :
    s.phase ≠ .error ∧ ∃ t, step s = .next t ∧ (t.phase == .error) = true := by
  refine ⟨?_, next_of ?_⟩ <;> revert s h <;> decide +kernel

theorem witness_OnlyTheseRaise_rsvd12 :
    rsvd12State.phase = .unpack ∧ rsvd12State.nsect.toNat ≤ 128 ∧ rsvd12State.sectPtr.toNat < rsvd12State.nsect.toNat
      ∧ engineMoves rsvd12State
      ∧ decode (.descriptor (rsvd12State.sect.read rsvd12State.sectPtr.toNat)) = .ok (.rsvd12 2#8) :=
  ⟨rfl, by decide, by decide, .inl rfl, rfl⟩

theorem witness_ErrorKeepsWhatIsDefined : overrunState.phase ≠ .error ∧ ∃ t, step overrunState = .next t ∧ (t.phase == .error) = true :=
  witness_OnlyTheseRaise overrunState (by simp)

theorem witness_SolverRejectsLargeMaximum : overLimit.phase = .solve ∧ overLimit.pending = [] ∧ 8192 < overLimit.maxMag.toNat := by
  decide

theorem witness_SolverSetsGlobalQFormat (m : BitVec 16) (h : m ∈ [0#16, 8192#16]) :
    { base with phase := .solve, maxMag := m }.phase = .solve ∧ { base with phase := .solve, maxMag := m }.pending = []
      ∧ { base with phase := .solve, maxMag := m }.maxMag.toNat ≤ 8192 :=
  ⟨rfl, rfl, by simp only [List.mem_cons, List.not_mem_nil, or_false] at h; rcases h with rfl | rfl <;> decide⟩

/-- The default tables: the hypothesis of the statements about table values, with both ends of the index and magnitude. -/
theorem witness_default_tables :
    testRom.qt = 27 ∧ testRom.cbrtTab = defaultCbrtTab ∧ testRom.pow2q = defaultPow2q ∧ resetRom.cbrtTab = defaultCbrtTab
      ∧ (∀ j ∈ [0, 1025], j ≤ 1025) ∧ (∀ a ∈ [1, 8192], 1 ≤ a ∧ a ≤ 8192) ∧ (-8192 : Int).natAbs ≤ 8192 :=
  ⟨rfl, by simp only [testRom, defaultTables], by simp only [testRom, defaultTables], by simp only [resetRom, defaultTables], by decide, by decide,
    by decide⟩

/-- Widths 0, 3, 1028 and a negative one. -/
theorem witness_BadBandIsRejected (s : State)
    (h : s ∈ [rescaling [] 0 27 0 100, badBand, rescaling [] 0 27 1028 100, rescaling [] 0 27 (-4) 100]) :
    s.phase = .rescale ∧ s.pending = [] ∧ s.win.toNat < s.windows ∧ s.bandsIn s.win.toNat ≤ 64
      ∧ s.bidx.toNat < s.bandsIn s.win.toNat
      ∧ (let width : Int := (s.btop.read (s.win.toNat * 64 + s.bidx.toNat)).toInt - s.roff.toInt
         width ≤ 0 ∨ 1024 < width ∨ width % 4 ≠ 0) := by
  revert s h
  decide +kernel

theorem witness_BandIsRescaled :
    scenario.inv = true ∧ scenario.phase = .rescale ∧ scenario.pending = [] ∧ scenario.win.toNat < scenario.windows
      ∧ scenario.bandsIn scenario.win.toNat ≤ 64 ∧ scenario.bidx.toNat < scenario.bandsIn scenario.win.toNat
      ∧ (let top : Int := (scenario.btop.read (scenario.win.toNat * 64 + scenario.bidx.toNat)).toInt
         let width : Int := top - scenario.roff.toInt
         0 < width ∧ width ≤ 1024 ∧ width % 4 = 0 ∧ top ≤ (if scenario.short then 128 else 1024))
      ∧ (∀ ln < 4, (scenario.sampleAt ln).natAbs ≤ scenario.maxMag.toNat) ∧ scenario.gq.toNat ≤ scenario.rom.qt := by decide +kernel

/-- The end of the sweep, and the end of a window. -/
theorem witness_SweepGoesOnAndEnds :
    (let s := { scenario with win := 1 }
     s.phase = .rescale ∧ s.pending = [] ∧ (if s.short then 8 else 1) ≤ s.win.toNat)
    ∧ (let s := { scenario with bidx := 1 }
       s.win.toNat < (if s.short then 8 else 1) ∧ s.bandsIn s.win.toNat ≤ 64 ∧ s.bandsIn s.win.toNat ≤ s.bidx.toNat) := by
  decide +kernel

theorem witness_LeavingUnpack :
    { lastSection 0 [] with sectPtr := 128 }.phase = .unpack ∧ { lastSection 0 [] with sectPtr := 128 }.nsect.toNat ≤ 128
      ∧ { lastSection 0 [] with sectPtr := 128 }.sectPtr = { lastSection 0 [] with sectPtr := 128 }.nsect
      ∧ { lastSection 0 [] with sectPtr := 128 }.pending = [] := ⟨rfl, by decide, rfl, rfl⟩

/-- With the last line of the last band of the last window of the last group. -/
theorem witness_DeinterleaveMovesEveryLine :
    deinterleaving.phase = .deint ∧ engineMoves deinterleaving ∧ engineMoves { deinterleaving with pending := [.await] }
      ∧ premiseP4 deinterleaving ∧ 1 < deinterleaving.ngroup.toNat
      ∧ 1 < deinterleaving.nsfbs.toNat ∧ 4 < (deinterleaving.glen.read 1).toNat
      ∧ 7 < (deinterleaving.soff.read 2).toNat - (deinterleaving.soff.read 1).toNat := by
  refine ⟨rfl, .inl rfl, .inr (.inr ⟨rfl, [], rfl⟩), ?_⟩
  unfold premiseP4
  decide +kernel

/-- The last element of a space, and the first index outside it. -/
theorem witness_ElementReadsBack (i : Nat) (_ : i ∈ [511, 512]) :
    { base with pending := [.writeElem .sf i 0x8000#32, .readElem .sf i] }.busy = false
      ∧ { base with pending := [.writeElem .sf i 0x8000#32, .readElem .sf i] }.pending =
        .writeElem .sf i 0x8000#32 :: .readElem .sf i :: [] := ⟨rfl, rfl⟩

theorem witness_BusyHostWritesAreDropped (m : HostMove)
    (_ : m ∈ [HostMove.writeElem .qs 0 1#32, .writeReg .max 1#32, .writeReg .ctrl 3#32, .readReg .status, .readReg .gq, .readElem .qs 0]) :
    { base with phase := .solve, pending := [m] }.busy = true ∧ { base with phase := .solve, pending := [m] }.pending = m :: [] :=
  ⟨rfl, rfl⟩

theorem witness_RegisterReadsBack (r : HostReg) (h : r ≠ .ctrl) (p : Phase) (hp : p ∈ [Phase.idle, .paused, .done, .error]) :
    { base with phase := p, pending := [.writeReg r 0xFFFFFFFF#32, .readReg r] }.busy = false ∧ r ≠ .ctrl
      ∧ { base with phase := p, pending := [.writeReg r 0xFFFFFFFF#32, .readReg r] }.pending =
        .writeReg r 0xFFFFFFFF#32 :: .readReg r :: [] :=
  ⟨by simp only [List.mem_cons, List.not_mem_nil, or_false] at hp; rcases hp with rfl | rfl | rfl | rfl <;> rfl, h, rfl⟩

theorem witness_RegisterReadsBack_ctrl :
    { base with pending := [.readReg .ctrl] }.busy = false ∧ { base with pending := [.readReg .ctrl] }.pending = .readReg .ctrl :: [] :=
  ⟨rfl, rfl⟩

theorem witness_RescaleSampleTruncates : 28 ≤ testRom.qt + 1 ∧ 13 ≤ testRom.qt + 1 := by decide

theorem witness_commands_in_each_phase (p : Phase) :
    { base with phase := p }.phase = p ∧ ({ base with phase := p }.busy = false ∨ p = .unpack ∨ p = .deint ∨ p = .solve ∨ p = .rescale) := by
  cases p <;> decide

theorem witness_ResetInputClearsRegisters : { base with phase := .rescale, pending := [.resetInput] }.pending = .resetInput :: [] := rfl

/-- A state in each phase that meets the invariant and takes a step. -/
theorem witness_StepKeepsInvariant (s : State)
    (h : s ∈ [base, unpacking 0x3001#16 0 0 4 [1,0,0,1,1,0, 0,1,0], overrunState, deinterleaving, { base with phase := .paused },
      overLimit, scenario, { scenario with phase := .done }, { base with phase := .error, errCode := 3, errInfo := 5 }]) :
    s.inv = true ∧ ∃ t, step s = .next t ∧ true = true := by
  refine ⟨?_, next_of (p := fun _ => true) ?_⟩ <;> revert s h <;> decide +kernel

/-- A state for each row of R290 that has a step of its own, and the phase it leads to. -/
theorem witness_PhaseChangesAreListed :
    [{ base with pending := [.writeReg .ctrl 1] }, { base with phase := .unpack, short := true },
      { base with phase := .unpack, pauseEn := true }, { base with phase := .unpack }, rsvd12State,
      { deinterleaving with pauseEn := true }, deinterleaving, { base with phase := .paused, pending := [.writeReg .ctrl 2] },
      { base with phase := .solve }, overLimit, { scenario with win := 1 }, badBand,
      { base with phase := .solve, pending := [.writeReg .ctrl 4] }, { base with phase := .done, pending := [.resetInput] }].map
        (fun s => (nextOf (step s)).map State.phase) =
    [some .unpack, some .deint, some .paused, some .solve, some .error, some .paused, some .solve, some .solve, some .rescale,
      some .error, some .done, some .error, some .idle, some .idle] := by decide +kernel

theorem witness_InputsAreImmutableWhileBusy :
    overrunState.busy = true ∧ ¬ hostResets overrunState ∧ ∃ t, step overrunState = .next t ∧ true = true := by
  refine ⟨rfl, ?_, next_of (p := fun _ => true) (by decide +kernel)⟩
  rintro ⟨rest, h⟩
  cases h

theorem witness_UnpackOnlyMovesForward :
    (unpacking 0x3001#16 0 0 4 []).inv = true ∧ (unpacking 0x3001#16 0 0 4 []).phase = .unpack
      ∧ ∃ t, step (unpacking 0x3001#16 0 0 4 [1,0,0,1,1,0, 0,1,0]) = .next t ∧ (t.phase == .unpack) = true :=
  ⟨by decide +kernel, rfl, next_of (by decide +kernel)⟩

theorem witness_OnlyUnpackReadsBits :
    engineMoves scenario ∧ scenario.phase ≠ .unpack ∧ ∃ t, step scenario = .next t ∧ (t.phase != .error) = true :=
  ⟨.inl rfl, by decide, next_of (by decide +kernel)⟩

theorem witness_EveryLaunchEnds :
    overrunState.inv = true ∧ overrunState.busy = true ∧ (∀ m ∈ overrunState.pending, m = .engine ∨ m = .await)
      ∧ (let s := { overrunState with pending := [.engine, .await] }
         s.inv = true ∧ s.busy = true ∧ ∀ m ∈ s.pending, m = .engine ∨ m = .await) := by
  decide +kernel

end Sys2Proof.Tests
end

section
/-! SUPPORT. The invariant as a structure: what each shared operation and each move keeps of it (spec R21 to R25, R35, R36, R45,
R304). -/

namespace Sys2Proof.Machine

/-! The invariant, one named field for each clause. -/

/-- The clauses of `State.memoriesWf`. -/
structure MemoriesWf (s : State) : Prop where
  sect : s.sect.wf 128 = true
  stop : s.stop.wf 128 = true
  glen : s.glen.wf 8 = true
  soff : s.soff.wf 32 = true
  nb : s.nb.wf 8 = true
  btop : s.btop.wf 512 = true
  sf : s.sf.wf 512 = true
  qs : s.qs.wf 1024 = true
  ds : s.ds.wf 1024 = true
  coef : s.coef.wf 1024 = true
  qfmt : s.qfmt.wf 512 = true

/-- The clauses of `State.positionOk`. -/
structure PositionOk (s : State) : Prop where
  sectPtr : s.sectPtr.toNat ≤ 128
  line : s.line.toNat ≤ 1024
  win : s.win.toNat ≤ 8
  bidx : s.bidx.toNat ≤ 64
  bflat : s.bflat.toNat ≤ 512

/-- The clauses of `State.errorRecordOk`. -/
structure ErrorRecordOk (s : State) : Prop where
  phase_iff : s.phase = .error ↔ s.errCode ≠ 0#2
  info : s.errCode = 0#2 → s.errInfo = 0#16

/-- The clauses of `State.sweepOk`. -/
structure SweepOk (s : State) : Prop where
  win_le : s.win.toNat ≤ s.windows
  swept : ∀ w < s.win.toNat, s.bandsIn w ≤ 64
  current : s.win.toNat < s.windows →
    s.bidx.toNat ≤ s.bandsIn s.win.toNat ∧ s.bflat.toNat = s.bandsBefore s.win.toNat + s.bidx.toNat
  finished : s.windows ≤ s.win.toNat → s.bflat.toNat = s.bandsBefore s.win.toNat
  roff_nonneg : 0 ≤ s.roff.toInt
  roff_le : s.roff.toInt ≤ (s.windowLen : Int)
  max_le : s.maxMag.toNat ≤ 8192
  gq_le : 16 ≤ s.rom.qt → s.gq.toNat ≤ s.rom.qt

/-- The clauses of `State.inv`. -/
structure Invariant (s : State) : Prop where
  memories : MemoriesWf s
  position : PositionOk s
  errorRecord : ErrorRecordOk s
  reader : s.launchPos ≤ s.dp.reader.pos
  sweep : s.phase = .rescale → SweepOk s

theorem memoriesWf_iff (s : State) : s.memoriesWf = true ↔ MemoriesWf s := by
  simp only [State.memoriesWf, Bool.and_eq_true]
  constructor
  · rintro ⟨⟨⟨⟨⟨⟨⟨⟨⟨⟨h1, h2⟩, h3⟩, h4⟩, h5⟩, h6⟩, h7⟩, h8⟩, h9⟩, h10⟩, h11⟩
    exact ⟨h1, h2, h3, h4, h5, h6, h7, h8, h9, h10, h11⟩
  · rintro ⟨h1, h2, h3, h4, h5, h6, h7, h8, h9, h10, h11⟩
    exact ⟨⟨⟨⟨⟨⟨⟨⟨⟨⟨h1, h2⟩, h3⟩, h4⟩, h5⟩, h6⟩, h7⟩, h8⟩, h9⟩, h10⟩, h11⟩

theorem positionOk_iff (s : State) : s.positionOk = true ↔ PositionOk s := by
  simp only [State.positionOk, Bool.and_eq_true, decide_eq_true_eq]
  constructor
  · rintro ⟨⟨⟨⟨h1, h2⟩, h3⟩, h4⟩, h5⟩
    exact ⟨h1, h2, h3, h4, h5⟩
  · rintro ⟨h1, h2, h3, h4, h5⟩
    exact ⟨⟨⟨⟨h1, h2⟩, h3⟩, h4⟩, h5⟩

theorem errorRecordOk_iff (s : State) : s.errorRecordOk = true ↔ ErrorRecordOk s := by
  have hinfo : (s.errCode != 0#2 || s.errInfo == 0#16) = true ↔ (s.errCode = 0#2 → s.errInfo = 0#16) := by
    simp [Decidable.imp_iff_not_or]
  have hphase : ((s.phase == .error) == (s.errCode != 0#2)) = true ↔ (s.phase = .error ↔ s.errCode ≠ 0#2) := by
    rw [beq_iff_eq, Bool.eq_iff_iff, beq_iff_eq, bne_iff_ne]
  rw [State.errorRecordOk, Bool.and_eq_true, hphase, hinfo]
  exact ⟨fun h => ⟨h.1, h.2⟩, fun h => ⟨h.phase_iff, h.info⟩⟩

theorem sweepOk_iff (s : State) : s.sweepOk = true ↔ SweepOk s := by
  have hcur : (if s.win.toNat < s.windows then
        decide (s.bidx.toNat ≤ s.bandsIn s.win.toNat) && s.bflat.toNat == s.bandsBefore s.win.toNat + s.bidx.toNat
      else s.bflat.toNat == s.bandsBefore s.win.toNat) = true ↔
      (s.win.toNat < s.windows →
        s.bidx.toNat ≤ s.bandsIn s.win.toNat ∧ s.bflat.toNat = s.bandsBefore s.win.toNat + s.bidx.toNat)
      ∧ (s.windows ≤ s.win.toNat → s.bflat.toNat = s.bandsBefore s.win.toNat) := by
    split
    · rename_i hw
      simp [hw, Nat.not_le.2 hw]
    · rename_i hw
      simp [hw, Nat.not_lt.1 hw]
  have hgq : (decide (s.rom.qt < 16) || decide (s.gq.toNat ≤ s.rom.qt)) = true ↔
      (16 ≤ s.rom.qt → s.gq.toNat ≤ s.rom.qt) := by
    simp [Decidable.imp_iff_not_or]
  simp only [State.sweepOk, Bool.and_eq_true, decide_eq_true_eq, List.all_eq_true, List.mem_range, hcur, hgq]
  constructor
  · rintro ⟨⟨⟨⟨⟨⟨h1, h2⟩, h3, h4⟩, h5⟩, h6⟩, h7⟩, h8⟩
    exact ⟨h1, h2, h3, h4, h5, h6, h7, h8⟩
  · rintro ⟨h1, h2, h3, h4, h5, h6, h7, h8⟩
    exact ⟨⟨⟨⟨⟨⟨h1, h2⟩, h3, h4⟩, h5⟩, h6⟩, h7⟩, h8⟩

/-- The model's invariant is the conjunction of its clauses. -/
theorem inv_iff (s : State) : s.inv = true ↔ Invariant s := by
  have hsweep : (s.phase != .rescale || s.sweepOk) = true ↔ (s.phase = .rescale → SweepOk s) := by
    rw [Bool.or_eq_true, bne_iff_ne, sweepOk_iff, Decidable.imp_iff_not_or]
  rw [State.inv, Bool.and_eq_true, Bool.and_eq_true, Bool.and_eq_true, Bool.and_eq_true, memoriesWf_iff, positionOk_iff,
    errorRecordOk_iff, State.readerForward, decide_eq_true_iff, hsweep]
  constructor
  · rintro ⟨⟨⟨⟨h1, h2⟩, h3⟩, h4⟩, h5⟩
    exact ⟨h1, h2, h3, h4, h5⟩
  · rintro ⟨h1, h2, h3, h4, h5⟩
    exact ⟨⟨⟨⟨h1, h2⟩, h3⟩, h4⟩, h5⟩

/-! The error record and the sweep, from one state to another. -/

/-- Outside ERROR the error record is clear (R304). -/
theorem ErrorRecordOk.of_clear {t : State} (hp : t.phase ≠ .error) (hc : t.errCode = 0#2) (hi : t.errInfo = 0#16) :
    ErrorRecordOk t :=
  ⟨by simp [hp, hc], fun _ => hi⟩

/-- A move between two phases that are not ERROR keeps the record. -/
theorem ErrorRecordOk.of_not_error {s t : State} (h : ErrorRecordOk s) (hs : s.phase ≠ .error) (ht : t.phase ≠ .error)
    (hc : t.errCode = s.errCode) (hi : t.errInfo = s.errInfo) : ErrorRecordOk t := by
  have h0 : s.errCode = 0#2 := by
    by_contra hne
    exact hs (h.phase_iff.2 hne)
  exact .of_clear ht (hc.trans h0) (hi.trans (h.info h0))

theorem EngineError.code_ne_zero (e : EngineError) : e.code ≠ 0#2 := by cases e <;> decide

/-! Counters and windows. -/

theorem toNat_add_one {w : Nat} {x : BitVec w} (h : x.toNat + 1 < 2 ^ w) : (x + 1#w).toNat = x.toNat + 1 := by
  rw [BitVec.toNat_add, BitVec.toNat_ofNat, Nat.add_mod_mod, Nat.mod_eq_of_lt h]

theorem windows_le (s : State) : s.windows ≤ 8 := by
  unfold State.windows
  split <;> omega

/-- The windows of a block cover 1024 lines (R252). -/
theorem windows_mul_windowLen (s : State) : s.windows * s.windowLen = 1024 := by
  unfold State.windows State.windowLen
  split <;> rfl

theorem windowLen_le (s : State) : s.windowLen ≤ 1024 := by
  unfold State.windowLen
  split <;> omega

theorem bandsBefore_succ (s : State) (w : Nat) : s.bandsBefore (w + 1) = s.bandsBefore w + s.bandsIn w := by
  simp [State.bandsBefore, List.range_succ]

/-- Windows of at most 64 bands each. -/
theorem bandsBefore_le (s : State) : ∀ w : Nat, (∀ v < w, s.bandsIn v ≤ 64) → s.bandsBefore w ≤ 64 * w
  | 0, _ => by simp [State.bandsBefore]
  | w + 1, h => by
    have ih := bandsBefore_le s w fun v hv => h v (by omega)
    have hw := h w (by omega)
    rw [bandsBefore_succ]
    omega

/-- A band that runs has a place in `QFMT` and `SF` (R25). -/
theorem SweepOk.bflat_lt {s : State} (h : SweepOk s) (hw : s.win.toNat < s.windows) (hn : s.bandsIn s.win.toNat ≤ 64)
    (hb : s.bidx.toNat < s.bandsIn s.win.toNat) : s.bflat.toNat < 512 := by
  have hbefore := bandsBefore_le s _ h.swept
  have h8 := windows_le s
  have hflat := (h.current hw).2
  omega

/-! What becomes unspecified stays in its range (log 5, 6). -/

theorem toNat_ofNat_mod_le {w : Nat} (x k : Nat) : (BitVec.ofNat w (x % (k + 1))).toNat ≤ k := by
  rw [BitVec.toNat_ofNat]
  exact le_trans (Nat.mod_le _ _) (Nat.lt_succ_iff.1 (Nat.mod_lt _ k.succ_pos))

theorem loseBuffers_memoriesWf {s : State} (h : MemoriesWf s) : MemoriesWf (loseBuffers s) :=
  { h with
    qs := Mem.wf_unspecified ..
    ds := Mem.wf_unspecified ..
    coef := Mem.wf_unspecified ..
    qfmt := Mem.wf_unspecified .. }

theorem loseCounters_positionOk {s : State} (h : s.sectPtr.toNat ≤ 128) : PositionOk (loseCounters s) where
  sectPtr := h
  line := toNat_ofNat_mod_le ..
  win := toNat_ofNat_mod_le ..
  bidx := toNat_ofNat_mod_le ..
  bflat := toNat_ofNat_mod_le ..

theorem loseSectPtr_positionOk {s : State} (h : PositionOk s) : PositionOk (loseSectPtr s) :=
  { h with sectPtr := toNat_ofNat_mod_le .. }

/-! Each operation keeps the invariant. -/

/-- The pending moves are no part of the invariant. -/
theorem pending_invariant {s : State} (h : Invariant s) (ms : List HostMove) : Invariant { s with pending := ms } where
  memories := { h.memories with }
  position := { h.position with }
  errorRecord := { h.errorRecord with }
  reader := h.reader
  sweep hp := { h.sweep hp with }

/-- Neither is what the last host read returned, or how many free values have been drawn. -/
theorem hostData_invariant {s : State} (h : Invariant s) (d : HostWord) (n : Nat) :
    Invariant { s with hostData := d, draws := n } where
  memories := { h.memories with }
  position := { h.position with }
  errorRecord := { h.errorRecord with }
  reader := h.reader
  sweep hp := { h.sweep hp with }

/-- An error asks only for memories in form and a section index in range (R306, R307). -/
theorem raiseError_invariant {s : State} (e : EngineError) (n : Nat) (hm : MemoriesWf s) (hp : s.sectPtr.toNat ≤ 128) :
    Invariant (raiseError e n s) where
  memories := { loseBuffers_memoriesWf hm with }
  position := loseCounters_positionOk hp
  errorRecord := ⟨by simp [e.code_ne_zero], fun h => absurd h e.code_ne_zero⟩
  reader := by simp
  sweep h := by simp at h

theorem leaveUnpack_invariant {s : State} (h : Invariant s) (hs : s.phase = .unpack) : Invariant (leaveUnpack s) := by
  have hphase : (leaveUnpack s).phase ≠ .error ∧ (leaveUnpack s).phase ≠ .rescale := by
    unfold leaveUnpack
    cases s.short <;> cases s.pauseEn <;> simp
  exact
    { memories := { h.memories with }
      position := { h.position with }
      errorRecord := h.errorRecord.of_not_error (by simp [hs]) hphase.1 rfl rfl
      reader := h.reader
      sweep := fun hr => absurd hr hphase.2 }

/-- The fall-through to the next section stays in the table where the section was in it (R22). -/
theorem sectPtr_succ_toNat {s : State} (hn : s.nsect.toNat ≤ 128) (hp : s.sectPtr.toNat < s.nsect.toNat) :
    (s.sectPtr + 1).toNat = s.sectPtr.toNat + 1 :=
  toNat_add_one (by omega)

/-- A section that ends at line `n` and falls through. -/
theorem fallThrough_invariant {s t : State} (h : Invariant s) (hs : s.phase = .unpack) (hn : s.nsect.toNat ≤ 128)
    (hp : s.sectPtr.toNat < s.nsect.toNat) {qs ds : Mem 16} {line : BitVec 11} {maxMag : BitVec 16} {dp : Datapath}
    (ht : t = { s with sectPtr := s.sectPtr + 1, qs := qs, ds := ds, line := line, maxMag := maxMag, dp := dp })
    (hq : qs.wf 1024 = true) (hd : ds.wf 1024 = true) (hl : line.toNat ≤ 1024)
    (hr : s.dp.reader.pos ≤ dp.reader.pos) : Invariant t := by
  subst ht
  exact
    { memories := { h.memories with qs := hq, ds := hd }
      position := { h.position with
        sectPtr := by
          show (s.sectPtr + 1).toNat ≤ 128
          rw [sectPtr_succ_toNat hn hp]
          omega
        line := hl }
      errorRecord := { h.errorRecord with }
      reader := le_trans h.reader hr
      sweep := fun hr => by simp [hs] at hr }

/-- `LINE` after a zero-fill inside the spectrum (R124). -/
theorem zeroFill_line_toNat {n : Nat} (s : State) (hn : n ≤ 1024) : (zeroFill n s).line.toNat = n := by
  rw [zeroFill, BitVec.toNat_ofNat]
  exact Nat.mod_eq_of_lt (by omega)

/-- `LINE` after a store inside the spectrum (R125). -/
theorem storeValues_line_toNat {vs : List Int} {s : State} (hn : s.line.toNat + vs.length ≤ 1024) :
    (storeValues vs s).line.toNat = s.line.toNat + vs.length := by
  rw [storeValues, BitVec.toNat_ofNat]
  exact Nat.mod_eq_of_lt (by omega)

theorem zeroFill_invariant {s : State} (h : Invariant s) (hs : s.phase = .unpack) (hn : s.nsect.toNat ≤ 128)
    (hp : s.sectPtr.toNat < s.nsect.toNat) {e : SfbEnd} (hr : rangeOk e s = true) :
    Invariant (nextSection (zeroFill (sectionEnd e s) s)) := by
  obtain ⟨_, hle, hend, _⟩ := (rangeOk_iff e s).1 hr
  refine fallThrough_invariant h hs hn hp (maxMag := s.maxMag) (dp := s.dp) rfl ?_ ?_ ?_ le_rfl
  · exact wf_zeroRun _ _ _ h.memories.qs (by omega)
  · exact wf_zeroRun _ _ _ h.memories.ds (by omega)
  · exact (zeroFill_line_toNat s hend).trans_le hend

theorem storeValues_invariant {s : State} (h : Invariant s) (hs : s.phase = .unpack) (hn : s.nsect.toNat ≤ 128)
    (hp : s.sectPtr.toNat < s.nsect.toNat) {cb : Nat} {e : SfbEnd} (hr : rangeOk e s = true)
    (hc : (sectionTuples cb e s).outcome = .complete) :
    Invariant (nextSection (storeValues (sectionTuples cb e s).vals { s with dp := (sectionTuples cb e s).dp })) := by
  obtain ⟨_, _, hend, _⟩ := (rangeOk_iff e s).1 hr
  have hlen := sectionTuples_length hr hc
  refine fallThrough_invariant h hs hn hp (ds := s.ds) rfl ?_ h.memories.ds ?_ (tuples_ahead ..).2.1
  · exact wf_storeRun _ _ _ h.memories.qs (hlen.trans_le hend)
  · exact (storeValues_line_toNat (hlen.trans_le hend)).trans_le (hlen.trans_le hend)

theorem deinterleaved_invariant {s : State} (h : Invariant s) (hs : s.phase = .deint) (hg : geometryOk s = true) :
    Invariant { s with ds := copyRun s.qs s.deintTargets 0 s.ds, phase := if s.pauseEn then .paused else .solve } where
  memories := { h.memories with ds := deint_wf hg h.memories.ds }
  position := { h.position with }
  errorRecord := h.errorRecord.of_not_error (by simp [hs]) (by cases s.pauseEn <;> simp) rfl rfl
  reader := h.reader
  sweep hr := by cases hp : s.pauseEn <;> simp [hp] at hr

/-- SOLVE enters RESCALE with every counter at 0 and its own result in range (R231, R236, R251). -/
theorem solved_invariant {s : State} (h : Invariant s) (hs : s.phase = .solve) (hm : s.maxMag.toNat ≤ 8192) :
    Invariant (enterRescale { s with gq := globalQWord s.rom s.maxMag.toNat }) where
  memories := { h.memories with }
  position := { h.position with win := Nat.zero_le _, bidx := Nat.zero_le _, bflat := Nat.zero_le _ }
  errorRecord := h.errorRecord.of_not_error (by simp [hs]) (by simp) rfl rfl
  reader := h.reader
  sweep _ :=
    { win_le := Nat.zero_le _
      swept := fun w hw => absurd hw (Nat.not_lt_zero w)
      current := fun _ => ⟨Nat.zero_le _, rfl⟩
      finished := fun _ => rfl
      roff_nonneg := le_rfl
      roff_le := Int.natCast_nonneg _
      max_le := hm
      gq_le := fun hq => (globalQWord_range s.rom _ hm hq).2 }

theorem swept_invariant {s : State} (h : Invariant s) (hs : s.phase = .rescale) : Invariant { s with phase := .done } where
  memories := { h.memories with }
  position := { h.position with }
  errorRecord := h.errorRecord.of_not_error (by simp [hs]) (by simp) rfl rfl
  reader := h.reader
  sweep hr := by simp at hr

theorem win_succ_toNat {s : State} (hw : s.win.toNat < s.windows) : (s.win + 1).toNat = s.win.toNat + 1 := by
  have := windows_le s
  exact toNat_add_one (by omega)

/-- At the end of a window `BFLAT` has counted all of its bands (R25, R251). -/
theorem endWindow_sweepOk {s : State} (h : SweepOk s) (hw : s.win.toNat < s.windows) (hn : s.bandsIn s.win.toNat ≤ 64)
    (hb : s.bandsIn s.win.toNat ≤ s.bidx.toNat) : SweepOk (endWindow s) := by
  have hwin := win_succ_toNat hw
  obtain ⟨hle, hflat⟩ := h.current hw
  have hcount : s.bflat.toNat = s.bandsBefore (s.win + 1).toNat := by
    rw [hwin, bandsBefore_succ]
    omega
  have hwin_le : (s.win + 1).toNat ≤ s.windows := hwin.trans_le hw
  have hswept : ∀ w < (s.win + 1).toNat, s.bandsIn w ≤ 64 := by
    intro w hlt
    rcases Nat.lt_succ_iff_lt_or_eq.1 (hwin ▸ hlt) with hlt | rfl
    · exact h.swept w hlt
    · exact hn
  unfold endWindow
  split
  · exact { h with
      win_le := hwin_le
      swept := hswept
      current := fun _ => ⟨Nat.zero_le _, hcount⟩
      finished := fun _ => hcount
      roff_nonneg := le_rfl
      roff_le := Int.natCast_nonneg _ }
  · have hlast : ¬ (s.win + 1).toNat < s.windows := by omega
    exact { h with
      win_le := hwin_le
      swept := hswept
      current := fun hlt => absurd hlt hlast
      finished := fun _ => hcount }

/-- The end of a window moves `WIN` on and may set `BIDX` and `ROFF`; nothing else changes (R251). -/
theorem endWindow_frame (s : State) :
    endWindow s = { s with win := s.win + 1, bidx := (endWindow s).bidx, roff := (endWindow s).roff } := by
  unfold endWindow
  split <;> rfl

theorem endWindow_invariant {s : State} (h : Invariant s) (hs : s.phase = .rescale) (hw : s.win.toNat < s.windows)
    (hn : s.bandsIn s.win.toNat ≤ 64) (hb : s.bandsIn s.win.toNat ≤ s.bidx.toNat) : Invariant (endWindow s) := by
  have hsweep := endWindow_sweepOk (h.sweep hs) hw hn hb
  have hwin : (s.win + 1).toNat ≤ 8 := (win_succ_toNat hw).trans_le (hw.trans_le (windows_le s))
  have hbidx : (endWindow s).bidx.toNat ≤ 64 := by
    unfold endWindow
    split
    · exact Nat.zero_le _
    · exact h.position.bidx
  rw [endWindow_frame] at hsweep ⊢
  exact ⟨{ h.memories with }, { h.position with win := hwin, bidx := hbidx }, { h.errorRecord with }, h.reader,
    fun _ => hsweep⟩

/-- An accepted width is positive (R253). -/
theorem pos_of_badWidth_eq_false {w : Int} (h : badWidth w = false) : 0 < w := by
  rw [badWidth, Bool.or_eq_false_iff, Bool.or_eq_false_iff, decide_eq_false_iff_not] at h
  obtain ⟨⟨hpos, _⟩, _⟩ := h
  exact Int.not_le.1 hpos

/-- The lines of an accepted band lie in `COEF` (R251, R258, R346 P3). -/
theorem bandLine_add_width_le {s : State} (hw : s.win.toNat < s.windows) (hr : 0 ≤ s.roff.toInt)
    (hpos : 0 < s.bandWidth) (ht : s.bandTop ≤ (s.windowLen : Int)) : s.bandLine + s.bandWidth.toNat ≤ 1024 := by
  have hcover : (s.win.toNat + 1) * s.windowLen ≤ 1024 :=
    windows_mul_windowLen s ▸ Nat.mul_le_mul_right _ hw
  unfold State.bandWidth at hpos ⊢
  unfold State.bandLine
  rw [Nat.add_mul] at hcover
  omega

/-- `ROFF` after a band is the band's top (R251). -/
theorem rescaleBand_roff_toInt {s : State} (ht : s.bandTop ≤ (s.windowLen : Int)) (hpos : 0 ≤ s.bandTop) :
    (rescaleBand s).roff.toInt = s.bandTop := by
  have := windowLen_le s
  exact BitVec.toInt_ofInt_eq_self (by decide) (by omega) (by omega)

theorem rescaleBand_sweepOk {s : State} (h : SweepOk s) (hw : s.win.toNat < s.windows)
    (hn : s.bandsIn s.win.toNat ≤ 64) (hb : s.bidx.toNat < s.bandsIn s.win.toNat) (hf : s.bflat.toNat < 512)
    (hpos : 0 ≤ s.bandTop) (ht : s.bandTop ≤ (s.windowLen : Int)) : SweepOk (rescaleBand s) := by
  have hroff := rescaleBand_roff_toInt ht hpos
  have hbidx : (rescaleBand s).bidx.toNat = s.bidx.toNat + 1 := toNat_add_one (by omega)
  have hbflat : (rescaleBand s).bflat.toNat = s.bflat.toNat + 1 := toNat_add_one (by omega)
  exact { h with
    current := fun _ => by
      have hflat := (h.current hw).2
      rw [hbidx, hbflat]
      exact ⟨hb, by rw [hflat]; rfl⟩
    finished := fun hle => absurd hw (Nat.not_lt.2 hle)
    roff_nonneg := hroff ▸ hpos
    roff_le := hroff ▸ ht }

theorem rescaleBand_invariant {s : State} (h : Invariant s) (hs : s.phase = .rescale) (hw : s.win.toNat < s.windows)
    (hn : s.bandsIn s.win.toNat ≤ 64) (hb : s.bidx.toNat < s.bandsIn s.win.toNat) (hgood : badWidth s.bandWidth = false)
    (hr : 0 ≤ s.roff.toInt) (hf : s.bflat.toNat < 512) (ht : s.bandTop ≤ (s.windowLen : Int)) :
    Invariant (rescaleBand s) := by
  have hwidth := pos_of_badWidth_eq_false hgood
  have htop : 0 ≤ s.bandTop := by
    unfold State.bandWidth at hwidth
    omega
  have hlines := bandLine_add_width_le hw hr hwidth ht
  exact
    { memories := { h.memories with
        coef := wf_coefRun _ _ _ _ _ _ _ h.memories.coef hlines
        qfmt := Mem.wf_write _ h.memories.qfmt hf }
      position := { h.position with
        bidx := le_of_eq_of_le (toNat_add_one (by omega)) (by omega)
        bflat := le_of_eq_of_le (toNat_add_one (by omega)) hf }
      errorRecord := { h.errorRecord with }
      reader := h.reader
      sweep := fun _ => rescaleBand_sweepOk (h.sweep hs) hw hn hb hf htop ht }

/-- Every move of the engine keeps the invariant. -/
theorem EngineMove.keeps_invariant {s t : State} (m : EngineMove s t) (h : Invariant s) : Invariant t := by
  cases m with
  | rest _ => exact h
  | leave hs _ => exact leaveUnpack_invariant h hs
  | zeroed hs hn hp _ hr => exact zeroFill_invariant h hs hn hp hr
  | stored hs hn hp _ _ _ _ hr hc => exact storeValues_invariant h hs hn hp hr hc
  | illegal => exact raiseError_invariant _ _ h.memories h.position.sectPtr
  | overrun => exact raiseError_invariant _ _ { h.memories with } h.position.sectPtr
  | deinterleaved hs hg => exact deinterleaved_invariant h hs hg
  | tooLarge => exact raiseError_invariant _ _ h.memories h.position.sectPtr
  | solved hs hm => exact solved_invariant h hs hm
  | swept hs _ => exact swept_invariant h hs
  | window hs hw hn hb => exact endWindow_invariant h hs hw hn hb
  | badBand => exact raiseError_invariant _ _ h.memories h.position.sectPtr
  | band hs hw hn hb hgood hr hf ht => exact rescaleBand_invariant h hs hw hn hb hgood hr hf ht

/-! The host's moves. -/

/-- Everything a host command can do (R281 to R283, R285). -/
theorem exec_command_next {i : Instr} {s t : State} (hi : i = .start ∨ i = .resume ∨ i = .abort)
    (h : exec i s = .next t) :
    t = s ∨ (startLegal s = true ∧ t = launch s) ∨ (s.phase = .paused ∧ t = { s with phase := .solve })
      ∨ t = { clearError (interrupted s) with phase := .idle } := by
  rcases hi with rfl | rfl | rfl
  · change execStart s = .next t at h
    unfold execStart at h
    split at h
    · rename_i hl
      cases h
      exact .inr (.inl ⟨hl, rfl⟩)
    · cases h
      exact .inl rfl
  · change execResume s = .next t at h
    unfold execResume at h
    split at h
    · rename_i hp
      cases h
      exact .inr (.inr (.inl ⟨hp, rfl⟩))
    · cases h
      exact .inl rfl
  · cases h
    exact .inr (.inr (.inr rfl))

theorem launch_invariant {s : State} (h : Invariant s) : Invariant (launch s) where
  memories := { h.memories with }
  position := { h.position with sectPtr := Nat.zero_le _, line := Nat.zero_le _ }
  errorRecord := .of_clear (by simp) rfl rfl
  reader := le_rfl
  sweep hr := by simp at hr

theorem resumed_invariant {s : State} (h : Invariant s) (hs : s.phase = .paused) :
    Invariant { s with phase := .solve } where
  memories := { h.memories with }
  position := { h.position with }
  errorRecord := h.errorRecord.of_not_error (by simp [hs]) (by simp) rfl rfl
  reader := h.reader
  sweep hr := by simp at hr

/-- What an ABORT of a busy engine draws is in range (R283; log 6). -/
theorem aborted_invariant {s : State} (h : Invariant s) :
    Invariant { clearError (interrupted s) with phase := .idle } := by
  have hrecord : ErrorRecordOk { clearError (interrupted s) with phase := .idle } := .of_clear (by simp) rfl rfl
  unfold interrupted at hrecord ⊢
  split
  · rename_i hb
    rw [if_pos hb] at hrecord
    have hp := loseSectPtr_positionOk (loseCounters_positionOk (s := loseReader (loseBuffers s)) h.position.sectPtr)
    exact ⟨{ loseBuffers_memoriesWf h.memories with }, { hp with }, hrecord, Nat.le_add_right _ _, fun hr => by simp at hr⟩
  · rename_i hb
    rw [if_neg hb] at hrecord
    exact ⟨{ h.memories with }, { h.position with }, hrecord, h.reader, fun hr => by simp at hr⟩

theorem resetLosses_memoriesWf {s : State} (h : MemoriesWf s) : MemoriesWf (resetLosses s) := by
  unfold resetLosses
  split
  · exact { loseBuffers_memoriesWf h with }
  · exact h

theorem resetLosses_reader {s : State} (h : s.launchPos ≤ s.dp.reader.pos) :
    (resetLosses s).launchPos ≤ (resetLosses s).dp.reader.pos := by
  unfold resetLosses
  split
  · exact Nat.le_add_right _ _
  · exact h

theorem resetInput_invariant {s : State} (h : Invariant s) : Invariant (resetInput s) where
  memories := { resetLosses_memoriesWf h.memories with }
  position := ⟨Nat.zero_le _, Nat.zero_le _, Nat.zero_le _, Nat.zero_le _, Nat.zero_le _⟩
  errorRecord := .of_clear (by simp [resetInput]) rfl rfl
  reader := resetLosses_reader h.reader
  sweep hr := by simp [resetInput] at hr

theorem phase_ne_rescale_of_not_busy {s : State} (hb : s.busy = false) : s.phase ≠ .rescale := by
  intro hp
  simp [State.busy, hp] at hb

/-- Outside the busy phases a move that changes only memories, registers the host owns and the reader's place keeps the
invariant, where the memories stay in form. -/
theorem hostOwned_invariant {s t : State} (h : Invariant s) (hb : s.busy = false) (hm : MemoriesWf t) (hp : PositionOk t)
    (hphase : t.phase = s.phase) (hc : t.errCode = s.errCode) (hi : t.errInfo = s.errInfo)
    (hr : t.launchPos ≤ t.dp.reader.pos) : Invariant t where
  memories := hm
  position := hp
  errorRecord := ⟨by rw [hphase, hc]; exact h.errorRecord.phase_iff, by rw [hc, hi]; exact h.errorRecord.info⟩
  reader := hr
  sweep hs := absurd (hphase ▸ hs) (phase_ne_rescale_of_not_busy hb)

/-- While the engine is busy a register write is dropped (R71). -/
theorem writeReg_of_busy (r : HostReg) (v : HostWord) {s : State} (hb : s.busy = true) : writeReg r v s = s :=
  if_pos hb

/-- While the engine is busy, or outside the space, an element write is dropped (R62, R71). -/
theorem writeElem_of_dropped {sp : Space} {i : Nat} (v : HostWord) {s : State} (h : s.busy = true ∨ sp.count ≤ i) :
    writeElem sp i v s = s :=
  if_pos h

theorem writeReg_invariant {s : State} (h : Invariant s) (r : HostReg) (v : HostWord) : Invariant (writeReg r v s) := by
  cases hb : s.busy
  · unfold writeReg
    rw [if_neg (by simp [hb])]
    cases r <;>
      exact hostOwned_invariant h hb { h.memories with } { h.position with } rfl rfl rfl h.reader
  · rwa [writeReg_of_busy r v hb]

theorem writeElem_memoriesWf {s : State} (h : MemoriesWf s) (sp : Space) (i : Nat) (v : HostWord) :
    MemoriesWf (writeElem sp i v s) := by
  unfold writeElem
  split
  · exact h
  · rename_i hw
    have hi : i < sp.count := Nat.not_le.1 fun hle => hw (.inr hle)
    cases sp with
    | sect => exact { h with sect := Mem.wf_write _ h.sect hi }
    | stop => exact { h with stop := Mem.wf_write _ h.stop hi }
    | glen => exact { h with glen := Mem.wf_write _ h.glen hi }
    | soff => exact { h with soff := Mem.wf_write _ h.soff hi }
    | nb => exact { h with nb := Mem.wf_write _ h.nb hi }
    | btop => exact { h with btop := Mem.wf_write _ h.btop hi }
    | sf => exact { h with sf := Mem.wf_write _ h.sf hi }
    | qs => exact { h with qs := Mem.wf_write _ h.qs hi }
    | ds => exact { h with ds := Mem.wf_write _ h.ds hi }
    | coef => exact { h with coef := Mem.wf_write _ h.coef hi }
    | qfmt => exact { h with qfmt := Mem.wf_write _ h.qfmt hi }

/-- An element write changes the memories and nothing else (R61). -/
theorem writeElem_frame (sp : Space) (i : Nat) (v : HostWord) (s : State) :
    writeElem sp i v s = { s with
      sect := (writeElem sp i v s).sect, stop := (writeElem sp i v s).stop, glen := (writeElem sp i v s).glen,
      soff := (writeElem sp i v s).soff, nb := (writeElem sp i v s).nb, btop := (writeElem sp i v s).btop,
      sf := (writeElem sp i v s).sf, qs := (writeElem sp i v s).qs, ds := (writeElem sp i v s).ds,
      coef := (writeElem sp i v s).coef, qfmt := (writeElem sp i v s).qfmt } := by
  unfold writeElem
  split
  · rfl
  · cases sp <;> rfl

theorem writeElem_invariant {s : State} (h : Invariant s) (sp : Space) (i : Nat) (v : HostWord) :
    Invariant (writeElem sp i v s) := by
  cases hb : s.busy
  · rw [writeElem_frame]
    exact hostOwned_invariant h hb { writeElem_memoriesWf h.memories sp i v with } { h.position with } rfl rfl rfl h.reader
  · rwa [writeElem_of_dropped v (.inl hb)]

/-- A register read changes what the host holds and the count of free values (R34, R71). -/
theorem readReg_frame (r : HostReg) (s : State) :
    readReg r s = { s with hostData := (readReg r s).hostData, draws := (readReg r s).draws } := by
  unfold readReg
  split <;> rfl

/-- So does an element read (R62, R71). -/
theorem readElem_frame (sp : Space) (i : Nat) (s : State) :
    readElem sp i s = { s with hostData := (readElem sp i s).hostData, draws := (readElem sp i s).draws } := by
  unfold readElem
  split <;> rfl

/-- Every move of the host keeps the invariant. -/
theorem HostMoved.keeps_invariant {s t : State} {m : HostMove} (hm : HostMoved s m t) (h : Invariant s) :
    Invariant t := by
  cases hm with
  | waited => exact h
  | noCommand => exact h
  | command v i hd hi _ hx =>
    rcases exec_command_next hi hx with rfl | ⟨_, rfl⟩ | ⟨hp, rfl⟩ | rfl
    · exact h
    · exact launch_invariant h
    · exact resumed_invariant h hp
    · exact aborted_invariant h
  | register r _ v => exact writeReg_invariant h r v
  | registerRead r => exact readReg_frame r s ▸ hostData_invariant h _ _
  | element sp i v => exact writeElem_invariant h sp i v
  | elementRead sp i => exact readElem_frame sp i s ▸ hostData_invariant h _ _
  | reader hb bits pos => exact hostOwned_invariant h hb { h.memories with } { h.position with } rfl rfl rfl le_rfl
  | reset => exact resetInput_invariant h

/-! The statements. -/

/-- Settles O54: by the moves one step can make, each of which keeps the invariant. -/
theorem stepKeepsInvariant : Obligations.StepKeepsInvariant := by
  intro s t hs h
  rw [inv_iff] at hs ⊢
  rcases step_next h with ⟨_, m⟩ | ⟨rest, _, m⟩ | ⟨_, rest, _, m⟩
  · exact m.keeps_invariant hs
  · exact m.keeps_invariant (pending_invariant hs rest)
  · exact m.keeps_invariant (pending_invariant hs rest)

/-- Settles O53: every clause is about zeros and memories that list nothing. -/
theorem resetMeetsInvariant : Obligations.ResetMeetsInvariant := rfl

end Sys2Proof.Machine
end

section
/-! SUPPORT. What the step answers for each pending entry, where it can fault, and what every step keeps: the inputs (spec R20,
R37, R38, R74, R344), the forward motion of UNPACK (R22, R23, R29, R45), the ends of the sweep (R251, R263) and reset (R340). -/

namespace Sys2Proof.Machine

/-! The step, by what is pending (log 3). -/

theorem step_of_nil {s : State} (h : s.pending = []) : step s = engineStep s := by
  unfold step advance
  rw [h]

theorem step_of_writeReg {s : State} {r : HostReg} {v : HostWord} {rest : List HostMove}
    (h : s.pending = .writeReg r v :: rest) : step s = hostWrite r v { s with pending := rest } := by
  unfold step advance
  rw [h]

theorem step_of_readReg {s : State} {r : HostReg} {rest : List HostMove} (h : s.pending = .readReg r :: rest) :
    step s = .next (readReg r { s with pending := rest }) := by
  unfold step advance
  rw [h]

theorem step_of_writeElem {s : State} {sp : Space} {i : Nat} {v : HostWord} {rest : List HostMove}
    (h : s.pending = .writeElem sp i v :: rest) : step s = .next (writeElem sp i v { s with pending := rest }) := by
  unfold step advance
  rw [h]

theorem step_of_readElem {s : State} {sp : Space} {i : Nat} {rest : List HostMove}
    (h : s.pending = .readElem sp i :: rest) : step s = .next (readElem sp i { s with pending := rest }) := by
  unfold step advance
  rw [h]

theorem step_of_resetInput {s : State} {rest : List HostMove} (h : s.pending = .resetInput :: rest) :
    step s = .next (resetInput { s with pending := rest }) := by
  unfold step advance
  rw [h]

theorem engineStep_of_rescale {s : State} (h : s.phase = .rescale) : engineStep s = rescaleStep s := by
  unfold engineStep
  rw [h]

/-- A register write other than a command (R33). -/
theorem hostWrite_of_ne_ctrl {r : HostReg} (hr : r ≠ .ctrl) (v : HostWord) (s : State) :
    hostWrite r v s = .next (writeReg r v s) := by
  cases r
  case ctrl => exact absurd rfl hr
  all_goals rfl

/-! Faults (log 16). -/

theorem zeroSection_ne_fault (e : SfbEnd) (s : State) (f : Fault) : zeroSection e s ≠ .fault f := by
  rcases zeroSection_cases e s with ⟨_, h⟩ | ⟨_, h⟩ <;> simp [h]

theorem regular_ne_fault (cb : Nat) (e : SfbEnd) (s : State) (f : Fault) : regular cb e s ≠ .fault f := by
  by_cases hid : 1 ≤ cb ∧ cb ≤ 11
  · rcases regular_cases hid.1 hid.2 e s with ⟨_, _, h⟩ | ⟨_, _, _, h⟩ | ⟨_, h⟩ <;> simp [h]
  · rw [regular, if_pos (by omega)]
    simp

theorem exec_ne_fault (i : Instr) (s : State) (f : Fault) : exec i s ≠ .fault f := by
  cases i with
  | zero e | noise e | int2 e | int e => exact zeroSection_ne_fault e s f
  | hcb1 e => exact regular_ne_fault 1 e s f
  | hcb2 e => exact regular_ne_fault 2 e s f
  | hcb3 e => exact regular_ne_fault 3 e s f
  | hcb4 e => exact regular_ne_fault 4 e s f
  | hcb5 e => exact regular_ne_fault 5 e s f
  | hcb6 e => exact regular_ne_fault 6 e s f
  | hcb7 e => exact regular_ne_fault 7 e s f
  | hcb8 e => exact regular_ne_fault 8 e s f
  | hcb9 e => exact regular_ne_fault 9 e s f
  | hcb10 e => exact regular_ne_fault 10 e s f
  | hcb11 e => exact regular_ne_fault 11 e s f
  | rsvd12 e => exact regular_ne_fault 12 e s f
  | start =>
    change execStart s ≠ .fault f
    unfold execStart
    split <;> simp
  | resume =>
    change execResume s ≠ .fault f
    unfold execResume
    split <;> simp
  | abort =>
    change execAbort s ≠ .fault f
    simp [execAbort]

theorem runDecoded_ne_fault (d : Except DecodeReject Instr) (s : State) (f : Fault) : runDecoded d s ≠ .fault f := by
  cases d with
  | ok i => exact exec_ne_fault i s f
  | error _ => simp [runDecoded]

/-- The one fault of the model: a band that runs with `ROFF` negative or no place for it in `QFMT` (log 16). -/
def BandFaults (s : State) : Prop :=
  s.phase = .rescale ∧ s.win.toNat < s.windows ∧ s.bandsIn s.win.toNat ≤ 64 ∧ s.bidx.toNat < s.bandsIn s.win.toNat
    ∧ (s.roff.toInt < 0 ∨ 512 ≤ s.bflat.toNat)

theorem rescaleStep_fault {s : State} {f : Fault} (hs : s.phase = .rescale) (h : rescaleStep s = .fault f) :
    BandFaults s := by
  unfold rescaleStep at h
  split at h
  · cases h
  rename_i hw
  split at h
  · cases h
  rename_i hn
  split at h
  · cases h
  rename_i hb
  unfold bandStep at h
  split at h
  · cases h
  split at h
  · rename_i hfault
    exact ⟨hs, not_le.1 hw, not_lt.1 hn, not_le.1 hb, hfault⟩
  · split at h <;> cases h

theorem engineStep_fault {s : State} {f : Fault} (h : engineStep s = .fault f) : BandFaults s := by
  unfold engineStep at h
  split at h
  case h_2 =>
    unfold unpackStep at h
    split at h
    · cases h
    · split at h
      · exact absurd h (runDecoded_ne_fault _ s f)
      · cases h
  case h_3 =>
    unfold deintStep at h
    split at h <;> cases h
  case h_5 =>
    unfold solveStep at h
    split at h <;> cases h
  case h_6 hs => exact rescaleStep_fault hs h
  all_goals cases h

/-- A step that faults is the engine's, whatever entry let it move. -/
theorem step_fault {s : State} {f : Fault} (h : step s = .fault f) : BandFaults s := by
  unfold step advance at h
  split at h
  case h_1 => exact engineStep_fault h
  case h_2 rest _ => exact engineStep_fault (s := { s with pending := rest }) h
  case h_3 =>
    split at h
    · exact engineStep_fault h
    · cases h
  case h_4 r v rest _ =>
    by_cases hr : r = .ctrl
    · subst hr
      exact absurd h (runDecoded_ne_fault _ _ f)
    · rw [hostWrite_of_ne_ctrl hr] at h
      cases h
  case h_8 =>
    unfold positionReader at h
    split at h <;> cases h
  all_goals cases h

theorem Invariant.not_bandFaults {s : State} (h : Invariant s) : ¬ BandFaults s := by
  rintro ⟨hs, hw, hn, hb, hneg | hfull⟩
  · exact absurd (h.sweep hs).roff_nonneg (not_le.2 hneg)
  · exact absurd ((h.sweep hs).bflat_lt hw hn hb) (not_lt.2 hfull)

/-- Settles O55: only a band can fault, and the sweep of the invariant keeps `ROFF` and `BFLAT` where no band does. -/
theorem invariantExcludesFaults : Obligations.InvariantExcludesFaults :=
  fun s _ hs h => ((inv_iff s).1 hs).not_bandFaults (step_fault h)

/-! What reset leaves (R340). -/

theorem resetLosses_of_not_busy {s : State} (h : s.busy = false) : resetLosses s = s :=
  if_neg (by simp [h])

/-- What an interrupted phase leaves free at reset: the buffers and the reader's position, and no more (R340; log 6). -/
theorem resetLosses_frame (s : State) :
    resetLosses s = { s with
      qs := (resetLosses s).qs, ds := (resetLosses s).ds, coef := (resetLosses s).coef, qfmt := (resetLosses s).qfmt,
      dp := { s.dp with reader := { s.dp.reader with pos := (resetLosses s).dp.reader.pos } },
      draws := (resetLosses s).draws } := by
  unfold resetLosses
  split <;> rfl

/-! The inputs (R37, R38, R74) and the ROMs (R20, R344). -/

theorem keepsInputs_refl (s : State) : keepsInputs s s :=
  ⟨rfl, rfl, rfl, rfl, rfl, rfl, rfl, rfl, rfl, rfl, rfl, rfl, rfl, rfl⟩

theorem keepsInputs.rom_eq {s t : State} (h : keepsInputs s t) : t.rom = s.rom := by
  obtain ⟨_, _, _, _, _, _, _, _, _, _, _, _, _, hrom⟩ := h
  exact hrom

theorem EngineMove.keepsInputs {s t : State} (m : EngineMove s t) : keepsInputs s t := by
  cases m with
  | window =>
    rw [endWindow_frame]
    exact keepsInputs_refl s
  | rest | leave | zeroed | stored | illegal | overrun | deinterleaved | tooLarge | solved | swept | badBand | band =>
    exact keepsInputs_refl s

theorem exec_command_keepsInputs {i : Instr} {s t : State} (hi : i = .start ∨ i = .resume ∨ i = .abort)
    (h : exec i s = .next t) : keepsInputs s t := by
  rcases exec_command_next hi h with rfl | ⟨_, rfl⟩ | ⟨_, rfl⟩ | rfl
  · exact keepsInputs_refl _
  · exact keepsInputs_refl s
  · exact keepsInputs_refl s
  · unfold interrupted
    split <;> exact keepsInputs_refl s

theorem resetInput_rom (s : State) : (resetInput s).rom = s.rom := by
  unfold resetInput
  rw [resetLosses_frame]

theorem writeReg_rom (r : HostReg) (v : HostWord) (s : State) : (writeReg r v s).rom = s.rom := by
  unfold writeReg
  split
  · rfl
  · cases r <;> rfl

theorem HostMoved.rom_eq {s t : State} {m : HostMove} (h : HostMoved s m t) : t.rom = s.rom := by
  cases h with
  | command v i _ hi _ hx => exact (exec_command_keepsInputs hi hx).rom_eq
  | register r _ v => exact writeReg_rom r v s
  | registerRead => rw [readReg_frame]
  | element => rw [writeElem_frame]
  | elementRead => rw [readElem_frame]
  | reset => exact resetInput_rom s
  | waited | noCommand | reader => rfl

/-- The host leaves a busy engine's inputs alone, but for reset (R74). -/
theorem HostMoved.keepsInputs_of_busy {s t : State} {m : HostMove} (h : HostMoved s m t) (hb : s.busy = true)
    (hm : m ≠ .resetInput) : keepsInputs s t := by
  cases h with
  | command v i _ hi _ hx => exact exec_command_keepsInputs hi hx
  | register r _ v =>
    rw [writeReg_of_busy r v hb]
    exact keepsInputs_refl s
  | registerRead r =>
    rw [readReg_frame]
    exact keepsInputs_refl s
  | element sp i v =>
    rw [writeElem_of_dropped v (.inl hb)]
    exact keepsInputs_refl s
  | elementRead sp i =>
    rw [readElem_frame]
    exact keepsInputs_refl s
  | reset => exact absurd rfl hm
  | waited | noCommand | reader => exact keepsInputs_refl s

/-- Settles O57: no move writes a ROM, and of the moves of a busy engine only reset writes an input. -/
theorem inputsAreImmutableWhileBusy : Obligations.InputsAreImmutableWhileBusy := by
  intro s t h
  rcases step_next h with ⟨_, m⟩ | ⟨rest, _, m⟩ | ⟨m, rest, hp, hm⟩
  · exact ⟨m.keepsInputs.rom_eq, fun _ _ => m.keepsInputs⟩
  · exact ⟨m.keepsInputs.rom_eq, fun _ _ => m.keepsInputs⟩
  · refine ⟨hm.rom_eq, fun hb hreset => hm.keepsInputs_of_busy hb ?_⟩
    rintro rfl
    exact hreset ⟨rest, hp⟩

/-! UNPACK moves forward (R22, R23, R29, R45). -/

/-- Nothing that UNPACK counts moves back. -/
def MovesForward (s t : State) : Prop :=
  (t.sectPtr.toNat = s.sectPtr.toNat ∨ t.sectPtr.toNat = s.sectPtr.toNat + 1) ∧ s.line.toNat ≤ t.line.toNat
    ∧ s.maxMag.toNat ≤ t.maxMag.toNat
    ∧ s.dp.reader.pos ≤ t.dp.reader.pos ∧ t.dp.reader.stream = s.dp.reader.stream

theorem movesForward_refl (s : State) : MovesForward s s := ⟨.inl rfl, le_rfl, le_rfl, le_rfl, rfl⟩

theorem zeroFill_movesForward {s : State} {e : SfbEnd} (hn : s.nsect.toNat ≤ 128) (hp : s.sectPtr.toNat < s.nsect.toNat)
    (hr : rangeOk e s = true) : MovesForward s (nextSection (zeroFill (sectionEnd e s) s)) := by
  obtain ⟨_, hle, hend, _⟩ := (rangeOk_iff e s).1 hr
  exact ⟨.inr (sectPtr_succ_toNat hn hp), (zeroFill_line_toNat s hend).symm ▸ hle, le_rfl, le_rfl, rfl⟩

theorem storeValues_movesForward {s : State} {cb : Nat} {e : SfbEnd} (hn : s.nsect.toNat ≤ 128)
    (hp : s.sectPtr.toNat < s.nsect.toNat) (h1 : 1 ≤ cb) (h11 : cb ≤ 11) (hr : rangeOk e s = true)
    (hc : (sectionTuples cb e s).outcome = .complete) : MovesForward s
      (nextSection (storeValues (sectionTuples cb e s).vals { s with dp := (sectionTuples cb e s).dp })) := by
  obtain ⟨_, _, hend, _⟩ := (rangeOk_iff e s).1 hr
  obtain ⟨hstream, hpos, _⟩ := tuples_ahead s.rom cb ((sectionEnd e s - s.line.toNat) / dimOf s.rom cb) s.dp
  have hline := storeValues_line_toNat (s := { s with dp := (sectionTuples cb e s).dp })
    ((sectionTuples_length hr hc).trans_le hend)
  have hmax := storeValues_max { s with dp := (sectionTuples cb e s).dp } (sectionTuples_natAbs h1 h11 e s)
  exact ⟨.inr (sectPtr_succ_toNat hn hp), (Nat.le_add_right _ _).trans_eq hline.symm,
    (maxAbs_ge _ _).trans_eq hmax.symm, hpos, hstream⟩

theorem EngineMove.movesForward {s t : State} (m : EngineMove s t) (hs : s.phase = .unpack) (ht : t.phase = .unpack) :
    MovesForward s t := by
  cases m with
  | rest => exact movesForward_refl s
  | leave =>
    unfold leaveUnpack at ht
    cases hshort : s.short <;> cases hpause : s.pauseEn <;> simp [hshort, hpause] at ht
  | zeroed _ hn hp _ hr => exact zeroFill_movesForward hn hp hr
  | stored _ hn hp _ _ h1 h11 hr hc => exact storeValues_movesForward hn hp h1 h11 hr hc
  | illegal | overrun => simp at ht
  | deinterleaved h | tooLarge h | solved h | swept h | window h | badBand h | band h => simp [hs] at h

theorem HostMoved.movesForward {s t : State} {m : HostMove} (h : HostMoved s m t) (hs : s.phase = .unpack)
    (ht : t.phase = .unpack) : MovesForward s t := by
  have hb : s.busy = true := by simp [State.busy, hs]
  cases h with
  | waited | noCommand => exact movesForward_refl s
  | command v i _ hi _ hx =>
    rcases exec_command_next hi hx with rfl | ⟨hl, _⟩ | ⟨hp, _⟩ | rfl
    · exact movesForward_refl _
    · simp [startLegal, hs] at hl
    · simp [hs] at hp
    · simp at ht
  | register r _ v => exact (writeReg_of_busy r v hb).symm ▸ movesForward_refl s
  | registerRead r => exact readReg_frame r s ▸ movesForward_refl s
  | element sp i v => exact (writeElem_of_dropped v (.inl hb)).symm ▸ movesForward_refl s
  | elementRead sp i => exact readElem_frame sp i s ▸ movesForward_refl s
  | reader hidle => simp [hb] at hidle
  | reset => simp [resetInput] at ht

/-- Settles O58: a section moves the counters on; every other move that stays in UNPACK leaves them. -/
theorem unpackOnlyMovesForward : Obligations.UnpackOnlyMovesForward := by
  intro s t _ h hs ht
  rcases step_next h with ⟨_, m⟩ | ⟨rest, _, m⟩ | ⟨_, rest, _, m⟩
  · exact m.movesForward hs ht
  · exact m.movesForward (s := { s with pending := rest }) hs ht
  · exact m.movesForward (s := { s with pending := rest }) hs ht

/-! The sweep (R251, R252, R263). -/

theorem rescaleStep_of_swept {s : State} (hw : s.windows ≤ s.win.toNat) :
    rescaleStep s = .next { s with phase := .done } :=
  if_pos hw

theorem rescaleStep_of_window_end {s : State} (hw : s.win.toNat < s.windows) (hn : s.bandsIn s.win.toNat ≤ 64)
    (hb : s.bandsIn s.win.toNat ≤ s.bidx.toNat) : rescaleStep s = .next (endWindow s) := by
  rw [rescaleStep, if_neg (not_le.2 hw), if_neg (not_lt.2 hn), if_pos hb]

/-- Settles O35: the two steps of the sweep that run no band. -/
theorem sweepGoesOnAndEnds : Obligations.SweepGoesOnAndEnds := by
  intro s hs hp
  rw [step_of_nil hp, engineStep_of_rescale hs]
  exact ⟨rescaleStep_of_swept, fun hw hn hb => rescaleStep_of_window_end hw hn hb⟩

/-! Reset (R48, R340, R341). -/

theorem resetInput_keepsScratch (s : State) : keepsScratch s (resetInput s) := by
  unfold resetInput
  rw [resetLosses_frame]
  exact ⟨rfl, rfl, rfl, rfl, rfl, rfl, rfl, rfl⟩

theorem resetInput_keepsTables (s : State) :
    (resetInput s).sect = s.sect ∧ (resetInput s).stop = s.stop ∧ (resetInput s).glen = s.glen
      ∧ (resetInput s).soff = s.soff ∧ (resetInput s).nb = s.nb ∧ (resetInput s).btop = s.btop
      ∧ (resetInput s).sf = s.sf ∧ (resetInput s).rom = s.rom := by
  unfold resetInput
  rw [resetLosses_frame]
  exact ⟨rfl, rfl, rfl, rfl, rfl, rfl, rfl, rfl⟩

theorem resetInput_keepsBuffers {s : State} (h : s.busy = false) :
    (resetInput s).qs = s.qs ∧ (resetInput s).ds = s.ds ∧ (resetInput s).coef = s.coef ∧ (resetInput s).qfmt = s.qfmt
      ∧ (resetInput s).dp = s.dp := by
  unfold resetInput
  rw [resetLosses_of_not_busy h]
  exact ⟨rfl, rfl, rfl, rfl, rfl⟩

/-- Settles O51: the registers are set to 0 and all that an interrupted phase leaves free is a buffer or the reader's place. -/
theorem resetInputClearsRegisters : Obligations.ResetInputClearsRegisters := by
  intro s rest hp
  obtain ⟨h1, h2, h3, h4, h5, h6, h7, h8⟩ := resetInput_keepsTables { s with pending := rest }
  exact ⟨_, step_of_resetInput hp, rfl, rfl, rfl, rfl, rfl, rfl, rfl, rfl, rfl, rfl, rfl, rfl, rfl, rfl, rfl, rfl, rfl, rfl,
    resetInput_keepsScratch { s with pending := rest }, h1, h2, h3, h4, h5, h6, h7, h8,
    fun hb => resetInput_keepsBuffers (s := { s with pending := rest }) hb⟩

/-- Settles O52: the values of the table, and in IDLE with nothing pending the engine rests. -/
theorem resetValues : Obligations.ResetValues :=
  ⟨rfl, rfl, rfl, rfl, rfl, rfl, rfl, rfl, rfl, rfl, rfl, rfl, rfl, rfl, rfl, rfl, rfl, rfl, rfl, rfl⟩

end Sys2Proof.Machine
end

section
/-! SUPPORT. The host's data path: the words of the registers (spec R32 to R35, R310), register and element writes read back
(R36, R61, R62). -/

namespace Sys2Proof.Machine

/-! The register words, bit by bit (R33, R34). -/

theorem getLsbD_flagAt {k : Nat} (hk : k < 32) (b : Bool) (i : Nat) :
    (flagAt k b).getLsbD i = (decide (i = k) && b) := by
  simp only [flagAt, BitVec.getLsbD_shiftLeft, BitVec.getLsbD_setWidth, BitVec.getLsbD_ofBool]
  by_cases hi : i = k
  · subst hi
    simp [hk]
  · by_cases hlt : i < k
    · simp [hi, hlt]
    · have : i - k ≠ 0 := by omega
      simp [hi, this]

/-- `STATUS` below its flags is `STATE`, then one flag to a bit, then nothing (R33). -/
theorem getLsbD_statusWord (s : State) (i : Nat) :
    s.statusWord.getLsbD i = (s.phase.code.getLsbD i || (decide (i = 3) && s.busy) || (decide (i = 4) && s.doneFlag)
      || (decide (i = 5) && s.errFlag) || (decide (i = 6) && s.pausedFlag) || (decide (i = 7) && s.irq)) := by
  have hcode : (s.phase.code.setWidth 32).getLsbD i = s.phase.code.getLsbD i := by
    by_cases hi : i < 32
    · simp [hi]
    · simp [hi, BitVec.getLsbD_of_ge s.phase.code i (by omega)]
  simp only [State.statusWord, BitVec.getLsbD_or, hcode]
  rw [getLsbD_flagAt (by omega), getLsbD_flagAt (by omega), getLsbD_flagAt (by omega), getLsbD_flagAt (by omega),
    getLsbD_flagAt (by omega)]

/-- The bits of `STATE` end at bit 2 (R21). -/
theorem getLsbD_code_of_le (p : Phase) {i : Nat} (hi : 3 ≤ i) : p.code.getLsbD i = false :=
  BitVec.getLsbD_of_ge _ _ hi

/-- Two fields of a word, the upper one at bit 16, do not meet (R33). -/
theorem extractLsb'_fields {m n : Nat} (a : BitVec m) (b : BitVec n) (hm : m ≤ 16) (hn : n ≤ 16) :
    (a.setWidth 32 ||| b.setWidth 32 <<< 16).extractLsb' 0 m = a
      ∧ (a.setWidth 32 ||| b.setWidth 32 <<< 16).extractLsb' 16 n = b := by
  constructor
  · ext i hi
    have h16 : i < 16 := by omega
    have h32 : i < 32 := by omega
    simp [BitVec.getLsbD_eq_getElem, hi, h16, h32]
  · ext i hi
    have h32 : 16 + i < 32 := by omega
    have hge : a.getLsbD (16 + i) = false := BitVec.getLsbD_of_ge _ _ (by omega)
    simp [hi, h32, hge]

theorem busy_iff_code (s : State) : s.busy = true ↔
    s.phase.code.toNat = 1 ∨ s.phase.code.toNat = 2 ∨ s.phase.code.toNat = 4 ∨ s.phase.code.toNat = 5 := by
  unfold State.busy
  cases s.phase <;> decide

theorem doneFlag_iff_code (s : State) : s.doneFlag = true ↔ s.phase.code.toNat = 6 := by
  unfold State.doneFlag
  cases s.phase <;> decide

theorem errFlag_iff_code (s : State) : s.errFlag = true ↔ s.phase.code.toNat = 7 := by
  unfold State.errFlag
  cases s.phase <;> decide

theorem pausedFlag_iff_code (s : State) : s.pausedFlag = true ↔ s.phase.code.toNat = 3 := by
  unfold State.pausedFlag
  cases s.phase <;> decide

theorem irq_iff (s : State) : s.irq = true ↔ s.ien = true ∧ (s.phase = .paused ∨ s.phase = .done ∨ s.phase = .error) := by
  simp [State.irq, State.pausedFlag, State.doneFlag, State.errFlag, or_assoc]

/-- Settles O47: each bit of `STATUS` has one source, and the fields of `ERR` and `SEQ` lie apart. -/
theorem statusWordFields : Obligations.StatusWordFields := by
  intro s
  have hflags : ∀ i, 3 ≤ i → s.statusWord.getLsbD i = ((decide (i = 3) && s.busy) || (decide (i = 4) && s.doneFlag)
      || (decide (i = 5) && s.errFlag) || (decide (i = 6) && s.pausedFlag) || (decide (i = 7) && s.irq)) := by
    intro i hi
    rw [getLsbD_statusWord, getLsbD_code_of_le _ hi, Bool.false_or]
  have hstate : s.statusWord.extractLsb' 0 3 = s.phase.code := by
    ext i hi
    have h : i ≠ 3 ∧ i ≠ 4 ∧ i ≠ 5 ∧ i ≠ 6 ∧ i ≠ 7 := by omega
    simp [getLsbD_statusWord, h, hi]
  have hzero : s.statusWord.extractLsb' 8 24 = 0#24 := by
    ext i hi
    have h : 8 + i ≠ 3 ∧ 8 + i ≠ 4 ∧ 8 + i ≠ 5 ∧ 8 + i ≠ 6 ∧ 8 + i ≠ 7 := by omega
    simp [hflags (8 + i) (by omega), h]
  obtain ⟨herr, hinfo⟩ := extractLsb'_fields s.errCode s.errInfo (by omega) (by omega)
  obtain ⟨hptr, hline⟩ := extractLsb'_fields s.sectPtr s.line (by omega) (by omega)
  refine ⟨hstate, ?_, ?_, ?_, ?_, ?_, hzero, herr, hinfo, hptr, hline⟩
  · rw [hflags 3 le_rfl, ← busy_iff_code]; simp
  · rw [hflags 4 (by omega), ← doneFlag_iff_code]; simp
  · rw [hflags 5 (by omega), ← errFlag_iff_code]; simp
  · rw [hflags 6 (by omega), ← pausedFlag_iff_code]; simp
  · rw [hflags 7 (by omega), ← irq_iff]; simp

/-! Registers (R33, R35). -/

/-- A field of `k` bits on the data path is the word with its other bits cleared (R33). -/
theorem setWidth_setWidth_eq_and {k : Nat} (hk : k ≤ 32) (v : HostWord) :
    (v.setWidth k).setWidth 32 = v &&& BitVec.ofNat 32 (2 ^ k - 1) := by
  have hlt : 2 ^ k - 1 < 2 ^ 32 := lt_of_lt_of_le (Nat.sub_lt (Nat.two_pow_pos k) one_pos) (Nat.pow_le_pow_right (by omega) hk)
  apply BitVec.eq_of_toNat_eq
  have hfield : v.toNat % 2 ^ k < 2 ^ 32 :=
    lt_of_lt_of_le (Nat.mod_lt _ (Nat.two_pow_pos k)) (Nat.pow_le_pow_right (by omega) hk)
  rw [BitVec.toNat_and, BitVec.toNat_ofNat, Nat.mod_eq_of_lt hlt, Nat.and_two_pow_sub_one_eq_mod, BitVec.toNat_setWidth,
    BitVec.toNat_setWidth, Nat.mod_eq_of_lt hfield]

/-- The three flags of `CFG` are bits 2:0 of the word (R33). -/
theorem flags_eq_and (v : HostWord) :
    flagAt 0 (v.getLsbD 0) ||| flagAt 1 (v.getLsbD 1) ||| flagAt 2 (v.getLsbD 2) = v &&& 7#32 := by
  rw [show (7#32) = BitVec.ofNat 32 (2 ^ 3 - 1) from rfl, ← setWidth_setWidth_eq_and (by omega)]
  apply BitVec.eq_of_getLsbD_eq
  intro i hi
  simp only [BitVec.getLsbD_or, BitVec.getLsbD_setWidth, hi, decide_true, Bool.true_and]
  rw [getLsbD_flagAt (by omega), getLsbD_flagAt (by omega), getLsbD_flagAt (by omega)]
  rcases Nat.lt_or_ge i 3 with hlt | hge
  · interval_cases i <;> simp
  · have h : i ≠ 0 ∧ i ≠ 1 ∧ i ≠ 2 ∧ ¬ i < 3 := by omega
    simp [h]

/-- A writable register reads back its fields (R33, R35). -/
theorem regWord_writeReg_same {s : State} (hb : s.busy = false) {r : HostReg} (v : HostWord)
    (hr : r = .cfg ∨ r = .nsect ∨ r = .ngroup ∨ r = .nsfbs ∨ r = .max) :
    (writeReg r v s).regWord r = v &&& registerMask r := by
  unfold writeReg
  rw [if_neg (by simp [hb])]
  rcases hr with rfl | rfl | rfl | rfl | rfl
  · exact flags_eq_and v
  · exact setWidth_setWidth_eq_and (k := 8) (by omega) v
  · exact setWidth_setWidth_eq_and (k := 4) (by omega) v
  · exact setWidth_setWidth_eq_and (k := 5) (by omega) v
  · exact setWidth_setWidth_eq_and (k := 16) (by omega) v

/-- A read-only register ignores the write (R33, R35). -/
theorem writeReg_of_readOnly {s : State} {r : HostReg} (v : HostWord)
    (hr : r = .status ∨ r = .err ∨ r = .gq ∨ r = .seq) : writeReg r v s = s := by
  unfold writeReg
  rcases hr with rfl | rfl | rfl | rfl <;> exact ite_self s

/-- Any other register reads as before, but `STATUS` after a write of `CFG` (R32, R33). -/
theorem regWord_writeReg_of_ne {r r' : HostReg} (v : HostWord) (s : State) (hne : r' ≠ r) (h : r' ≠ .status ∨ r ≠ .cfg) :
    (writeReg r v s).regWord r' = s.regWord r' := by
  unfold writeReg
  split
  · rfl
  · cases r with
    | ctrl | status | err | gq | seq => rfl
    | cfg =>
      cases r' with
      | cfg => exact absurd rfl hne
      | status => simp at h
      | _ => rfl
    | nsect | ngroup | nsfbs | max => cases r' <;> simp at hne <;> rfl

/-- A register write changes the five writable registers and nothing else (R33). -/
theorem writeReg_frame (r : HostReg) (v : HostWord) (s : State) :
    writeReg r v s = { s with
      short := (writeReg r v s).short, pauseEn := (writeReg r v s).pauseEn, ien := (writeReg r v s).ien,
      nsect := (writeReg r v s).nsect, ngroup := (writeReg r v s).ngroup, nsfbs := (writeReg r v s).nsfbs,
      maxMag := (writeReg r v s).maxMag } := by
  unfold writeReg
  split
  · rfl
  · cases r <;> rfl

theorem busy_writeReg (r : HostReg) (v : HostWord) (s : State) : (writeReg r v s).busy = s.busy := by
  rw [writeReg_frame]
  rfl

/-- A read outside the busy phases gives the register (R33). -/
theorem readReg_of_not_busy {s : State} (hb : s.busy = false) (r : HostReg) :
    readReg r s = { s with hostData := s.regWord r } :=
  if_neg (by simp [hb])

theorem step_readReg_of_not_busy {s : State} {r : HostReg} {rest : List HostMove} (hb : s.busy = false)
    (hp : s.pending = .readReg r :: rest) : step s = .next { s with pending := rest, hostData := s.regWord r } :=
  (step_of_readReg hp).trans (congrArg _ (readReg_of_not_busy (s := { s with pending := rest }) hb r))

/-- Settles O46: the write, then the read of what it left. -/
theorem registerReadsBack : Obligations.RegisterReadsBack := by
  constructor
  · intro s r v rest hb hr hp
    let s₁ : State := { s with pending := .readReg r :: rest }
    have hb₁ : (writeReg r v s₁).busy = false := (busy_writeReg r v s₁).trans hb
    have hp₁ : (writeReg r v s₁).pending = .readReg r :: rest := by rw [writeReg_frame]
    refine ⟨writeReg r v s₁, _, ?_, hp₁, step_readReg_of_not_busy hb₁ hp₁,
      fun hw => regWord_writeReg_same (s := s₁) hb v hw, fun ho => ?_, fun r' hne h => regWord_writeReg_of_ne v s₁ hne h,
      writeReg_frame r v s₁, rfl⟩
    · rw [step_of_writeReg hp, hostWrite_of_ne_ctrl hr]
    · rw [writeReg_of_readOnly v ho]
      exact ⟨rfl, rfl⟩
  · exact fun s rest hb hp => step_readReg_of_not_busy hb hp

/-! Elements (R36, R61, R62). -/

/-- An element write reads back its low bits, extended by the element's type (R61). -/
theorem elemWord_writeElem_same {s : State} (hb : s.busy = false) {sp : Space} {i : Nat} (hi : i < sp.count)
    (v : HostWord) : (writeElem sp i v s).elemWord sp i = sp.roundTrip v := by
  unfold writeElem
  rw [if_neg (by simp [hb, hi])]
  cases sp <;> simp [State.elemWord, Mem.read_write, Space.roundTrip, Space.isSigned, Space.width]

/-- Any other element of any space reads as before (R61). -/
theorem elemWord_writeElem_of_ne {sp sp' : Space} {i j : Nat} (v : HostWord) (s : State) (h : sp' ≠ sp ∨ j ≠ i) :
    (writeElem sp i v s).elemWord sp' j = s.elemWord sp' j := by
  unfold writeElem
  split
  · rfl
  · by_cases hsp : sp' = sp
    · have hj : j ≠ i := h.resolve_left (not_not.2 hsp)
      subst hsp
      cases sp' <;> simp [State.elemWord, Mem.read_write, hj]
    · cases sp <;> cases sp' <;> simp [State.elemWord] at hsp ⊢

theorem busy_writeElem (sp : Space) (i : Nat) (v : HostWord) (s : State) : (writeElem sp i v s).busy = s.busy := by
  rw [writeElem_frame]
  rfl

/-- A read outside the busy phases and inside the space gives the element (R61). -/
theorem readElem_of_not_busy {s : State} (hb : s.busy = false) {sp : Space} {i : Nat} (hi : i < sp.count) :
    readElem sp i s = { s with hostData := s.elemWord sp i } :=
  if_neg (by simp [hb, hi])

theorem step_readElem_of_not_busy {s : State} {sp : Space} {i : Nat} {rest : List HostMove} (hb : s.busy = false)
    (hi : i < sp.count) (hp : s.pending = .readElem sp i :: rest) :
    step s = .next { s with pending := rest, hostData := s.elemWord sp i } :=
  (step_of_readElem hp).trans (congrArg _ (readElem_of_not_busy (s := { s with pending := rest }) hb hi))

/-- Settles O44: the write, then the read of what it left. -/
theorem elementReadsBack : Obligations.ElementReadsBack := by
  intro s sp i v rest hb hp
  let s₁ : State := { s with pending := .readElem sp i :: rest }
  have hb₁ : (writeElem sp i v s₁).busy = false := (busy_writeElem sp i v s₁).trans hb
  have hp₁ : (writeElem sp i v s₁).pending = .readElem sp i :: rest := by rw [writeElem_frame]
  exact ⟨writeElem sp i v s₁, step_of_writeElem hp, hp₁,
    fun hi => ⟨_, step_readElem_of_not_busy hb₁ hi hp₁, elemWord_writeElem_same (s := s₁) hb hi v, rfl⟩,
    fun sp' j h => elemWord_writeElem_of_ne v s₁ h, fun hi => writeElem_of_dropped v (.inr hi)⟩

end Sys2Proof.Machine
end

section
/-! SUPPORT. The registers a tuple leaves (spec R26 to R28, R180) and the default cube-root table (R7, R42). -/

namespace Sys2Proof.Machine

/-! The tuple registers. -/

@[simp] theorem Datapath.setDig_cwidx (d : Datapath) (vs : List Int) : (d.setDig vs).cwidx = d.cwidx := by
  unfold Datapath.setDig; split <;> rfl

@[simp] theorem Datapath.setDig_escN (d : Datapath) (vs : List Int) : (d.setDig vs).escN = d.escN := by
  unfold Datapath.setDig; split <;> rfl

@[simp] theorem Datapath.setDig_escL (d : Datapath) (vs : List Int) : (d.setDig vs).escL = d.escL := by
  unfold Datapath.setDig; split <;> rfl

theorem unpackRule_ne_escape {cb : Nat} (h : cb ≠ 11) (b : CodeBook) : unpackRule cb b ≠ .escape := by
  rw [unpackRule, if_neg h]
  split <;> simp

/-- Whatever the rule, a tuple's values go to `DIG` last, and before that only the reader and, for the escape rule, `ESC_N` and
`ESC_L` change (R27, R28, R180). -/
theorem unpack_dp (rule : UnpackRule) (b : CodeBook) (idx : Nat) (d : Datapath) : ∃ n l r,
    (unpack rule b idx d).dp =
      Datapath.setDig { d with escN := n, escL := l, reader := r } (unpack rule b idx d).vals
      ∧ (rule ≠ .escape → n = d.escN ∧ l = d.escL) := by
  cases rule with
  | plain => exact ⟨d.escN, d.escL, d.reader, rfl, fun _ => ⟨rfl, rfl⟩⟩
  | explicitSign => exact ⟨d.escN, d.escL, (signs (digits b idx) d.reader).2, rfl, fun _ => ⟨rfl, rfl⟩⟩
  | escape => exact ⟨_, _, _, rfl, fun h => absurd rfl h⟩

/-- The same of a whole tuple, whose codeword index is in `CWIDX` (R26). -/
theorem tuple_dp (rom : Rom) (cb : Nat) (d : Datapath) : ∃ n l r,
    (tuple rom cb d).dp =
      Datapath.setDig { d with cwidx := ((rom.tree cb).walk d.reader).1, escN := n, escL := l, reader := r }
        (tuple rom cb d).vals
      ∧ (cb ≠ 11 → n = d.escN ∧ l = d.escL) := by
  obtain ⟨n, l, r, hdp, hesc⟩ := unpack_dp (unpackRule cb (rom.book cb)) (rom.book cb)
    ((rom.tree cb).walk d.reader).1.toNat
    { d with cwidx := ((rom.tree cb).walk d.reader).1, reader := ((rom.tree cb).walk d.reader).2 }
  exact ⟨n, l, r, hdp, fun h => hesc (unpackRule_ne_escape h _)⟩

/-- `DIG` holds every value a tuple can have (R27). -/
theorem toInt_ofInt_of_natAbs_le {v : Int} (h : v.natAbs ≤ 16383) : (BitVec.ofInt 16 v).toInt = v :=
  BitVec.toInt_ofInt_eq_self (by decide) (by omega) (by omega)

/-- Settles O25: a tuple has two values or four, each of which fits its register. -/
theorem tupleLeavesItsRegisters : Obligations.TupleLeavesItsRegisters := by
  intro rom cb d h1 h11 _
  obtain ⟨n, l, r, hdp, hesc⟩ := tuple_dp rom cb d
  have hfits := tuple_natAbs rom h1 h11 d
  rw [hdp]
  refine ⟨by simp, ?_, fun h => by simpa using hesc h⟩
  rcases dimOf_dvd rom cb with hdim | hdim
  · obtain ⟨a, b, hv⟩ := List.length_eq_two.1 ((tuple_length rom cb d).trans hdim)
    simp only [hv, List.forall_mem_cons] at hfits ⊢
    obtain ⟨ha, hb, _⟩ := hfits
    exact .inl ⟨a, b, rfl, toInt_ofInt_of_natAbs_le ha, toInt_ofInt_of_natAbs_le hb, rfl, rfl⟩
  · obtain ⟨a, b, c, f, hv⟩ := List.length_eq_four.1 ((tuple_length rom cb d).trans hdim)
    simp only [hv, List.forall_mem_cons] at hfits ⊢
    obtain ⟨ha, hb, hc, hf, _⟩ := hfits
    exact .inr ⟨a, b, c, f, rfl, toInt_ofInt_of_natAbs_le ha, toInt_ofInt_of_natAbs_le hb, toInt_ofInt_of_natAbs_le hc,
      toInt_ofInt_of_natAbs_le hf⟩

/-! The default cube-root table. -/

/-- The search by bits keeps the root between `r` and `r + 2^b` (R7). -/
theorem icbrtFrom_bounds (n : Nat) : ∀ (b r : Nat), r ^ 3 ≤ n → n < (r + 2 ^ b) ^ 3 →
    icbrtFrom n b r ^ 3 ≤ n ∧ n < (icbrtFrom n b r + 1) ^ 3
  | 0, _, hlo, hhi => ⟨hlo, hhi⟩
  | b + 1, r, hlo, hhi => by
    rw [icbrtFrom]
    split
    · rename_i hbit
      refine icbrtFrom_bounds n b (r + 2 ^ b) hbit ?_
      rwa [add_assoc, ← two_mul, ← pow_succ']
    · rename_i hbit
      exact icbrtFrom_bounds n b r hlo (not_le.1 hbit)

/-- `icbrt` is the cube root rounded down (R7). -/
theorem icbrt_bounds {n : Nat} (h : n < 2 ^ 96) : icbrt n ^ 3 ≤ n ∧ n < (icbrt n + 1) ^ 3 :=
  icbrtFrom_bounds n 32 0 (Nat.zero_le _) (h.trans_eq (by norm_num))

theorem cbrtTabFrom_getElem? : ∀ (n j i : Nat), i < n →
    (cbrtTabFrom n j)[i]? = some (BitVec.ofNat 32 (icbrt ((j + i) * 2 ^ 81)))
  | 0, _, _, h => absurd h (Nat.not_lt_zero _)
  | _ + 1, _, 0, _ => rfl
  | n + 1, j, i + 1, h => by
    rw [cbrtTabFrom, List.getElem?_cons_succ, cbrtTabFrom_getElem? n (j + 1) i (by omega), add_right_comm, add_assoc]

/-- The radicand of entry `j` is below `2^93` (R42). -/
theorem cbrt_radicand_lt {j : Nat} (hj : j ≤ 1025) : j * 2 ^ 81 < (2 ^ 31) ^ 3 :=
  lt_of_le_of_lt (Nat.mul_le_mul_right _ hj) (by norm_num)

theorem icbrt_radicand_bounds {j : Nat} (hj : j ≤ 1025) :
    icbrt (j * 2 ^ 81) ^ 3 ≤ j * 2 ^ 81 ∧ j * 2 ^ 81 < (icbrt (j * 2 ^ 81) + 1) ^ 3 :=
  icbrt_bounds ((cbrt_radicand_lt hj).trans (by norm_num))

theorem icbrt_radicand_lt {j : Nat} (hj : j ≤ 1025) : icbrt (j * 2 ^ 81) < 2 ^ 31 :=
  lt_of_pow_lt_pow_left₀ 3 (Nat.zero_le _) ((icbrt_radicand_bounds hj).1.trans_lt (cbrt_radicand_lt hj))

/-- An entry of the default table is stored whole (R42). -/
theorem cbrt_of_default {rom : Rom} (h : rom.cbrtTab = defaultCbrtTab) {j : Nat} (hj : j ≤ 1025) :
    rom.cbrt j = icbrt (j * 2 ^ 81) := by
  have hlt := icbrt_radicand_lt hj
  rw [Rom.cbrt, h, defaultCbrtTab, List.getD_eq_getElem?_getD, cbrtTabFrom_getElem? 1026 0 j (by omega), Option.getD_some,
    zero_add, BitVec.toNat_ofNat]
  exact Nat.mod_eq_of_lt (hlt.trans (by norm_num))

/-- Settles O32: each entry is the rounded-down root of its radicand, and the radicands rise. -/
theorem cubeRootTable : Obligations.CubeRootTable := by
  intro rom j h hj
  obtain ⟨hlo, hhi⟩ := icbrt_radicand_bounds hj
  rw [cbrt_of_default h hj]
  refine ⟨hlo, hhi, icbrt_radicand_lt hj, fun k hk => ?_⟩
  have hkj : icbrt (k * 2 ^ 81) ^ 3 < (icbrt (j * 2 ^ 81) + 1) ^ 3 := by
    calc icbrt (k * 2 ^ 81) ^ 3 ≤ k * 2 ^ 81 := (icbrt_radicand_bounds (hk.trans hj)).1
      _ ≤ j * 2 ^ 81 := Nat.mul_le_mul_right _ hk
      _ < _ := hhi
  rw [cbrt_of_default h (hk.trans hj)]
  exact Nat.lt_succ_iff.1 (lt_of_pow_lt_pow_left₀ 3 (Nat.zero_le _) hkj)

end Sys2Proof.Machine
end

section
/-! SUPPORT. The bit reader over a supplied stream (spec R45, R66, R67), the engine's own moves (R68, R76; log 3) and the host's
accesses to a busy engine (R71). -/

namespace Sys2Proof.Machine

/-! The bit reader. -/

@[simp] theorem Reader.after_after (r : Reader) (m n : Nat) : (r.after m).after n = r.after (m + n) := by
  simp [Reader.after, Nat.add_assoc]

/-- A supplied bit stands at the reader's position, and the rest is supplied from the next one on (R45). -/
theorem Reader.supplies_cons {r : Reader} {b : Bool} {w : List Bool} :
    r.supplies (b :: w) ↔ r.stream[r.pos]? = some b ∧ (r.after 1).supplies w := by
  unfold Reader.supplies Reader.after
  rw [List.cons_prefix_iff, ← List.head?_drop, ← List.tail_drop]
  cases r.stream.drop r.pos <;> simp [eq_comm]

theorem Reader.bit_of_supplies {r : Reader} {b : Bool} {w : List Bool} (h : r.supplies (b :: w)) :
    r.bit = (b, r.after 1) := by
  obtain ⟨hb, _⟩ := Reader.supplies_cons.1 h
  simp only [Reader.bit, hb, Reader.after]

/-- Reading the low `n` bits of `v` puts them below the value read so far (R66). -/
theorem Reader.bitsFrom_of_supplies (v : Nat) : ∀ (n k : Nat) (r : Reader), r.supplies (bitsOf v n) →
    r.bitsFrom k n = (k * 2 ^ n + v % 2 ^ n, r.after n)
  | 0, k, r, _ => by simp [Reader.bitsFrom, Reader.after, Nat.mod_one]
  | n + 1, k, r, h => by
    obtain ⟨_, hrest⟩ := Reader.supplies_cons.1 h
    have hval : (2 * k + (v.testBit n).toNat) * 2 ^ n + v % 2 ^ n = k * 2 ^ (n + 1) + v % 2 ^ (n + 1) := by
      rw [Nat.mod_pow_succ, Nat.toNat_testBit]
      ring
    rw [Reader.bitsFrom, Reader.bit_of_supplies h, Reader.bitsFrom_of_supplies v n _ _ hrest, hval, Reader.after_after,
      Nat.add_comm 1 n]

theorem Reader.bits_of_supplies {n v : Nat} {r : Reader} (hv : v < 2 ^ n) (h : r.supplies (bitsOf v n)) :
    r.bits n = (v, r.after n) := by
  rw [Reader.bits, Reader.bitsFrom_of_supplies v n 0 r h, Nat.zero_mul, Nat.zero_add, Nat.mod_eq_of_lt hv]

/-- Settles O17: each supplied bit is put below the bits before it, and any bit moves the position by one. -/
theorem firstBitReadIsMostSignificant : Obligations.FirstBitReadIsMostSignificant :=
  ⟨fun _ _ _ hv h => Reader.bits_of_supplies hv h, fun n r =>
    ⟨Reader.bits_lt n r, Reader.bitsFrom_pos n 0 r, (Reader.bits_ahead n r).1⟩⟩

/-! The engine's moves. -/

/-- Where the engine moves next, the step is its own, with the entry that let it move once taken off (log 3). -/
theorem step_of_engineMoves {s : State} (h : engineMoves s) :
    step s = engineStep { s with pending := afterEngine s } := by
  unfold step advance afterEngine
  rcases h with hp | ⟨rest, hp⟩ | ⟨hb, rest, hp⟩
  · simp only [hp]
    rw [← hp]
  · simp only [hp]
  · simp only [hp, if_pos hb]
    rw [← hp]

/-- Of the engine's moves only a section that decodes tuples, and an error, write the tuple registers or move the reader (R76,
R307). -/
theorem EngineMove.dp_eq {s t : State} (m : EngineMove s t) (hs : s.phase ≠ .unpack) (ht : t.phase ≠ .error) :
    t.dp = s.dp := by
  cases m with
  | leave h | zeroed h | stored h => exact absurd h hs
  | illegal | overrun | tooLarge | badBand => exact absurd rfl ht
  | window => rw [endWindow_frame]
  | rest | deinterleaved | solved | swept | band => rfl

/-- Settles O59: outside UNPACK the engine's moves that write the datapath are those that raise an error. -/
theorem onlyUnpackReadsBits : Obligations.OnlyUnpackReadsBits := by
  intro s t he h hs ht
  rw [step_of_engineMoves he] at h
  exact (engineStep_next h).dp_eq hs ht

/-! The host and a busy engine. -/

/-- START is ignored in the busy phases (R285). -/
theorem execStart_of_busy {s : State} (hb : s.busy = true) : execStart s = .next s := by
  have hl : startLegal s = false := by
    unfold State.busy at hb
    cases hp : s.phase <;> simp [startLegal, hp] at hb ⊢
  rw [execStart, hl]
  rfl

/-- RESUME is ignored in the busy phases (R285). -/
theorem execResume_of_busy {s : State} (hb : s.busy = true) : execResume s = .next s :=
  if_neg fun hp => by simp [State.busy, hp] at hb

/-- A `CTRL` write without the ABORT bit issues START, RESUME or nothing, none of which acts on a busy engine (R71, R97, R285). -/
theorem hostWrite_ctrl_of_busy {s : State} {v : HostWord} (hb : s.busy = true) (hv : v.getLsbD 2 = false) :
    hostWrite .ctrl v s = .next s := by
  rw [hostWrite, decode, decodeControl, if_neg (Bool.eq_false_iff.1 hv)]
  split
  · exact execStart_of_busy hb
  · split
    · exact execResume_of_busy hb
    · rfl

theorem hostWrite_of_busy {s : State} {r : HostReg} {v : HostWord} (hb : s.busy = true)
    (hv : r = .ctrl → v.getLsbD 2 = false) : hostWrite r v s = .next s := by
  by_cases hr : r = .ctrl
  · subst hr
    exact hostWrite_ctrl_of_busy hb (hv rfl)
  · rw [hostWrite_of_ne_ctrl hr, writeReg_of_busy r v hb]

/-- `STATUS` is the register a read gives in any phase (R34, R71). -/
theorem readReg_status (s : State) : readReg .status s = { s with hostData := s.statusWord } :=
  if_neg fun h => h.2 rfl

/-- Any other register reads as a free value while the engine is busy (R71; log 9). -/
theorem readReg_of_busy {s : State} {r : HostReg} (hb : s.busy = true) (hr : r ≠ .status) :
    readReg r s = { s with hostData := Config.freeWord s.draws, draws := s.draws + 1 } :=
  if_pos ⟨hb, hr⟩

/-- So does any element (R71; log 9). -/
theorem readElem_of_busy {s : State} (hb : s.busy = true) (sp : Space) (i : Nat) :
    readElem sp i s = { s with hostData := Config.freeWord s.draws, draws := s.draws + 1 } :=
  if_pos (.inl hb)

/-- Settles O45: each access of the host, by the rule for it in the busy phases. -/
theorem busyHostWritesAreDropped : Obligations.BusyHostWritesAreDropped := by
  intro s rest hb
  have hb' : { s with pending := rest }.busy = true := hb
  refine ⟨fun sp i v hp => ?_, fun r v hv hp => ?_, fun hp => ?_, fun r hr hp => ⟨Config.freeWord s.draws, ?_⟩,
    fun sp i hp => ⟨Config.freeWord s.draws, ?_⟩⟩
  · rw [step_of_writeElem hp, writeElem_of_dropped v (.inl hb')]
  · rw [step_of_writeReg hp, hostWrite_of_busy hb' hv]
  · rw [step_of_readReg hp, readReg_status]
    rfl
  · rw [step_of_readReg hp, readReg_of_busy hb' hr]
  · rw [step_of_readElem hp, readElem_of_busy hb']

end Sys2Proof.Machine
end

section
/-! SUPPORT. The encoding (spec R91, R93, R96, R98): a row of the opcode map and the descriptors, the instruction and the section it
stands for. -/

namespace Sys2Proof.Machine

/-! Descriptors and rows of the opcode map. -/

@[simp] theorem cb_descriptorWord (cb : BitVec 4) (e : SfbEnd) : (descriptorWord cb e).cb = cb := by
  apply BitVec.eq_of_getLsbD_eq
  intro i hi
  simp only [Descriptor.cb, descriptorWord]
  interval_cases i <;> simp

@[simp] theorem sfbEnd_descriptorWord (cb : BitVec 4) (e : SfbEnd) : (descriptorWord cb e).sfbEnd = e := by
  apply BitVec.eq_of_getLsbD_eq
  intro i hi
  simp only [Descriptor.sfbEnd, descriptorWord]
  interval_cases i <;> simp

/-- Encoding the two fields of a descriptor clears its reserved bits and nothing else (R91, R98). -/
theorem descriptorWord_fields (w : Descriptor) : descriptorWord w.cb w.sfbEnd = w &&& 0xF0FF#16 := by
  apply BitVec.eq_of_getLsbD_eq
  intro i hi
  simp only [Descriptor.cb, Descriptor.sfbEnd, descriptorWord]
  interval_cases i <;> simp

/-- R93 assigns all 16 opcodes. -/
theorem exists_row (cb : BitVec 4) : ∃ row ∈ opcodeMap, row.1 = cb :=
  List.mem_map.1 ((by decide : ∀ c : BitVec 4, c ∈ opcodeMap.map Prod.fst) cb)

/-- No two rows of the map have one opcode, so that the decoder finds the row. -/
theorem find_row : ∀ row ∈ opcodeMap, opcodeMap.find? (fun r => r.1 == row.1) = some row := by
  intro row h
  fin_cases h <;> rfl

theorem codebook_row (e : SfbEnd) : ∀ row ∈ opcodeMap, (row.2 e).codebook = some row.1 := by
  intro row h
  fin_cases h <;> rfl

theorem encode_row (e : SfbEnd) : ∀ row ∈ opcodeMap, encode (row.2 e) = .descriptor (descriptorWord row.1 e) := by
  intro row h
  fin_cases h <;> rfl

/-- The section a row runs, by the class of its opcode (R94, R121). -/
theorem exec_row (e : SfbEnd) (s : State) : ∀ row ∈ opcodeMap, exec (row.2 e) s =
    if row.1.toNat = 0 ∨ row.1.toNat = 13 ∨ row.1.toNat = 14 ∨ row.1.toNat = 15 then zeroSection e s
    else regular row.1.toNat e s := by
  intro row h
  fin_cases h <;> rfl

theorem decodeDescriptor_of_row {row : BitVec 4 × (SfbEnd → Instr)} (h : row ∈ opcodeMap) {w : Descriptor}
    (hw : row.1 = w.cb) : decodeDescriptor w = .ok (row.2 w.sfbEnd) := by
  rw [decodeDescriptor, ← hw, find_row row h]

/-- A word encoded from an opcode and an operand decodes to the row of that opcode with that operand. -/
theorem decode_descriptorWord {cb : BitVec 4} {f : SfbEnd → Instr} (h : (cb, f) ∈ opcodeMap) (e : SfbEnd) :
    decode (.descriptor (descriptorWord cb e)) = .ok (f e) := by
  rw [decode, decodeDescriptor_of_row h (cb_descriptorWord cb e).symm, sfbEnd_descriptorWord]

/-- With a section left in the table, the engine's step in UNPACK runs what its descriptor decodes to (R120, R121). -/
theorem engineStep_of_section {s : State} (hs : s.phase = .unpack) (hn : s.nsect.toNat ≤ 128)
    (hp : s.sectPtr.toNat < s.nsect.toNat) : engineStep s = runDecoded (decode (.descriptor s.fetched)) s := by
  rw [engineStep, hs]
  show unpackStep s = _
  rw [unpackStep, if_neg (not_lt.2 hn), if_pos hp]

/-! The obligations. -/

/-- Settles O1: a section opcode by the fields of its descriptor, a command by its bit. -/
theorem decodeOfEncode : Obligations.DecodeOfEncode := by
  intro i
  cases i with
  | start | resume | abort => rfl
  | zero e | hcb1 e | hcb2 e | hcb3 e | hcb4 e | hcb5 e | hcb6 e | hcb7 e | hcb8 e | hcb9 e | hcb10 e | hcb11 e | rsvd12 e
  | noise e | int2 e | int e => exact decode_descriptorWord (by simp [opcodeMap]) e

/-- Settles O2: the row at the opcode of the descriptor; clearing the reserved bits keeps both fields. -/
theorem descriptorIsOpcodeAndOperand : Obligations.DescriptorIsOpcodeAndOperand := by
  intro w
  obtain ⟨row, hrow, hcb⟩ := exists_row w.cb
  have hdec : decode (.descriptor w) = .ok (row.2 w.sfbEnd) := decodeDescriptor_of_row hrow hcb
  have henc : encode (row.2 w.sfbEnd) = .descriptor (w &&& 0xF0FF#16) := by
    rw [encode_row _ row hrow, hcb, descriptorWord_fields]
  refine ⟨row, hrow, hcb, codebook_row _ row hrow, hdec, henc, ?_⟩
  rw [← henc, hdec]
  exact decodeOfEncode _

/-- Settles O5: the engine runs the row of the fetched word. -/
theorem classDecidesTheSection : Obligations.ClassDecidesTheSection := by
  intro s hphase hnsect hptr hpending
  obtain ⟨row, hrow, hcb⟩ := exists_row s.fetched.cb
  have hrun : step s = exec (row.2 s.fetched.sfbEnd) s := by
    rw [step_of_nil hpending, engineStep_of_section hphase hnsect hptr, decode, decodeDescriptor_of_row hrow hcb]
    rfl
  rw [hrun, exec_row _ s row hrow, hcb]
  rfl

/-- Settles O3: each word is evaluated. -/
theorem sampleWordsDecode : Obligations.SampleWordsDecode :=
  ⟨rfl, rfl, rfl, rfl, rfl, rfl, rfl, rfl, rfl, rfl⟩

end Sys2Proof.Machine
end

section
/-! SUPPORT. What a coded bit stream decodes to (spec R100, R101, R161, R181 to R190): codewords, digits, signs, escape sequences,
tuples. -/

namespace Sys2Proof.Machine

/-! The bit stream. -/

@[simp] theorem Reader.after_zero (r : Reader) : r.after 0 = r := rfl

@[simp] theorem Reader.supplies_nil (r : Reader) : r.supplies [] := List.nil_prefix

theorem Reader.supplies_append (w : List Bool) : ∀ (u : List Bool) (r : Reader),
    r.supplies (u ++ w) ↔ r.supplies u ∧ (r.after u.length).supplies w
  | [], r => by simp
  | b :: u, r => by
    rw [List.cons_append, Reader.supplies_cons, Reader.supplies_append w u, Reader.supplies_cons, Reader.after_after,
      List.length_cons, Nat.add_comm 1, and_assoc]

@[simp] theorem bitsOf_length (v : Nat) : ∀ n, (bitsOf v n).length = n
  | 0 => rfl
  | n + 1 => by rw [bitsOf, List.length_cons, bitsOf_length v n]

/-! Codewords. -/

/-- The walk follows the codeword the stream holds (R161, R162). -/
theorem walk_of_supplies : ∀ (t : CodeTree) (w : List Bool) (idx : BitVec 9) (r : Reader), (w, idx) ∈ t.code →
    r.supplies w → t.walk r = (idx, r.after w.length)
  | .leaf i, w, idx, r, hc, _ => by
    obtain ⟨rfl, rfl⟩ : w = [] ∧ idx = i := by simpa [CodeTree.code] using hc
    rfl
  | .node zero one, w, idx, r, hc, hs => by
    rw [CodeTree.code, List.mem_append, List.mem_map, List.mem_map] at hc
    rcases hc with ⟨⟨w', i⟩, hc, he⟩ | ⟨⟨w', i⟩, hc, he⟩
    all_goals
      obtain ⟨rfl, rfl⟩ := Prod.mk.inj he
      rw [CodeTree.walk, Reader.bit_of_supplies hs]
      simp [walk_of_supplies _ w' i _ hc (Reader.supplies_cons.1 hs).2, Nat.add_comm 1]

/-! Digits. -/

/-- A number below the modulus, with the offset taken off, is the digit that stands for it. -/
theorem digit_of_range {d : Int} {offset modulus : Nat} (h : 0 ≤ d + offset ∧ d + offset < modulus) :
    ∃ x : Nat, x < modulus ∧ d = (x : Int) - offset :=
  ⟨(d + offset).toNat, by omega, by omega⟩

/-- The digits are determined by their index (R181). -/
theorem digits_of_indexOf {b : CodeBook} {ds : List Int} {idx : Nat} (hlen : ds.length = b.dim.count)
    (hr : ∀ d ∈ ds, 0 ≤ d + b.offset ∧ d + b.offset < b.modulus) (hidx : b.indexOf ds = idx) : digits b idx = ds := by
  have divMod : ∀ {k q r : Nat}, r < k → (q * k + r) / k = q ∧ (q * k + r) % k = r := fun h =>
    (Nat.div_mod_unique (by omega)).2 ⟨by ring, h⟩
  have below : ∀ {n k q r : Nat}, q < n → r < k → q * k + r < n * k := fun {n k q r} hq hr => by
    calc q * k + r < (q + 1) * k := by rw [Nat.succ_mul]; omega
      _ ≤ n * k := Nat.mul_le_mul_right k hq
  unfold digits
  cases hd : b.dim with
  | pair =>
    obtain ⟨d0, d1, rfl⟩ := List.length_eq_two.1 (hlen.trans (congrArg _ hd))
    simp only [List.forall_mem_cons] at hr
    obtain ⟨h0, h1, _⟩ := hr
    obtain ⟨x, hx, rfl⟩ := digit_of_range h0
    obtain ⟨y, hy, rfl⟩ := digit_of_range h1
    have hi : idx = x * b.modulus + y := by
      zify
      rw [← hidx]
      simp [CodeBook.indexOf]
    obtain ⟨hq, hm⟩ := divMod (q := x) hy
    simp [hi, hq, hm]
  | quad =>
    obtain ⟨d0, d1, d2, d3, rfl⟩ := List.length_eq_four.1 (hlen.trans (congrArg _ hd))
    simp only [List.forall_mem_cons] at hr
    obtain ⟨h0, h1, h2, h3, _⟩ := hr
    obtain ⟨x, hx, rfl⟩ := digit_of_range h0
    obtain ⟨y, hy, rfl⟩ := digit_of_range h1
    obtain ⟨z, hz, rfl⟩ := digit_of_range h2
    obtain ⟨u, hu, rfl⟩ := digit_of_range h3
    have hi : idx = x * b.modulus ^ 3 + (y * b.modulus ^ 2 + (z * b.modulus + u)) := by
      zify
      rw [← hidx]
      simp [CodeBook.indexOf]
      ring
    have hzu : z * b.modulus + u < b.modulus ^ 2 := (below hz hu).trans_eq (by ring)
    have hyzu : y * b.modulus ^ 2 + (z * b.modulus + u) < b.modulus ^ 3 := (below hy hzu).trans_eq (by ring)
    obtain ⟨hq3, hm3⟩ := divMod (q := x) hyzu
    obtain ⟨hq2, hm2⟩ := divMod (q := y) hzu
    obtain ⟨hq1, hm1⟩ := divMod (q := z) hu
    simp [hi, hq3, hm3, hq2, hm2, hq1, hm1]

/-! Signs. -/

/-- The sign bits of some values put their signs back on their magnitudes (R184). -/
theorem signs_of_supplies : ∀ (vs : List Int) (r : Reader), r.supplies (signCode vs) →
    signs (vs.map (fun v => (v.natAbs : Int))) r = (vs, r.after (signCode vs).length)
  | [], _, _ => rfl
  | v :: vs, r, h => by
    by_cases hv : v = 0
    · subst hv
      have ih := signs_of_supplies vs r h
      simp only [List.map_cons, Int.natAbs_zero, Nat.cast_zero, signs, if_true, ih]
      rfl
    · have hcode : signCode (v :: vs) = decide (v < 0) :: signCode vs := by simp [signCode, hv]
      rw [hcode] at h ⊢
      have ih := signs_of_supplies vs _ (Reader.supplies_cons.1 h).2
      have hsign : (if decide (v < 0) = true then -(v.natAbs : Int) else (v.natAbs : Int)) = v := by
        simp only [decide_eq_true_eq]
        split <;> omega
      simp only [List.map_cons, signs, Int.natCast_eq_zero, Int.natAbs_eq_zero, hv, if_false, Reader.bit_of_supplies h, ih,
        hsign, Reader.after_after, List.length_cons, Nat.add_comm 1]

/-! Escape sequences. -/

/-- A unary run of `j` one-bits and a zero-bit counts to `n + j` (R188). -/
theorem escapeRun_of_supplies : ∀ (j k n : Nat) (r : Reader), j ≤ k → r.supplies (List.replicate j true ++ [false]) →
    escapeRun k n r = (some (n + j), r.after (j + 1))
  | 0, 0, n, r, _, h | 0, k + 1, n, r, _, h => by simp [escapeRun, Reader.bit_of_supplies h]
  | j + 1, k + 1, n, r, hj, h => by
    have ih := escapeRun_of_supplies j k (n + 1) (r.after 1) (by omega) (Reader.supplies_cons.1 h).2
    rw [escapeRun, Reader.bit_of_supplies h, if_pos rfl, ih, Reader.after_after, Nat.add_comm 1, Nat.add_assoc n,
      Nat.add_comm 1]

/-- One one-bit too many ends the run without a value (R189). -/
theorem escapeRun_overrun : ∀ (k n : Nat) (r : Reader), r.supplies (List.replicate (k + 1) true) →
    escapeRun k n r = (none, r.after (k + 1))
  | 0, n, r, h => by simp [escapeRun, Reader.bit_of_supplies h]
  | k + 1, n, r, h => by
    have ih := escapeRun_overrun k (n + 1) (r.after 1) (Reader.supplies_cons.1 h).2
    rw [escapeRun, Reader.bit_of_supplies h, if_pos rfl, ih, Reader.after_after, Nat.add_comm 1]

theorem log2_of_escaped {m : Nat} (hlo : 16 ≤ m) (hhi : m ≤ 16383) : 4 ≤ Nat.log2 m ∧ Nat.log2 m ≤ 13 :=
  ⟨(Nat.le_log2 (by omega)).2 hlo, Nat.le_of_lt_succ ((Nat.log2_lt (by omega)).2 (by omega))⟩

@[simp] theorem escapeCode_length (m : Nat) : (escapeCode m).length = Nat.log2 m - 4 + (Nat.log2 m + 1) := by
  simp [escapeCode]

/-- The low `N` bits of a number between `2^N` and `2^(N+1)`. -/
theorem mod_two_pow_log2 {m : Nat} (h : m ≠ 0) : m % 2 ^ Nat.log2 m = m - 2 ^ Nat.log2 m := by
  have hlo := Nat.log2_self_le h
  have hhi : m < 2 ^ Nat.log2 m * 2 := Nat.pow_succ .. ▸ Nat.lt_log2_self
  rw [Nat.mod_eq_sub_mod hlo, Nat.mod_eq_of_lt (by omega)]

/-- An escape sequence expands to its magnitude with the sign of the digit (R188). -/
theorem expand_of_supplies {d : Int} (hd : d = 16 ∨ d = -16) (e : EscRegs) {r : Reader} {m : Nat} (hlo : 16 ≤ m)
    (hhi : m ≤ 16383) (h : r.supplies (escapeCode m)) :
    expand d e r =
      { value := some (if 0 < d then (m : Int) else -(m : Int))
        regs := { n := BitVec.ofNat 4 (Nat.log2 m), l := BitVec.ofNat 13 (m - 2 ^ Nat.log2 m) }
        reader := r.after (escapeCode m).length } := by
  obtain ⟨h4, h13⟩ := log2_of_escaped hlo hhi
  rw [escapeCode, ← List.singleton_append, ← List.append_assoc, Reader.supplies_append] at h
  obtain ⟨hunary, hlow⟩ := h
  have hrun : escapeRun (Config.escNMax - Config.escN0) Config.escN0 r = (some (Nat.log2 m), r.after (Nat.log2 m - 4 + 1)) := by
    have h := escapeRun_of_supplies (Nat.log2 m - 4) 9 4 r (by omega) hunary
    rwa [Nat.add_sub_cancel' h4] at h
  have hlit : (r.after (Nat.log2 m - 4 + 1)).bits (Nat.log2 m) =
      (m - 2 ^ Nat.log2 m, r.after (escapeCode m).length) := by
    rw [List.length_append, List.length_replicate, List.length_singleton] at hlow
    rw [Reader.bits, Reader.bitsFrom_of_supplies m _ 0 _ hlow, Nat.zero_mul, Nat.zero_add, mod_two_pow_log2 (by omega),
      Reader.after_after, escapeCode_length, Nat.add_assoc, Nat.add_comm 1]
  have hval : (d * ((m - 2 ^ Nat.log2 m + 2 ^ Nat.log2 m : Nat) : Int)) >>> (4 : Nat) =
      if 0 < d then (m : Int) else -(m : Int) := by
    rw [Nat.sub_add_cancel (Nat.log2_self_le (by omega)), Int.shiftRight_eq_div_pow]
    rcases hd with rfl | rfl <;> norm_num
    omega
  simp only [expand, hrun, hlit, hval]

/-- The digit that codes a value under the escape codebook, with its sign: the value cut at 16 (R185). -/
def clipped (v : Int) : Int := if v < 0 then -((min v.natAbs 16 : Nat) : Int) else ((min v.natAbs 16 : Nat) : Int)

@[simp] theorem clipped_natAbs (v : Int) : (clipped v).natAbs = min v.natAbs 16 := by
  unfold clipped
  split <;> omega

theorem clipped_of_lt {v : Int} (h : v.natAbs < 16) : clipped v = v := by
  unfold clipped
  split <;> omega

theorem signCode_clipped (vs : List Int) : signCode (vs.map clipped) = signCode vs := by
  have hz : ∀ v : Int, clipped v = 0 ↔ v = 0 := fun v => by unfold clipped; split <;> omega
  have hneg : ∀ v : Int, clipped v < 0 ↔ v < 0 := fun v => by unfold clipped; split <;> omega
  simp [signCode, List.filter_map, Function.comp_def, bne, beq_eq_decide, hz, hneg]

theorem isSentinel_clipped (v : Int) : isSentinel (clipped v) = decide (16 ≤ v.natAbs) := by
  rw [Bool.eq_iff_iff, isSentinel_iff _ (by simp), clipped_natAbs, decide_eq_true_iff, min_eq_right_iff]

/-- The escape sequence of a value expands the digit that codes it back to the value (R187, R188). -/
theorem expand_clipped {v : Int} (hlo : 16 ≤ v.natAbs) (hhi : v.natAbs ≤ 16383) (e : EscRegs) {r : Reader}
    (h : r.supplies (escapeCode v.natAbs)) :
    (expand (clipped v) e r).value = some v ∧ (expand (clipped v) e r).reader = r.after (escapeCode v.natAbs).length := by
  have hd : clipped v = 16 ∨ clipped v = -16 := by unfold clipped; split <;> omega
  have hsign : (if 0 < clipped v then (v.natAbs : Int) else -(v.natAbs : Int)) = v := by
    unfold clipped
    split <;> split <;> omega
  rw [expand_of_supplies hd e hlo hhi h, hsign]
  exact ⟨rfl, rfl⟩

theorem expand_overrun (d : Int) (e : EscRegs) {r : Reader} (h : r.supplies (List.replicate 10 true)) :
    expand d e r = { value := none, regs := { e with n := 13#4 }, reader := r.after 10 } := by
  have hrun : escapeRun (Config.escNMax - Config.escN0) Config.escN0 r = (none, r.after 10) := escapeRun_overrun 9 4 r h
  simp only [expand, hrun]

/-- The escape sequences of some values, before any further digits (R187). -/
theorem escapes_append : ∀ (vs ds : List Int) (e : EscRegs) (r : Reader), (∀ v ∈ vs, v.natAbs ≤ 16383) →
    r.supplies (escapesCode vs) → ∃ e', escapes (vs.map clipped ++ ds) e r =
      { escapes ds e' (r.after (escapesCode vs).length) with
        vals := vs ++ (escapes ds e' (r.after (escapesCode vs).length)).vals }
  | [], ds, e, r, _, _ => ⟨e, rfl⟩
  | v :: vs, ds, e, r, hv, h => by
    obtain ⟨hv, hvs⟩ := List.forall_mem_cons.1 hv
    rw [List.map_cons, List.cons_append, escapes, isSentinel_clipped]
    by_cases hs : 16 ≤ v.natAbs
    · have hcode : escapesCode (v :: vs) = escapeCode v.natAbs ++ escapesCode vs := by simp [escapesCode, hs]
      rw [hcode, Reader.supplies_append] at h
      obtain ⟨hx, hr⟩ := expand_clipped hs hv e h.1
      obtain ⟨e', ih⟩ := escapes_append vs ds (expand (clipped v) e r).regs _ hvs h.2
      refine ⟨e', ?_⟩
      simp only [hs, decide_true, if_true, hx, hr, ih, hcode, List.length_append, Reader.after_after, List.cons_append]
    · have hcode : escapesCode (v :: vs) = escapesCode vs := by simp [escapesCode, hs]
      rw [hcode] at h
      obtain ⟨e', ih⟩ := escapes_append vs ds e r hvs h
      refine ⟨e', ?_⟩
      simp [hs, ih, hcode, clipped_of_lt (not_le.1 hs)]

/-- An escape sequence with ten one-bits ends the escapes of a tuple in the error (R189). -/
theorem escapes_overrun {before later : List Int} {v : Int} (e : EscRegs) {r : Reader} (hv : 16 ≤ v.natAbs)
    (hbefore : ∀ u ∈ before, u.natAbs ≤ 16383) (hs : r.supplies (escapesCode before ++ List.replicate 10 true)) :
    (escapes ((before ++ v :: later).map clipped) e r).overrun = true := by
  rw [Reader.supplies_append] at hs
  obtain ⟨e', hesc⟩ := escapes_append before ((v :: later).map clipped) e r hbefore hs.1
  rw [List.map_append, hesc, List.map_cons, escapes, isSentinel_clipped, decide_eq_true hv, if_pos rfl,
    expand_overrun _ _ hs.2]

/-! One tuple. -/

/-- After its codeword a tuple is unpacked from the codeword's index (R100, R180). -/
theorem tuple_of_codeword {rom : Rom} {cb : Nat} {w : List Bool} {idx : BitVec 9} {d : Datapath}
    (hc : (w, idx) ∈ (rom.tree cb).code) (hs : d.reader.supplies w) : tuple rom cb d =
      unpack (unpackRule cb (rom.book cb)) (rom.book cb) idx.toNat
        { d with cwidx := idx, reader := d.reader.after w.length } := by
  rw [tuple, walk_of_supplies _ w idx _ hc hs]

/-- The sign bits of some values put their signs on their magnitudes cut at 16 (R184, R185). -/
theorem signs_of_cut {vs : List Int} {r : Reader} (h : r.supplies (signCode vs)) :
    signs (vs.map (fun v => ((min v.natAbs 16 : Nat) : Int))) r = (vs.map clipped, r.after (signCode vs).length) := by
  have hsigns := signs_of_supplies (vs.map clipped) r (by rwa [signCode_clipped])
  simpa only [List.map_map, Function.comp_def, clipped_natAbs, signCode_clipped] using hsigns

/-- Unpacking the index of the digits that code some values gives the values (R183 to R185). -/
theorem unpack_of_supplies {cb : Nat} {b : CodeBook} {vs : List Int} {idx : Nat} {d : Datapath}
    (hdigits : digits b idx = codedDigits cb b vs) (hv : ∀ v ∈ vs, v.natAbs ≤ 16383)
    (hs : d.reader.supplies (trailingCode cb b vs)) :
    (unpack (unpackRule cb b) b idx d).vals = vs ∧ (unpack (unpackRule cb b) b idx d).outcome = .complete
      ∧ (unpack (unpackRule cb b) b idx d).dp.reader = d.reader.after (trailingCode cb b vs).length := by
  unfold codedDigits at hdigits
  unfold trailingCode at hs ⊢
  cases hrule : unpackRule cb b <;> simp only [hrule] at hdigits hs ⊢
  case plain => simp [unpack, hdigits]
  case explicitSign => simp only [unpack, hdigits, signs_of_supplies vs _ hs, Datapath.setDig_reader, and_self]
  case escape =>
    rw [Reader.supplies_append] at hs
    obtain ⟨e', hesc⟩ := escapes_append vs [] { n := d.escN, l := d.escL } _ hv hs.2
    rw [List.append_nil] at hesc
    simp only [unpack, hdigits, signs_of_cut hs.1, hesc, escapes, List.append_nil, Datapath.setDig_reader, List.length_append,
      Reader.after_after, Bool.false_eq_true, if_false, and_self]

/-- A tuple code decodes to the values it codes and no bit more is read (R100). -/
theorem tuple_of_codes {rom : Rom} {cb : Nat} {vs : List Int} {bits : List Bool} {d : Datapath}
    (hc : CodesTuple rom cb vs bits) (hs : d.reader.supplies bits) :
    (tuple rom cb d).vals = vs ∧ (tuple rom cb d).outcome = .complete
      ∧ (tuple rom cb d).dp.reader = d.reader.after bits.length := by
  obtain ⟨b, w, idx, rfl, hcode, hlen, hv, hrange, hidx, rfl⟩ := hc
  rw [Reader.supplies_append] at hs
  have hcoded : (codedDigits cb (rom.book cb) vs).length = (rom.book cb).dim.count := by
    unfold codedDigits
    split <;> simpa using hlen
  have h := unpack_of_supplies (d := { d with cwidx := idx, reader := d.reader.after w.length })
    (digits_of_indexOf hcoded hrange hidx) hv hs.2
  rw [tuple_of_codeword hcode hs.1, List.length_append, ← Reader.after_after]
  exact h

theorem Rom.book_escape (rom : Rom) : (rom.book 11).dim = .pair ∧ (rom.book 11).offset = 0 ∧ (rom.book 11).modulus = 17 := by
  obtain ⟨hdim, _, hoffset, hmodulus⟩ := CodeBook.wf_escape (rom.entry_wf (by omega) le_rfl).1
  exact ⟨hdim, hoffset, hmodulus⟩

/-- A tuple with an escape sequence that runs to a tenth one-bit ends in the error (R189). -/
theorem tuple_of_overrun {rom : Rom} {bits : List Bool} {d : Datapath} (hc : CodesOverrun rom bits)
    (hs : d.reader.supplies bits) : (tuple rom 11 d).outcome = .overrun := by
  obtain ⟨_, w, idx, vs, before, v, later, rfl, hcode, hvs, hlen, hv16, hv, hidx, rfl⟩ := hc
  obtain ⟨hdim, hoffset, hmodulus⟩ := Rom.book_escape rom
  have hrule : unpackRule 11 (rom.book 11) = .escape := rfl
  have hdigits : digits (rom.book 11) idx.toNat = vs.map (fun v => ((min v.natAbs 16 : Nat) : Int)) := by
    refine digits_of_indexOf (by rw [List.length_map, hlen, hdim]; rfl) ?_ hidx
    rw [List.forall_mem_map, hoffset, hmodulus]
    intro u _
    omega
  rw [List.append_assoc, List.append_assoc, Reader.supplies_append, Reader.supplies_append] at hs
  obtain ⟨hw, hsign, hones⟩ := hs
  have hover : ∀ e, (escapes (vs.map clipped) e ((d.reader.after w.length).after (signCode vs).length)).overrun = true := by
    intro e
    rw [hvs] at hones ⊢
    exact escapes_overrun e hv16 (fun u hu => hv u (hvs ▸ List.mem_append_left _ hu)) hones
  rw [tuple_of_codeword hcode hw, hrule]
  simp only [unpack, hdigits, signs_of_cut hsign, hover, if_true]

/-! The tuples of a section. -/

/-- The tuple codes of some values decode to them, before any further tuples (R100, R125). -/
theorem tuples_of_codes {rom : Rom} {cb : Nat} (n : Nat) : ∀ (tups : List (List Int)) (bits : List Bool) (d : Datapath),
    CodesTuples rom cb tups bits → d.reader.supplies bits → ∃ d' : Datapath, d'.reader = d.reader.after bits.length ∧
      tuples rom cb (tups.length + n) d =
        { tuples rom cb n d' with vals := tups.flatten ++ (tuples rom cb n d').vals }
  | [], bits, d, hc, _ => by
    subst hc
    exact ⟨d, rfl, by simp⟩
  | vs :: tups, bits, d, hc, hs => by
    obtain ⟨b1, b2, rfl, h1, h2⟩ := hc
    rw [Reader.supplies_append] at hs
    obtain ⟨hvals, hend, hreader⟩ := tuple_of_codes h1 hs.1
    obtain ⟨d', hd', ih⟩ := tuples_of_codes n tups b2 (tuple rom cb d).dp h2 (by rw [hreader]; exact hs.2)
    refine ⟨d', by rw [hd', hreader, Reader.after_after, List.length_append], ?_⟩
    rw [List.length_cons, Nat.add_right_comm, tuples]
    simp only [hend, ih, hvals, List.flatten_cons, List.append_assoc]

end Sys2Proof.Machine
end

section
/-! SUPPORT. The bits a tuple reads (spec R102, R352), what a regular section stores (R125, R192, R193), what an error leaves (R306,
R307), and a section over a coded stream. -/

namespace Sys2Proof.Machine

/-! The number of bits read. -/

/-- The unary run reads its one-bits and the bit that ends it (R188, R189). -/
theorem escapeRun_pos : ∀ (k n : Nat) (r : Reader),
    ((escapeRun k n r).1 = none → (escapeRun k n r).2.pos = r.pos + k + 1)
    ∧ ∀ m, (escapeRun k n r).1 = some m → (escapeRun k n r).2.pos + n = r.pos + m + 1
  | 0, n, r => by
    unfold escapeRun
    cases r.bit.1 <;> simp [Nat.add_right_comm]
  | k + 1, n, r => by
    unfold escapeRun
    cases r.bit.1 with
    | false => simp [Nat.add_right_comm]
    | true =>
      obtain ⟨hnone, hsome⟩ := escapeRun_pos k (n + 1) r.bit.2
      rw [Reader.bit_pos] at hnone hsome
      rw [if_pos rfl]
      exact ⟨fun h => by rw [hnone h]; omega, fun m h => by have := hsome m h; omega⟩

/-- An escape sequence reads at most 23 bits, and 10 when it overruns (R188, R189). -/
theorem expand_pos (d : Int) (e : EscRegs) (r : Reader) :
    ((expand d e r).value = none → (expand d e r).reader.pos ≤ r.pos + 10)
    ∧ (expand d e r).reader.pos ≤ r.pos + 23 := by
  obtain ⟨hnone, hsome⟩ := escapeRun_pos (Config.escNMax - Config.escN0) Config.escN0 r
  have hrange := escapeRun_range (Config.escNMax - Config.escN0) Config.escN0 r
  unfold expand
  cases hrun : (escapeRun (Config.escNMax - Config.escN0) Config.escN0 r).1 with
  | none =>
    have hpos := hnone hrun
    simp only [hrun, hpos, Config.escNMax, Config.escN0]
    omega
  | some n =>
    obtain ⟨_, hn⟩ := hrange n hrun
    have hpos := hsome n hrun
    simp only [hrun, reduceCtorEq, false_implies, true_and, Reader.bits, Reader.bitsFrom_pos]
    simp only [Config.escNMax, Config.escN0] at hn hpos ⊢
    omega

/-- The escape sequences of a tuple read at most 23 bits each, 13 fewer when one overruns (R352). -/
theorem escapes_pos : ∀ (ds : List Int) (e : EscRegs) (r : Reader),
    ((escapes ds e r).overrun = true → (escapes ds e r).reader.pos + 13 ≤ r.pos + 23 * ds.length)
    ∧ (escapes ds e r).reader.pos ≤ r.pos + 23 * ds.length
  | [], _, r => by simp [escapes]
  | d :: ds, e, r => by
    rw [List.length_cons, escapes]
    split
    · obtain ⟨hnone, hall⟩ := expand_pos d e r
      cases hx : (expand d e r).value with
      | none =>
        have := hnone hx
        simp only [hx]
        omega
      | some v =>
        obtain ⟨hover, hrest⟩ := escapes_pos ds (expand d e r).regs (expand d e r).reader
        simp only [hx]
        exact ⟨fun h => by have := hover h; omega, by omega⟩
    · obtain ⟨hover, hrest⟩ := escapes_pos ds e r
      dsimp only
      exact ⟨fun h => by have := hover h; omega, by omega⟩

theorem signs_pos_le (ds : List Int) (r : Reader) : (signs ds r).2.pos ≤ r.pos + ds.length := by
  rw [signs_pos]
  exact Nat.add_le_add_left List.countP_le_length _

/-- Without escapes a tuple reads at most a sign bit for each digit after its codeword (R183, R184). -/
theorem unpack_pos_of_ne_escape {rule : UnpackRule} (h : rule ≠ .escape) (b : CodeBook) (idx : Nat) (d : Datapath) :
    (unpack rule b idx d).dp.reader.pos ≤ d.reader.pos + b.dim.count := by
  cases rule with
  | plain => simp [unpack]
  | explicitSign => simpa [unpack] using signs_pos_le (digits b idx) d.reader
  | escape => exact absurd rfl h

/-- The escape rule reads at most a sign bit and an escape sequence for each digit, 13 bits fewer when it overruns (R185, R352). -/
theorem unpack_escape_pos (b : CodeBook) (idx : Nat) (d : Datapath) :
    ((unpack .escape b idx d).outcome = .overrun →
      (unpack .escape b idx d).dp.reader.pos + 13 ≤ d.reader.pos + 24 * b.dim.count)
    ∧ (unpack .escape b idx d).dp.reader.pos ≤ d.reader.pos + 24 * b.dim.count := by
  have hsigns := signs_pos_le (digits b idx) d.reader
  obtain ⟨hover, hall⟩ := escapes_pos (signs (digits b idx) d.reader).1 { n := d.escN, l := d.escL }
    (signs (digits b idx) d.reader).2
  rw [digits_length] at hsigns
  rw [signs_length, digits_length] at hover hall
  simp only [unpack, Datapath.setDig_reader]
  refine ⟨fun h => ?_, by omega⟩
  have := hover (by simpa using h)
  omega

/-- A tuple is its codeword, then its unpacking (R100). -/
theorem tuple_eq_unpack (rom : Rom) (cb : Nat) (d : Datapath) : ∃ d' : Datapath,
    d'.reader = ((rom.tree cb).walk d.reader).2 ∧ tuple rom cb d =
      unpack (unpackRule cb (rom.book cb)) (rom.book cb) ((rom.tree cb).walk d.reader).1.toNat d' :=
  ⟨{ d with cwidx := ((rom.tree cb).walk d.reader).1, reader := ((rom.tree cb).walk d.reader).2 }, rfl, rfl⟩

/-- Settles O26: a codeword reads at most `LMAX` bits; codebook 11 has two digits with escapes, the others up to four without. -/
theorem tupleReadsBoundedBits : Obligations.TupleReadsBoundedBits := by
  intro rom cb d h1 h11
  obtain ⟨_, _, hwalk⟩ := rom.walk_wf h1 h11 d.reader
  obtain ⟨d', hd', htuple⟩ := tuple_eq_unpack rom cb d
  rw [← hd'] at hwalk
  by_cases hcb : cb = 11
  · subst hcb
    have hrule : unpackRule 11 (rom.book 11) = .escape := rfl
    obtain ⟨hover, hall⟩ := unpack_escape_pos (rom.book 11) ((rom.tree 11).walk d.reader).1.toNat d'
    rw [(Rom.book_escape rom).1, Dim.count] at hover hall
    rw [htuple, hrule]
    exact ⟨fun _ => by omega, fun h => by have := hover h; omega⟩
  · have hpos := unpack_pos_of_ne_escape (unpackRule_ne_escape hcb (rom.book cb)) (rom.book cb)
      ((rom.tree cb).walk d.reader).1.toNat d'
    have hdim : (rom.book cb).dim.count = 2 ∨ (rom.book cb).dim.count = 4 := dimOf_dvd rom cb
    refine ⟨fun _ => ?_, fun h => absurd (tuple_overrun rom cb d h) hcb⟩
    rw [htuple]
    omega

/-! What a regular section stores. -/

theorem maxAbs_eq_foldl : ∀ (vs : List Int) (m : Nat), maxAbs vs m = vs.foldl (fun m v => max m v.natAbs) m
  | [], _ => rfl
  | v :: vs, m => maxAbs_eq_foldl vs (max m v.natAbs)

/-- The maximum is the old one or the magnitude of a value (R192). -/
theorem maxAbs_attained : ∀ (vs : List Int) (m : Nat), maxAbs vs m = m ∨ ∃ v ∈ vs, v.natAbs = maxAbs vs m
  | [], _ => .inl rfl
  | v :: vs, m => by
    rw [maxAbs]
    rcases maxAbs_attained vs (max m v.natAbs) with h | ⟨u, hu, h⟩
    · rcases max_choice m v.natAbs with hm | hm
      · exact .inl (h.trans hm)
      · exact .inr ⟨v, List.mem_cons_self, by rw [h, hm]⟩
    · exact .inr ⟨u, List.mem_cons_of_mem _ hu, h⟩

/-- The `j`-th value is at the `j`-th line of the section (R125, R193). -/
theorem storeValues_read {vs : List Int} {s : State} {j : Nat} {v : Int} (h : vs[j]? = some v) (hv : v.natAbs ≤ 16383) :
    ((storeValues vs s).qs.read (s.line.toNat + j)).toInt = v := by
  obtain ⟨hj, _⟩ := List.getElem?_eq_some_iff.1 h
  rw [storeValues, read_storeRun, if_pos (by omega), Nat.add_sub_cancel_left, List.getD_eq_getElem?_getD, h,
    Option.getD_some, toInt_ofInt_of_natAbs_le hv]

/-- The other lines keep their values. -/
theorem storeValues_read_outside {vs : List Int} {s : State} {j : Nat}
    (h : j < s.line.toNat ∨ s.line.toNat + vs.length ≤ j) : (storeValues vs s).qs.read j = s.qs.read j := by
  rw [storeValues, read_storeRun, if_neg (by omega)]

/-- A regular section that completes stores its tuples' values and leaves the rest (R125, R192, R193). -/
theorem storedSection_of_complete {cb : Nat} (h1 : 1 ≤ cb) (h11 : cb ≤ 11) {e : SfbEnd} {s : State}
    (hr : rangeOk e s = true) (hc : (sectionTuples cb e s).outcome = .complete) :
    storedSection e s
      (nextSection (storeValues (sectionTuples cb e s).vals { s with dp := (sectionTuples cb e s).dp })) := by
  obtain ⟨_, _, hend, _⟩ := (rangeOk_iff e s).1 hr
  have hlen := sectionTuples_length hr hc
  have hfit := sectionTuples_natAbs h1 h11 e s
  have hmax := storeValues_max { s with dp := (sectionTuples cb e s).dp } hfit
  have hread : ∀ j v, (sectionTuples cb e s).vals[j]? = some v →
      ((storeValues (sectionTuples cb e s).vals { s with dp := (sectionTuples cb e s).dp }).qs.read
        (s.line.toNat + j)).toInt = v :=
    fun j v h => storeValues_read h (hfit v (List.mem_of_getElem? h))
  have hahead := tuples_ahead s.rom cb ((sectionEnd e s - s.line.toNat) / dimOf s.rom cb) s.dp
  refine ⟨rfl, ?_, fun j hj => storeValues_read_outside (by rwa [hlen]), ?_, fun j hlo hhi => ?_, ?_, hahead.1, hahead.2.1, rfl⟩
  · exact (storeValues_line_toNat (hlen.trans_le hend)).trans hlen
  · exact (maxAbs_ge _ _).trans_eq hmax.symm
  · obtain ⟨k, rfl⟩ := Nat.exists_eq_add_of_le hlo
    have hk := List.getElem?_eq_getElem (l := (sectionTuples cb e s).vals) (i := k) (by omega)
    rw [nextSection_maxMag, hmax]
    exact (congrArg Int.natAbs (hread k _ hk)).trans_le (maxAbs_mem _ _ _ (List.mem_of_getElem? hk))
  · rw [nextSection_maxMag]
    rcases maxAbs_attained (sectionTuples cb e s).vals s.maxMag.toNat with h | ⟨v, hv, h⟩
    · exact .inl (BitVec.eq_of_toNat_eq (hmax.trans h))
    · obtain ⟨k, hk⟩ := List.mem_iff_getElem?.1 hv
      obtain ⟨hlt, _⟩ := List.getElem?_eq_some_iff.1 hk
      exact .inr ⟨s.line.toNat + k, by omega, by omega,
        (congrArg Int.natAbs (hread k v hk)).trans (h.trans hmax.symm)⟩

/-- What an error leaves, whatever the failing section did to the tuple registers (R306, R307). -/
theorem raiseError_raisedError (err : EngineError) (info : Nat) {s : State} {dp : Datapath}
    (h : dp.reader.stream = s.dp.reader.stream) :
    raisedError err.code (BitVec.ofNat 16 info) s (raiseError err info { s with dp := dp }) :=
  ⟨rfl, rfl, rfl, rfl, keepsInputs_refl s, rfl, Nat.le_add_right _ _, h⟩

/-! A section over a coded stream. -/

theorem regular_of_complete {cb : Nat} (h1 : 1 ≤ cb) (h11 : cb ≤ 11) {e : SfbEnd} {s : State} (hr : rangeOk e s = true)
    (hc : (sectionTuples cb e s).outcome = .complete) : regular cb e s =
      .next (nextSection (storeValues (sectionTuples cb e s).vals { s with dp := (sectionTuples cb e s).dp })) := by
  rw [regular, if_neg (by omega), if_pos hr]
  simp only [hc]

theorem regular_of_overrun {e : SfbEnd} {s : State} (hr : rangeOk e s = true)
    (ho : (sectionTuples 11 e s).outcome = .overrun) : regular 11 e s =
      .next (raiseError .magnitudeOutOfRange 0xFFFF { s with dp := (sectionTuples 11 e s).dp }) := by
  rw [regular, if_neg (by omega), if_pos hr]
  simp only [ho]

/-- Each regular section runs the procedure of its id, 1 to 11 (R131 to R141). -/
theorem exec_regularSection (e : SfbEnd) : ∀ x ∈ regularSections e,
    1 ≤ x.2 ∧ x.2 ≤ 11 ∧ ∀ s, exec x.1 s = regular x.2 e s := by
  intro x hx
  fin_cases hx <;> exact ⟨by simp, by simp, fun _ => rfl⟩

theorem flatten_length_of_codes {rom : Rom} {cb : Nat} : ∀ (tups : List (List Int)) (bits : List Bool),
    CodesTuples rom cb tups bits → tups.flatten.length = tups.length * dimOf rom cb
  | [], _, _ => by simp
  | vs :: tups, bits, hc => by
    obtain ⟨b1, b2, rfl, ⟨b, _, _, rfl, _, hlen, _⟩, h2⟩ := hc
    rw [List.flatten_cons, List.length_append, flatten_length_of_codes tups b2 h2, List.length_cons, hlen, Nat.succ_mul,
      Nat.add_comm, dimOf]

/-- Settles O14: the section reads as many tuples as are coded. -/
theorem codedSectionDecodesToItsValues : Obligations.CodedSectionDecodesToItsValues := by
  intro e s i cb tups bits hi hp2 hcodes hfull hs
  obtain ⟨h1, h11, hexec⟩ := exec_regularSection e (i, cb) hi
  have hr : rangeOk e s = true := (rangeOk_iff e s).2 hp2
  have hcount : (sectionEnd e s - s.line.toNat) / dimOf s.rom cb = tups.length := by
    rw [← hfull, Nat.add_sub_cancel_left, flatten_length_of_codes tups bits hcodes]
    exact Nat.mul_div_cancel _ (by rcases dimOf_dvd s.rom cb with h | h <;> omega)
  obtain ⟨d', hreader, htuples⟩ := tuples_of_codes 0 tups bits s.dp hcodes hs
  have hx : sectionTuples cb e s = { vals := tups.flatten, dp := d', outcome := .complete } := by
    rw [sectionTuples, hcount, ← Nat.add_zero tups.length, htuples, tuples, List.append_nil]
  have hc : (sectionTuples cb e s).outcome = .complete := by rw [hx]
  have hfit := sectionTuples_natAbs h1 h11 e s
  have hstored := storedSection_of_complete h1 h11 hr hc
  have hrun : exec i s = _ := (hexec s).trans (regular_of_complete h1 h11 hr hc)
  rw [hx] at hfit hstored hrun
  refine ⟨_, hrun, hstored, fun j v hj => ?_, ?_, hreader⟩
  · exact storeValues_read (s := { s with dp := d' }) hj (hfit v (List.mem_of_getElem? hj))
  · exact (storeValues_max _ hfit).trans (maxAbs_eq_foldl _ _)

/-- Settles O15: the tuple that overruns is among those of the section. -/
theorem escapeOverrunInStreamRaises : Obligations.EscapeOverrunInStreamRaises := by
  intro e s tups bits last hp2 hcodes hover hlt hs
  have hr : rangeOk e s = true := (rangeOk_iff e s).2 hp2
  rw [Reader.supplies_append] at hs
  obtain ⟨n, hcount⟩ : ∃ n, (sectionEnd e s - s.line.toNat) / dimOf s.rom 11 = tups.length + (n + 1) := by
    obtain ⟨_, _, _, hspan⟩ := hp2
    rw [flatten_length_of_codes tups bits hcodes] at hlt
    have hdim : dimOf s.rom 11 = 2 := by rw [dimOf, (Rom.book_escape s.rom).1]; rfl
    rw [hdim] at hlt ⊢
    exact ⟨(sectionEnd e s - s.line.toNat) / 2 - tups.length - 1, by omega⟩
  obtain ⟨d', hreader, htuples⟩ := tuples_of_codes (n + 1) tups bits s.dp hcodes hs.1
  have hlast : (tuple s.rom 11 d').outcome = .overrun := tuple_of_overrun hover (by rw [hreader]; exact hs.2)
  have hx : (sectionTuples 11 e s).outcome = .overrun := by
    rw [sectionTuples, hcount, htuples, tuples]
    simp only [hlast]
  exact ⟨_, regular_of_overrun hr hx, raiseError_raisedError .magnitudeOutOfRange 0xFFFF (tuples_ahead ..).1⟩

end Sys2Proof.Machine
end

section
/-! SUPPORT. The sections of UNPACK as the sequencer runs them (spec R120 to R127): the fetched section and the way out, zero-fill,
empty sections, the illegal opcode, and what HCB1 to HCB11 store on every bit stream. -/

namespace Sys2Proof.Machine

/-! Fetching a section and leaving UNPACK. -/

/-- Settles O4: the engine's move is the section it fetches, from the state with the entry that let it move taken off. -/
theorem stepRunsFetchedSection : Obligations.StepRunsFetchedSection := by
  intro s i hs hn hp hd he
  have hfetch : decode (.descriptor (State.fetched { s with pending := afterEngine s })) = .ok i := hd
  rw [step_of_engineMoves he, engineStep_of_section (s := { s with pending := afterEngine s }) hs hn hp, hfetch, runDecoded]

/-- With no section left in the table, the engine's step in UNPACK leaves it (R127). -/
theorem engineStep_of_last_section {s : State} (hs : s.phase = .unpack) (hn : s.nsect.toNat ≤ 128)
    (hp : s.nsect.toNat ≤ s.sectPtr.toNat) : engineStep s = .next (leaveUnpack s) := by
  rw [engineStep, hs]
  show unpackStep s = _
  rw [unpackStep, if_neg (not_lt.2 hn), if_neg (not_lt.2 hp)]

/-- Settles O41: at the end of the table the step is the exit, which sets the phase alone. -/
theorem leavingUnpack : Obligations.LeavingUnpack := by
  intro s hs hpending hn hlast
  rw [step_of_nil hpending, engineStep_of_last_section hs hn (by rw [hlast]), leaveUnpack]

/-! Special sections. -/

/-- The special sections run the one zero-fill (R124). -/
theorem exec_specialSection (e : SfbEnd) : ∀ i ∈ specialSections e, ∀ s, exec i s = zeroSection e s := by
  intro i hi
  fin_cases hi <;> exact fun _ => rfl

theorem zeroSection_of_rangeOk {e : SfbEnd} {s : State} (hr : rangeOk e s = true) :
    zeroSection e s = .next (nextSection (zeroFill (sectionEnd e s) s)) :=
  if_pos hr

/-- Zero-fill from `LINE` to `stop` clears these lines in both buffers (R124). -/
theorem zeroFill_read {stop j : Nat} {s : State} (hlo : s.line.toNat ≤ j) (hhi : j < stop) :
    (zeroFill stop s).qs.read j = 0#16 ∧ (zeroFill stop s).ds.read j = 0#16 := by
  have hin : s.line.toNat ≤ j ∧ j < s.line.toNat + (stop - s.line.toNat) := by omega
  simp only [zeroFill, read_zeroRun, if_pos hin, and_self]

/-- It leaves the other lines of both. -/
theorem zeroFill_read_outside {stop j : Nat} {s : State} (h : j < s.line.toNat ∨ stop ≤ j) :
    (zeroFill stop s).qs.read j = s.qs.read j ∧ (zeroFill stop s).ds.read j = s.ds.read j := by
  have hout : ¬(s.line.toNat ≤ j ∧ j < s.line.toNat + (stop - s.line.toNat)) := by omega
  simp only [zeroFill, read_zeroRun, if_neg hout, and_self]

/-- Settles O10: the zero-fill, then the fall-through. -/
theorem specialSectionsZeroFill : Obligations.SpecialSectionsZeroFill := by
  intro e i s hi hp2
  have hr : rangeOk e s = true := (rangeOk_iff e s).2 hp2
  obtain ⟨_, _, hend, _⟩ := hp2
  exact ⟨_, (exec_specialSection e i hi s).trans (zeroSection_of_rangeOk hr), rfl, zeroFill_line_toNat s hend,
    fun _ hlo hhi => zeroFill_read hlo hhi, fun _ hj => zeroFill_read_outside hj, rfl⟩

/-! The illegal opcode. -/

/-- Settles O16: the id check comes first and raises the error. -/
theorem illegalOpcodeRaises : Obligations.IllegalOpcodeRaises := by
  intro e s
  have hraised := raiseError_raisedError .invalidCodebook s.sectPtr.toNat (s := s) (dp := s.dp) rfl
  rw [BitVec.ofNat_toNat] at hraised
  exact ⟨_, regular_twelve e s, hraised⟩

/-! Empty sections. -/

theorem zeroFill_of_empty (s : State) : zeroFill s.line.toNat s = s := by
  simp only [zeroFill, Nat.sub_self, zeroRun, BitVec.ofNat_toNat, BitVec.setWidth_eq]

theorem storeValues_nil (s : State) : storeValues [] s = s := by
  simp only [storeValues, storeRun, maxAbs, List.length_nil, Nat.add_zero, BitVec.ofNat_toNat, BitVec.setWidth_eq]

/-- An empty section has no tuple, whatever the dimension (R123). -/
theorem sectionTuples_of_empty (cb : Nat) {e : SfbEnd} {s : State} (h : sectionEnd e s = s.line.toNat) :
    sectionTuples cb e s = { vals := [], dp := s.dp, outcome := .complete } := by
  rw [sectionTuples, h, Nat.sub_self, Nat.zero_div, tuples]

theorem zeroSection_of_empty {e : SfbEnd} {s : State} (hr : rangeOk e s = true) (h : sectionEnd e s = s.line.toNat) :
    zeroSection e s = .next (nextSection s) := by
  rw [zeroSection_of_rangeOk hr, h, zeroFill_of_empty]

theorem regular_of_empty {cb : Nat} (h1 : 1 ≤ cb) (h11 : cb ≤ 11) {e : SfbEnd} {s : State} (hr : rangeOk e s = true)
    (h : sectionEnd e s = s.line.toNat) : regular cb e s = .next (nextSection s) := by
  have htuples := sectionTuples_of_empty cb h
  rw [regular_of_complete h1 h11 hr (by rw [htuples]), htuples, storeValues_nil]

/-- Settles O11: nothing to zero and no tuple to read; the id check of RSVD12 does not look at the range. -/
theorem emptySectionOnlyFallsThrough : Obligations.EmptySectionOnlyFallsThrough := by
  intro e s he hline hempty
  have hr : rangeOk e s = true := (rangeOk_iff e s).2 ⟨he, hempty.ge, hempty.trans_le hline, by rw [hempty, Nat.sub_self]⟩
  refine ⟨fun i hi => ?_, illegalOpcodeRaises e s⟩
  rcases hi with hi | ⟨cb, hi⟩
  · exact (exec_specialSection e i hi s).trans (zeroSection_of_empty hr hempty)
  · obtain ⟨h1, h11, hexec⟩ := exec_regularSection e (i, cb) hi
    exact (hexec s).trans (regular_of_empty h1 h11 hr hempty)

/-! The dimension of a codebook (R126). -/

theorem CodeBook.wf_dim {k cb : Nat} {b : CodeBook} (h : b.wf k cb = true) :
    b.dim = if cb < k then Dim.quad else Dim.pair := by
  simp only [CodeBook.wf, Bool.and_eq_true, beq_iff_eq] at h
  obtain ⟨⟨⟨⟨⟨hdim, _⟩, _⟩, _⟩, _⟩, _⟩ := h
  exact hdim

/-- Settles O24: the record of an id is well-formed for `DIM_BOUNDARY`, and the number of values is the record's. -/
theorem dimensionPartition : Obligations.DimensionPartition := by
  intro rom cb hk h1 h11
  refine ⟨?_, fun d _ => tuple_length rom cb d⟩
  rw [dimOf, CodeBook.wf_dim (rom.entry_wf h1 h11).1, hk]
  by_cases hcb : cb ≤ 4
  · rw [if_pos hcb, if_pos (by omega)]; rfl
  · rw [if_neg hcb, if_neg (by omega)]; rfl

/-! The values of a codebook without escapes. -/

/-- The range of a codebook's values: its digits as they are where it is signed, else a digit with either sign (R181, R183,
R184). -/
def InRange (b : CodeBook) (v : Int) : Prop :=
  if b.signed then 0 ≤ v + b.offset ∧ v + b.offset < b.modulus else v.natAbs < b.modulus

/-- Each value that leaves the sign bits has the magnitude of a digit (R184). -/
theorem exists_natAbs_of_mem_signs {ds : List Int} {r : Reader} {v : Int} (hv : v ∈ (signs ds r).1) :
    ∃ d ∈ ds, d.natAbs = v.natAbs :=
  List.mem_map.1 (signs_natAbs ds r ▸ List.mem_map_of_mem hv)

theorem unpack_inRange {k cb : Nat} {b : CodeBook} (hb : b.wf k cb = true) (hcb : cb ≠ 11) {idx : Nat}
    (h : idx < b.indexBound) (d : Datapath) : ∀ v ∈ (unpack (unpackRule cb b) b idx d).vals, InRange b v := by
  intro v hv
  rw [unpackRule, if_neg hcb] at hv
  cases hsigned : b.signed with
  | true =>
    rw [hsigned, if_pos rfl] at hv
    obtain ⟨hlo, hhi⟩ := digits_range b idx h v hv
    rw [InRange, if_pos hsigned]
    omega
  | false =>
    rw [hsigned, if_neg Bool.false_ne_true] at hv
    obtain ⟨u, hu, huv⟩ := exists_natAbs_of_mem_signs hv
    rw [InRange, if_neg (by simp [hsigned]), ← huv]
    exact digits_natAbs hb idx h u hu

theorem tuple_inRange (rom : Rom) {cb : Nat} (h1 : 1 ≤ cb) (h10 : cb ≤ 10) (d : Datapath) :
    ∀ v ∈ (tuple rom cb d).vals, InRange (rom.book cb) v :=
  unpack_inRange (rom.entry_wf h1 (by omega)).1 (by omega) (rom.walk_wf h1 (by omega) d.reader).1 _

/-- What holds of the values of every tuple holds of the values of a section. -/
theorem tuples_forall {rom : Rom} {cb : Nat} {P : Int → Prop} (h : ∀ d, ∀ v ∈ (tuple rom cb d).vals, P v) :
    ∀ (n : Nat) (d : Datapath), ∀ v ∈ (tuples rom cb n d).vals, P v
  | 0, _ => by simp [tuples]
  | n + 1, d => by
    rw [tuples]
    cases (tuple rom cb d).outcome with
    | complete => exact List.forall_mem_append.2 ⟨h d, tuples_forall h n _⟩
    | overrun => simp

/-- Only the escape codebook writes `ESC_N` and `ESC_L` (R28). -/
theorem tuples_keep_esc (rom : Rom) {cb : Nat} (hcb : cb ≠ 11) : ∀ (n : Nat) (d : Datapath),
    (tuples rom cb n d).dp.escN = d.escN ∧ (tuples rom cb n d).dp.escL = d.escL
  | 0, _ => ⟨rfl, rfl⟩
  | n + 1, d => by
    obtain ⟨en, el, r, hdp, hesc⟩ := tuple_dp rom cb d
    obtain ⟨rfl, rfl⟩ := hesc hcb
    have htuple : (tuple rom cb d).dp.escN = d.escN ∧ (tuple rom cb d).dp.escL = d.escL := by simp [hdp]
    rw [tuples]
    cases (tuple rom cb d).outcome with
    | complete =>
      obtain ⟨hn, hl⟩ := tuples_keep_esc rom hcb n (tuple rom cb d).dp
      exact ⟨hn.trans htuple.1, hl.trans htuple.2⟩
    | overrun => exact htuple

/-! The lines of a regular section. -/

/-- Each line of a section that completes holds a value of its tuples (R125). -/
theorem read_mem_sectionTuples {cb : Nat} (h1 : 1 ≤ cb) (h11 : cb ≤ 11) {e : SfbEnd} {s : State} (hr : rangeOk e s = true)
    (hc : (sectionTuples cb e s).outcome = .complete) {j : Nat} (hlo : s.line.toNat ≤ j) (hhi : j < sectionEnd e s) :
    ((storeValues (sectionTuples cb e s).vals { s with dp := (sectionTuples cb e s).dp }).qs.read j).toInt ∈
      (sectionTuples cb e s).vals := by
  obtain ⟨k, rfl⟩ := Nat.exists_eq_add_of_le hlo
  have hlen := sectionTuples_length hr hc
  have hk : k < (sectionTuples cb e s).vals.length := by omega
  have hmem := List.getElem_mem hk
  have hread := storeValues_read (s := { s with dp := (sectionTuples cb e s).dp }) (List.getElem?_eq_getElem hk)
    (sectionTuples_natAbs h1 h11 e s _ hmem)
  exact hread ▸ hmem

/-- HCB1 to HCB10 have the ids 1 to 10. -/
theorem sectionsOneToTen_le (e : SfbEnd) : ∀ x ∈ sectionsOneToTen e, x.2 ≤ 10 := by
  intro x hx
  fin_cases hx <;> simp

/-- Settles O12: only the escape codebook overruns, so the section completes, and its lines hold values of its tuples. -/
theorem sectionsOneToTenComplete : Obligations.SectionsOneToTenComplete := by
  intro e s i cb hi hp2
  have hr : rangeOk e s = true := (rangeOk_iff e s).2 hp2
  have h10 : cb ≤ 10 := sectionsOneToTen_le e (i, cb) hi
  obtain ⟨h1, h11, hexec⟩ := exec_regularSection e (i, cb) (List.mem_append_left _ hi)
  have hc : (sectionTuples cb e s).outcome = .complete := by
    cases ho : (sectionTuples cb e s).outcome with
    | complete => rfl
    | overrun => exact absurd (tuples_overrun _ _ _ _ ho) (by omega)
  obtain ⟨hescN, hescL⟩ := tuples_keep_esc s.rom (cb := cb) (by omega) ((sectionEnd e s - s.line.toNat) / dimOf s.rom cb) s.dp
  exact ⟨_, (hexec s).trans (regular_of_complete h1 h11 hr hc), storedSection_of_complete h1 h11 hr hc,
    fun j hlo hhi => tuples_forall (tuple_inRange s.rom h1 h10) _ _ _ (read_mem_sectionTuples h1 h11 hr hc hlo hhi),
    hescN, hescL⟩

/-- Settles O13: the two ways the tuples of a section end. -/
theorem escapeSectionCompletesOrRaises : Obligations.EscapeSectionCompletesOrRaises := by
  intro e s hp2
  have hr : rangeOk e s = true := (rangeOk_iff e s).2 hp2
  have h1 : 1 ≤ 11 := by omega
  cases ho : (sectionTuples 11 e s).outcome with
  | complete =>
    exact ⟨_, regular_of_complete h1 le_rfl hr ho, .inl ⟨storedSection_of_complete h1 le_rfl hr ho, fun j hlo hhi =>
      sectionTuples_natAbs h1 le_rfl e s _ (read_mem_sectionTuples h1 le_rfl hr ho hlo hhi)⟩⟩
  | overrun =>
    exact ⟨_, regular_of_overrun hr ho, .inr (raiseError_raisedError .magnitudeOutOfRange 0xFFFF (tuples_ahead ..).1)⟩

end Sys2Proof.Machine
end

section
/-! SUPPORT. The codewords of a tree and the walk in it and in the node ROM that holds it (spec R161 to R164). -/

namespace Sys2Proof.Machine

/-! Codewords and the walk, one level at a time. -/

/-- A codeword of an inner node is a bit and a codeword of the child that the bit selects (R161). -/
theorem mem_code_node {zero one : CodeTree} {c : List Bool × BitVec 9} :
    c ∈ (CodeTree.node zero one).code ↔
      ∃ b w idx, c = (b :: w, idx) ∧ (w, idx) ∈ (if b then one else zero).code := by
  simp [CodeTree.code, eq_comm, and_comm]

/-- At an inner node the walk goes on in the child that the next bit selects (R162). -/
theorem walk_node (zero one : CodeTree) (r : Reader) :
    (CodeTree.node zero one).walk r = (if r.bit.1 then one else zero).walk r.bit.2 := by
  rw [CodeTree.walk]
  split <;> rfl

/-- The code is prefix-free, and each codeword has one index (R161, R163). -/
theorem eq_of_mem_code_of_prefix (t : CodeTree) : ∀ c d : List Bool × BitVec 9, c ∈ t.code → d ∈ t.code →
    c.1 <+: d.1 → c = d := by
  induction t with
  | leaf i =>
    intro c d hc hd _
    exact (List.mem_singleton.1 hc).trans (List.mem_singleton.1 hd).symm
  | node zero one ihz iho =>
    intro c d hc hd hp
    obtain ⟨b, w, i, rfl, hw⟩ := mem_code_node.1 hc
    obtain ⟨b', u, j, rfl, hu⟩ := mem_code_node.1 hd
    obtain ⟨rfl, hwu⟩ := List.cons_prefix_cons.1 hp
    have heq : (w, i) = (u, j) := by
      cases b with
      | false => exact ihz _ _ hw hu hwu
      | true => exact iho _ _ hw hu hwu
    cases heq
    rfl

/-- The walk from the reader's position ends at a codeword of the tree, after as many bits as it has. -/
def WalkEndsAtCodeword (t : CodeTree) (r : Reader) : Prop :=
  ∃ c ∈ t.code, (t.walk r).1 = c.2 ∧ (t.walk r).2.pos = r.pos + c.1.length

/-- The walk ends at a codeword whatever the bits: the codeword is the first bit and the child's codeword (R163). -/
theorem walkEndsAtCodeword (t : CodeTree) : ∀ r : Reader, WalkEndsAtCodeword t r := by
  induction t with
  | leaf i => exact fun r => ⟨([], i), List.mem_singleton_self _, rfl, rfl⟩
  | node zero one ihz iho =>
    intro r
    have hchild : WalkEndsAtCodeword (if r.bit.1 then one else zero) r.bit.2 := by
      split
      · exact iho r.bit.2
      · exact ihz r.bit.2
    obtain ⟨⟨w, i⟩, hmem, hidx, hpos⟩ := hchild
    rw [← walk_node] at hidx hpos
    rw [Reader.bit_pos] at hpos
    exact ⟨(r.bit.1 :: w, i), mem_code_node.2 ⟨_, w, i, rfl, hmem⟩, hidx,
      hpos.trans (Nat.add_right_comm r.pos 1 w.length)⟩

/-- Settles O18: prefix freedom and totality by induction on the tree; the exact reading is `walk_of_supplies`. -/
theorem walkReadsOneCodeword : Obligations.WalkReadsOneCodeword :=
  ⟨eq_of_mem_code_of_prefix, fun t c r => walk_of_supplies t c.1 c.2 r, walkEndsAtCodeword⟩

/-! The node ROM. -/

/-- The tree below a node number joins the trees below the two children of its entry (R164). -/
theorem treeBelow_inner {nodes : List (BitVec 16 × BitVec 16)} {fuel n : Nat} {t : CodeTree}
    (h : treeBelow nodes (fuel + 1) (.inner n) = some t) : ∃ c zero one, nodes[n]? = some c ∧
      treeBelow nodes fuel (childOf c.1) = some zero ∧ treeBelow nodes fuel (childOf c.2) = some one ∧
      t = .node zero one := by
  rw [treeBelow] at h
  split at h
  · cases h
  · next c0 c1 hn =>
    split at h
    · next zero one hz ho => exact ⟨(c0, c1), zero, one, hn, hz, ho, (Option.some.inj h).symm⟩
    · cases h
    · cases h

/-- At a node number the ROM walk goes on from the child word that the next bit selects (R164). -/
theorem romWalk_inner {nodes : List (BitVec 16 × BitVec 16)} {n : Nat} {c : BitVec 16 × BitVec 16}
    (hn : nodes[n]? = some c) (fuel : Nat) (r : Reader) : romWalk nodes (fuel + 1) (.inner n) r =
      romWalk nodes fuel (childOf (if r.bit.1 then c.2 else c.1)) r.bit.2 := by
  rw [romWalk, hn]

/-- A leaf child holds its leaf with any fuel (R164). -/
theorem treeBelow_leaf (nodes : List (BitVec 16 × BitVec 16)) (fuel : Nat) (i : BitVec 9) :
    treeBelow nodes fuel (.leaf i) = some (.leaf i) := by cases fuel <;> rfl

/-- The ROM walk from a leaf child reads no bit and needs no fuel (R164). -/
theorem romWalk_leaf (nodes : List (BitVec 16 × BitVec 16)) (fuel : Nat) (i : BitVec 9) (r : Reader) :
    romWalk nodes fuel (.leaf i) r = some (i, r) := by cases fuel <;> rfl

/-- A tree held with some fuel is no deeper than the fuel (R163). -/
theorem depth_le_of_treeBelow {nodes : List (BitVec 16 × BitVec 16)} : ∀ {fuel : Nat} {c : Child} {t : CodeTree},
    treeBelow nodes fuel c = some t → t.depth ≤ fuel
  | fuel, .leaf i, t, h => by
    cases (treeBelow_leaf nodes fuel i).symm.trans h
    exact Nat.zero_le _
  | 0, .inner _, _, h => by cases h
  | fuel + 1, .inner _, _, h => by
    obtain ⟨c, zero, one, _, hz, ho, rfl⟩ := treeBelow_inner h
    exact Nat.succ_le_succ (max_le (depth_le_of_treeBelow hz) (depth_le_of_treeBelow ho))

/-- The ROM walk is the walk of the tree the ROM holds (R161, R164). -/
theorem romWalk_of_treeBelow {nodes : List (BitVec 16 × BitVec 16)} : ∀ {fuel : Nat} {c : Child} {t : CodeTree}
    (r : Reader), treeBelow nodes fuel c = some t → romWalk nodes fuel c r = some (t.walk r)
  | fuel, .leaf i, t, r, h => by
    cases (treeBelow_leaf nodes fuel i).symm.trans h
    exact romWalk_leaf nodes fuel i r
  | 0, .inner _, _, _, h => by cases h
  | fuel + 1, .inner _, _, r, h => by
    obtain ⟨c, zero, one, hn, hz, ho, rfl⟩ := treeBelow_inner h
    rw [romWalk_inner hn, walk_node]
    split
    · exact romWalk_of_treeBelow r.bit.2 ho
    · exact romWalk_of_treeBelow r.bit.2 hz

/-- Settles O19, by induction on the fuel: both walks go to the child that the same bit selects. -/
theorem nodeRomWalkAgrees : Obligations.NodeRomWalkAgrees :=
  fun _ _ _ _ r h => ⟨depth_le_of_treeBelow h, romWalk_of_treeBelow r h⟩

end Sys2Proof.Machine
end

section
/-! SUPPORT. The digits of an index, and the statements about sign bits and escape sequences (spec R181, R184, R186, R188). -/

namespace Sys2Proof.Machine

/-- The digits recombine to their index: each division of the digit chain gives back the number it divides (R181). -/
theorem indexOf_digits (b : CodeBook) (idx : Nat) : b.indexOf (digits b idx) = (idx : Int) := by
  unfold digits
  cases b.dim with
  | pair =>
    have h : idx / b.modulus * b.modulus + idx % b.modulus = idx := Nat.div_add_mod' idx b.modulus
    zify at h
    simpa [CodeBook.indexOf] using h
  | quad =>
    have h3 := Nat.div_add_mod' idx (b.modulus ^ 3)
    have h2 := Nat.div_add_mod' (idx % b.modulus ^ 3) (b.modulus ^ 2)
    have h1 := Nat.div_add_mod' (idx % b.modulus ^ 3 % b.modulus ^ 2) b.modulus
    zify at h1 h2 h3
    simp only [CodeBook.indexOf, List.foldl_cons, List.foldl_nil, sub_add_cancel]
    push_cast
    linear_combination h1 + h2 + h3

/-- Settles O20: the length and the range are the digits' own lemmas, the recombination is `indexOf_digits`. -/
theorem digitsAreTheIndex : Obligations.DigitsAreTheIndex := by
  intro b idx _ hidx
  refine ⟨digits_length b idx, fun d hd => ?_, indexOf_digits b idx⟩
  obtain ⟨hlo, hhi⟩ := digits_range b idx hidx d hd
  omega

/-- Settles O21: the round trip is `signs_of_supplies`, by induction on the values. -/
theorem signBitsOfNonzeroDigits : Obligations.SignBitsOfNonzeroDigits :=
  ⟨signs_of_supplies, fun ds r => ⟨signs_natAbs ds r, signs_pos ds r⟩⟩

/-- Settles O22: on this range the test is magnitude 16, which 16 and -16 have. -/
theorem sentinelIsSixteenEitherSign : Obligations.SentinelIsSixteenEitherSign := by
  intro d hlo hhi
  rw [isSentinel_iff d (by omega)]
  omega

/-- Settles O23: the value is `expand_of_supplies`, the overrun `expand_overrun`, the range `expand_natAbs`. -/
theorem escapeSequenceExpands : Obligations.EscapeSequenceExpands := by
  intro d e r hd
  refine ⟨fun m hlo hhi hs => ?_, expand_overrun d e, fun v => expand_natAbs d e r v (by omega)⟩
  have hlen : (escapeCode m).length = 2 * (Nat.log2 m - 4) + 5 := by
    have h4 := (log2_of_escaped hlo hhi).1
    rw [escapeCode_length]
    omega
  rw [← hlen]
  exact expand_of_supplies hd e hlo hhi hs

end Sys2Proof.Machine
end

section
/-! SUPPORT. The deinterleaver under premise P4 (spec R212 to R215, R346): its targets are pairwise distinct, and each stands at
the place its line has in the coding order. -/

namespace Sys2Proof.Machine

/-! The premise the model checks. -/

/-- The entry that `e = sfb_end` names is that of a band `i` of a group `g`, for which P4 gives the sum (R213, R346). -/
theorem stopsAgree_of_premiseP4 {s : State} (h : premiseP4 s) : stopsAgree s = true := by
  obtain ⟨-, -, -, -, -, h0, hm, -, hstop⟩ := h
  simp only [stopsAgree, List.all_eq_true, List.mem_range, Bool.or_eq_true, beq_iff_eq, decide_eq_true_eq, Config.maxSfbc,
    codedSpans_length]
  intro k hk
  generalize he : (Descriptor.sfbEnd (s.sect.read k)).toNat = e
  by_contra! hne
  obtain ⟨⟨⟨hpos, h128⟩, hlen⟩, hsum⟩ := hne
  have hn : 0 < s.nsfbs.toNat := Nat.pos_of_ne_zero fun hz => by rw [hz, Nat.mul_zero] at hlen; omega
  have hg : (e - 1) / s.nsfbs.toNat < s.ngroup.toNat := Nat.div_lt_of_lt_mul (by rw [Nat.mul_comm]; omega)
  have hi : (e - 1) % s.nsfbs.toNat < s.nsfbs.toNat := Nat.mod_lt _ hn
  have hsplit : (e - 1) / s.nsfbs.toNat * s.nsfbs.toNat + (e - 1) % s.nsfbs.toNat = e - 1 := Nat.div_add_mod' _ _
  have hentry := hstop k hk _ hg _ hi (by omega) (by omega)
  have hspans := codedSpans_take_sum s (by simp [State.soffAt, h0]) hm hg hi
  rw [hsplit] at hentry hspans
  rw [show e - 1 + 1 = e by omega] at hspans
  exact hsum (hentry.trans hspans.symm)

/-- The geometry P4 describes is one the model accepts (R346). -/
theorem geometryOk_of_premiseP4 {s : State} (h : premiseP4 s) : geometryOk s = true := by
  have hstop := stopsAgree_of_premiseP4 h
  obtain ⟨hlo, hhi, hlen, h8, hn, h0, hm, h128, -⟩ := h
  simp only [geometryOk, Bool.and_eq_true, decide_eq_true_eq, List.all_eq_true, List.mem_range, beq_iff_eq]
  exact ⟨⟨⟨⟨⟨⟨⟨⟨hlo, hhi⟩, hlen⟩, h8⟩, hn⟩, by simp [State.soffAt, h0]⟩, hm⟩, h128⟩, hstop⟩

/-! Lists joined over a range. -/

/-- Element `k` of list `g` stands behind the lists before it. -/
theorem getElem?_flatMap_range {α : Type} {f : Nat → List α} {m g k : Nat} (hg : g < m) (hk : k < (f g).length) :
    ((List.range m).flatMap f)[((List.range g).map fun h => (f h).length).sum + k]? = (f g)[k]? := by
  induction m with
  | zero => exact absurd hg (Nat.not_lt_zero _)
  | succ m ih =>
    rw [List.range_succ, List.flatMap_append]
    rcases Nat.lt_succ_iff_lt_or_eq.1 hg with hlt | rfl
    · have hin := ih hlt
      rw [List.getElem?_eq_getElem hk] at hin ⊢
      rw [List.getElem?_append_left (List.getElem?_eq_some_iff.1 hin).1, hin]
    · rw [← List.length_flatMap, List.getElem?_append_right (Nat.le_add_right _ _), Nat.add_sub_cancel_left]
      simp

/-- Lists without repetitions, of which no two share an element, joined. -/
theorem nodup_flatMap_range {α : Type} {f : Nat → List α} {m : Nat} (hf : ∀ g < m, (f g).Nodup)
    (hd : ∀ g h, g < h → h < m → ∀ t ∈ f g, t ∉ f h) : ((List.range m).flatMap f).Nodup := by
  refine List.nodup_flatMap.2 ⟨fun g hg => hf g (List.mem_range.1 hg), ?_⟩
  refine List.pairwise_lt_range.imp_of_mem fun {g h} _ hh hlt => ?_
  exact List.disjoint_left.2 fun {t} ht => hd g h hlt (List.mem_range.1 hh) t ht

/-! The targets of one window's band, of one band and of one group. -/

/-- The places R212 writes for band `i` in window `w` of group `g`. -/
def State.windowTargets (s : State) (g i w : Nat) : List Nat :=
  (List.range (s.shortWidth i)).map fun l => (s.windowBase g + w) * 128 + s.soffAt i + l

/-- The places R212 writes for band `i` of group `g`. -/
def State.bandTargets (s : State) (g i : Nat) : List Nat := (List.range (s.glenAt g)).flatMap (s.windowTargets g i)

/-- The places R212 writes for group `g`. -/
def State.groupTargets (s : State) (g : Nat) : List Nat := (List.range s.nsfbs.toNat).flatMap (s.bandTargets g)

theorem deintTargets_eq_flatMap (s : State) : s.deintTargets = (List.range s.ngroup.toNat).flatMap s.groupTargets := rfl

theorem windowTargets_length (s : State) (g i w : Nat) : (s.windowTargets g i w).length = s.shortWidth i := by
  simp [State.windowTargets]

theorem bandTargets_length (s : State) (g i : Nat) : (s.bandTargets g i).length = s.shortWidth i * s.glenAt g := by
  simp [State.bandTargets, List.length_flatMap, windowTargets_length, Nat.mul_comm]

theorem mem_windowTargets {s : State} {g i w t : Nat} :
    t ∈ s.windowTargets g i w ↔ ∃ l < s.shortWidth i, (s.windowBase g + w) * 128 + s.soffAt i + l = t := by
  simp [State.windowTargets]

theorem windowTargets_nodup (s : State) (g i w : Nat) : (s.windowTargets g i w).Nodup :=
  List.nodup_range.map fun _ _ heq => Nat.add_left_cancel heq

theorem windowTargets_getElem? (s : State) (g w : Nat) {i l : Nat} (hl : l < s.shortWidth i) :
    (s.windowTargets g i w)[l]? = some ((s.windowBase g + w) * 128 + s.soffAt i + l) := by
  simp [State.windowTargets, hl]

theorem bandTargets_getElem? (s : State) {g i w l : Nat} (hw : w < s.glenAt g) (hl : l < s.shortWidth i) :
    (s.bandTargets g i)[w * s.shortWidth i + l]? = some ((s.windowBase g + w) * 128 + s.soffAt i + l) := by
  have hwin := windowTargets_getElem? s g w hl
  have h := getElem?_flatMap_range hw (List.getElem?_eq_some_iff.1 hwin).1
  simp only [windowTargets_length, List.map_const', List.length_range, List.sum_replicate, smul_eq_mul] at h
  exact h.trans hwin

section
variable {s : State} (hgeom : geometryOk s = true)
include hgeom

theorem soffAt_zero_of_geometryOk : s.soffAt 0 = 0 := by
  simp only [geometryOk, Bool.and_eq_true, beq_iff_eq] at hgeom
  obtain ⟨⟨⟨⟨-, h0⟩, -⟩, -⟩, -⟩ := hgeom
  exact h0

theorem soffAt_mono_of_geometryOk {i j : Nat} (hij : i ≤ j) (hj : j ≤ s.nsfbs.toNat) : s.soffAt i ≤ s.soffAt j := by
  obtain ⟨-, hm, -⟩ := geometryOk_bounds hgeom
  exact soffAt_mono s (fun k hk => hm k (by omega)) (j - i) i (by omega)

theorem bandTargets_length_sum (g : Nat) {i : Nat} (hi : i ≤ s.nsfbs.toNat) :
    ((List.range i).map fun j => (s.bandTargets g j).length).sum = s.soffAt i * s.glenAt g := by
  obtain ⟨-, hm, -⟩ := geometryOk_bounds hgeom
  simp only [bandTargets_length]
  exact spans_sum s g (soffAt_zero_of_geometryOk hgeom) i fun j hj => hm j (by omega)

theorem groupTargets_length (g : Nat) : (s.groupTargets g).length = s.soffAt s.nsfbs.toNat * s.glenAt g := by
  rw [State.groupTargets, List.length_flatMap]
  exact bandTargets_length_sum hgeom g le_rfl

theorem groupTargets_length_sum (g : Nat) :
    ((List.range g).map fun h => (s.groupTargets h).length).sum = s.windowBase g * s.soffAt s.nsfbs.toNat := by
  simp only [groupTargets_length hgeom, State.windowBase, Nat.mul_comm (s.soffAt _)]
  exact List.sum_map_mul_right _ _ _

/-- The targets of a window's band lie in that window, between the band's offsets. -/
theorem windowTargets_range {g i w t : Nat} (hi : i < s.nsfbs.toNat) (ht : t ∈ s.windowTargets g i w) :
    t / 128 = s.windowBase g + w ∧ s.soffAt i ≤ t % 128 ∧ t % 128 < s.soffAt (i + 1) := by
  obtain ⟨l, hl, rfl⟩ := mem_windowTargets.1 ht
  have hend := soffAt_mono_of_geometryOk hgeom (i := i + 1) hi le_rfl
  obtain ⟨-, -, h128⟩ := geometryOk_bounds hgeom
  rw [State.shortWidth] at hl
  omega

/-- The targets of a band lie in the windows of its group, between the band's offsets. -/
theorem bandTargets_range {g i t : Nat} (hi : i < s.nsfbs.toNat) (ht : t ∈ s.bandTargets g i) :
    (s.windowBase g ≤ t / 128 ∧ t / 128 < s.windowBase (g + 1)) ∧ s.soffAt i ≤ t % 128 ∧ t % 128 < s.soffAt (i + 1) := by
  obtain ⟨w, hw, hwin⟩ := List.mem_flatMap.1 ht
  obtain ⟨hdiv, hmod⟩ := windowTargets_range hgeom hi hwin
  rw [List.mem_range] at hw
  rw [hdiv, windowBase_succ]
  exact ⟨by omega, hmod⟩

theorem groupTargets_range {g t : Nat} (ht : t ∈ s.groupTargets g) :
    s.windowBase g ≤ t / 128 ∧ t / 128 < s.windowBase (g + 1) := by
  obtain ⟨i, hi, hband⟩ := List.mem_flatMap.1 ht
  exact (bandTargets_range hgeom (List.mem_range.1 hi) hband).1

/-! No place is written twice: two groups, and two windows of a group, differ in the window; two bands, and two lines of a band,
differ in the line of the window. -/

theorem bandTargets_nodup {g i : Nat} (hi : i < s.nsfbs.toNat) : (s.bandTargets g i).Nodup := by
  refine nodup_flatMap_range (fun w _ => windowTargets_nodup s g i w) fun v w hvw _ t htv htw => ?_
  have hv := (windowTargets_range hgeom hi htv).1
  have hw := (windowTargets_range hgeom hi htw).1
  omega

theorem groupTargets_nodup (g : Nat) : (s.groupTargets g).Nodup := by
  refine nodup_flatMap_range (fun i hi => bandTargets_nodup hgeom hi) fun i j hij hj t hti htj => ?_
  have hi := (bandTargets_range hgeom (by omega) hti).2.2
  have hj' := (bandTargets_range hgeom hj htj).2.1
  have hmono := soffAt_mono_of_geometryOk hgeom (i := i + 1) hij hj.le
  omega

theorem deintTargets_nodup : s.deintTargets.Nodup := by
  rw [deintTargets_eq_flatMap]
  refine nodup_flatMap_range (fun g _ => groupTargets_nodup hgeom g) fun g h hgh _ t htg hth => ?_
  have hg := (groupTargets_range hgeom htg).2
  have hh := (groupTargets_range hgeom hth).1
  have hmono := windowBase_mono s (g := g + 1) hgh
  omega

/-! Each target at its place in the coding order (R213). -/

theorem groupTargets_getElem? {g i w l : Nat} (hi : i < s.nsfbs.toNat) (hw : w < s.glenAt g) (hl : l < s.shortWidth i) :
    (s.groupTargets g)[s.soffAt i * s.glenAt g + (w * s.shortWidth i + l)]?
      = some ((s.windowBase g + w) * 128 + s.soffAt i + l) := by
  have hband := bandTargets_getElem? s hw hl
  have h := getElem?_flatMap_range hi (List.getElem?_eq_some_iff.1 hband).1
  rw [bandTargets_length_sum hgeom g hi.le] at h
  exact h.trans hband

theorem deintTargets_getElem? {g i w l : Nat} (hg : g < s.ngroup.toNat) (hi : i < s.nsfbs.toNat) (hw : w < s.glenAt g)
    (hl : l < s.shortWidth i) :
    s.deintTargets[s.windowBase g * s.soffAt s.nsfbs.toNat + (s.soffAt i * s.glenAt g + (w * s.shortWidth i + l))]?
      = some ((s.windowBase g + w) * 128 + s.soffAt i + l) := by
  have hgroup := groupTargets_getElem? hgeom hi hw hl
  have h := getElem?_flatMap_range hg (List.getElem?_eq_some_iff.1 hgroup).1
  rw [groupTargets_length_sum hgeom] at h
  exact h.trans hgroup

/-- The run moves each coded line from its place in the coding order to its place in its window (R212). -/
theorem read_deint {g i w l : Nat} (hg : g < s.ngroup.toNat) (hi : i < s.nsfbs.toNat) (hw : w < s.glenAt g)
    (hl : l < s.shortWidth i) :
    (copyRun s.qs s.deintTargets 0 s.ds).read ((s.windowBase g + w) * 128 + s.soffAt i + l)
      = s.qs.read (s.windowBase g * s.soffAt s.nsfbs.toNat + s.soffAt i * s.glenAt g + w * s.shortWidth i + l) := by
  obtain ⟨hk, htarget⟩ := List.getElem?_eq_some_iff.1 (deintTargets_getElem? hgeom hg hi hw hl)
  rw [← htarget, read_copyRun _ _ _ _ _ (deintTargets_nodup hgeom) hk]
  congr 1
  omega

/-- Every element of `DS` that is no coded line of a window reads as before (R212). -/
theorem read_deint_outside {j : Nat} (hj : s.soffAt s.nsfbs.toNat ≤ j % 128 ∨ 1024 ≤ j) :
    (copyRun s.qs s.deintTargets 0 s.ds).read j = s.ds.read j := by
  refine read_copyRun_of_not_mem _ _ _ _ _ fun hmem => ?_
  have hcoded := deintTargets_coded hgeom j hmem
  omega

end

/-- In DEINT the engine's step is the run of R212 and the exit of R215, where the geometry is accepted. -/
theorem engineStep_of_deint {s : State} (hs : s.phase = .deint) (hgeom : geometryOk s = true) : engineStep s =
    .next { s with ds := copyRun s.qs s.deintTargets 0 s.ds, phase := if s.pauseEn then .paused else .solve } := by
  rw [engineStep, hs]
  exact if_pos hgeom

/-- Settles O42: the coded lines are `read_deint`, every other element is `read_deint_outside`. -/
theorem deinterleaveMovesEveryLine : Obligations.DeinterleaveMovesEveryLine := by
  intro s hs he hp
  have hgeom := geometryOk_of_premiseP4 hp
  refine ⟨_, (step_of_engineMoves he).trans (engineStep_of_deint hs hgeom), fun g i w l => ?_, fun j => ?_, rfl⟩
  · exact read_deint hgeom
  · exact read_deint_outside hgeom

end Sys2Proof.Machine
end

section
/-! SUPPORT. The SOLVE phase (spec R231 to R236): its step, the bit length (R7), and the solver's root and `GQ` over the default
cube-root table (R42). -/

namespace Sys2Proof.Machine

/-! The SOLVE phase. -/

theorem engineStep_of_solve {s : State} (h : s.phase = .solve) : engineStep s = solveStep s := by
  unfold engineStep
  rw [h]

theorem solveStep_of_gt {s : State} (h : 8192 < s.maxMag.toNat) :
    solveStep s = .next (raiseError .magnitudeOutOfRange s.maxMag.toNat s) :=
  if_pos h

theorem solveStep_of_le {s : State} (h : s.maxMag.toNat ≤ 8192) :
    solveStep s = .next (enterRescale { s with gq := globalQWord s.rom s.maxMag.toNat }) :=
  if_neg (not_lt.2 h)

/-- Settles O29: above the limit the step is the error, whose record holds all of `MAX`. -/
theorem solverRejectsLargeMaximum : Obligations.SolverRejectsLargeMaximum := by
  intro s hs hp hm
  refine ⟨_, by rw [step_of_nil hp, engineStep_of_solve hs, solveStep_of_gt hm], ?_⟩
  have hraised := raiseError_raisedError .magnitudeOutOfRange s.maxMag.toNat (s := s) (dp := s.dp) rfl
  rwa [BitVec.ofNat_toNat, BitVec.setWidth_eq] at hraised

/-! The bit length (R7). -/

/-- `bitlen(a)` is the least number of bits that hold `a`. -/
theorem bitlen_bounds {a : Nat} (h : a ≠ 0) : 2 ^ (bitlen a - 1) ≤ a ∧ a < 2 ^ bitlen a ∧ 1 ≤ bitlen a := by
  rw [bitlen, if_neg h, Nat.add_sub_cancel]
  exact ⟨Nat.log2_self_le h, Nat.lt_log2_self, Nat.le_add_left 1 _⟩

theorem lt_two_pow_bitlen (a : Nat) : a < 2 ^ bitlen a := by
  rcases eq_or_ne a 0 with rfl | h
  · exact Nat.two_pow_pos _
  · obtain ⟨_, hlt, _⟩ := bitlen_bounds h
    exact hlt

/-- Settles O30: the step enters RESCALE with the solver's root, product and bit length. -/
theorem solverSetsGlobalQFormat : Obligations.SolverSetsGlobalQFormat := by
  intro s hs hp hm
  refine ⟨solverRoot s.rom s.maxMag.toNat, _, bitlen (s.maxMag.toNat * solverRoot s.rom s.maxMag.toNat), ?_, rfl, ?_, ?_⟩
  · rw [Nat.shiftRight_eq_div_pow, Nat.shiftRight_eq_div_pow, solverRoot]
  · split
    · next h => rw [h]; rfl
    · next h => exact bitlen_bounds h
  · rw [step_of_nil hp, engineStep_of_solve hs, solveStep_of_le hm]
    rfl

/-! The solver's root and `GQ` over the default table. -/

theorem cbrt_mono_of_default {rom : Rom} (h : rom.cbrtTab = defaultCbrtTab) {k j : Nat} (hk : k ≤ j) (hj : j ≤ 1025) :
    rom.cbrt k ≤ rom.cbrt j := by
  obtain ⟨_, _, _, hmono⟩ := cubeRootTable rom j h hj
  exact hmono k hk

/-- Against whole numbers the table entry compares as the exact root does: its own rounding is too small to matter (R42). -/
theorem cbrt_le_iff_of_default {rom : Rom} (h : rom.cbrtTab = defaultCbrtTab) {j : Nat} (hj : j ≤ 1025) (n : Nat) :
    rom.cbrt j ≤ n * 2 ^ 27 ↔ j ≤ n ^ 3 := by
  obtain ⟨hlo, hhi, _, _⟩ := cubeRootTable rom j h hj
  constructor
  · intro hle
    by_contra hlt
    have hn : n ≤ 16 := (lt_of_pow_lt_pow_left₀ 3 (Nat.zero_le _) (by omega : n ^ 3 < 16 ^ 3)).le
    have hcube : j * 2 ^ 81 < (n ^ 3 + 1) * 2 ^ 81 :=
      calc j * 2 ^ 81 < (rom.cbrt j + 1) ^ 3 := hhi
        _ ≤ (n * 2 ^ 27 + 1) ^ 3 := Nat.pow_le_pow_left (Nat.succ_le_succ hle) 3
        _ = n ^ 3 * 2 ^ 81 + (3 * n ^ 2 * 2 ^ 54 + 3 * n * 2 ^ 27 + 1) := by ring
        _ ≤ n ^ 3 * 2 ^ 81 + (3 * 16 ^ 2 * 2 ^ 54 + 3 * 16 * 2 ^ 27 + 1) := by gcongr
        _ ≤ (n ^ 3 + 1) * 2 ^ 81 := by omega
    omega
  · intro hle
    refine le_of_pow_le_pow_left₀ (by decide : 3 ≠ 0) (Nat.zero_le _) ?_
    calc rom.cbrt j ^ 3 ≤ j * 2 ^ 81 := hlo
      _ ≤ n ^ 3 * 2 ^ 81 := Nat.mul_le_mul_right _ hle
      _ = (n * 2 ^ 27) ^ 3 := by ring

/-- The solver's root is the ceiling of the cube root of the table index (R234). -/
theorem solverRoot_le_iff {rom : Rom} (hq : rom.qt = 27) (h : rom.cbrtTab = defaultCbrtTab) {m : Nat} (hm : m ≤ 8192)
    (n : Nat) : solverRoot rom m ≤ n ↔ m / 8 + 1 ≤ n ^ 3 := by
  rw [← cbrt_le_iff_of_default h (by omega)]
  simp only [solverRoot, hq, Nat.reducePow]
  omega

theorem le_solverRoot_cube {rom : Rom} (hq : rom.qt = 27) (h : rom.cbrtTab = defaultCbrtTab) {m : Nat} (hm : m ≤ 8192) :
    m / 8 + 1 ≤ solverRoot rom m ^ 3 :=
  (solverRoot_le_iff hq h hm _).1 le_rfl

/-- The root rises with the maximum (R234). -/
theorem solverRoot_mono {rom : Rom} (hq : rom.qt = 27) (h : rom.cbrtTab = defaultCbrtTab) {k m : Nat} (hk : k ≤ m)
    (hm : m ≤ 8192) : solverRoot rom k ≤ solverRoot rom m := by
  have hcube := le_solverRoot_cube hq h hm
  exact (solverRoot_le_iff hq h (hk.trans hm) _).2 (by omega)

/-- The solver's product has at most 17 bits (R235). -/
theorem bitlen_product_le {rom : Rom} (hq : rom.qt = 27) (h : rom.cbrtTab = defaultCbrtTab) {m : Nat} (hm : m ≤ 8192) :
    bitlen (m * solverRoot rom m) ≤ 17 := by
  have hr : solverRoot rom m ≤ 11 := (solverRoot_le_iff hq h hm 11).2 (by omega)
  exact bitlen_le ((Nat.mul_le_mul hm hr).trans_lt (by norm_num))

/-- For a maximum up to 7 the product has at most the 3 bits of the floor (R236). -/
theorem bitlen_product_le_three {rom : Rom} (hq : rom.qt = 27) (h : rom.cbrtTab = defaultCbrtTab) {m : Nat} (hm : m ≤ 7) :
    bitlen (m * solverRoot rom m) ≤ 3 := by
  have hr : solverRoot rom m ≤ 1 := (solverRoot_le_iff hq h (by omega) 1).2 (by omega)
  exact bitlen_le ((Nat.mul_le_mul hm hr).trans_lt (by norm_num))

/-- `GQ` with the default `QT` (R236). -/
theorem globalQ_of_default {rom : Rom} (hq : rom.qt = 27) (m : Nat) :
    globalQ rom m = 30 - ((max (bitlen (m * solverRoot rom m)) 3 : Nat) : Int) := by
  simp [globalQ, bFloor, hq]

/-- Settles O31: the root is a ceiling and not 0, and the product has 0 to 17 bits. -/
theorem globalQFormatRange : Obligations.GlobalQFormatRange := by
  intro rom m hq h hm
  obtain ⟨hword, _⟩ := globalQWord_range rom m hm (by omega)
  have h17 := bitlen_product_le hq h hm
  have hbelow := mt (solverRoot_le_iff hq h hm (solverRoot rom m - 1)).2
  have hpos := mt (solverRoot_le_iff hq h hm 0).1 (by omega)
  refine ⟨le_solverRoot_cube hq h hm, not_le.1 (hbelow (by omega)), ?_, ?_, hword, fun hm7 => ?_⟩
  · rw [globalQ_of_default hq]; omega
  · rw [globalQ_of_default hq]; omega
  · have h3 := bitlen_product_le_three hq h hm7
    rw [globalQ_of_default hq]; omega

end Sys2Proof.Machine
end

section
/-! SUPPORT. The power-law primitive over the default tables: the cube-root step (spec R255), the magnitude of a coefficient (R256,
R257) and its bound at the solver's `GQ` (R238). -/

namespace Sys2Proof.Machine

/-! The cube-root step over the default table (R255). -/

theorem cbrt28_of_le (rom : Rom) {a : Nat} (h : a ≤ 1024) : cbrt28 rom a = rom.cbrt a :=
  if_pos h

/-- Between table points the step is linear; over a table that rises the difference is a natural number. -/
theorem cbrt28_of_gt {rom : Rom} (h : rom.cbrtTab = defaultCbrtTab) {a : Nat} (h1 : 1024 < a) (ha : a ≤ 8192) :
    cbrt28 rom a = 2 * rom.cbrt (a / 8) + (rom.cbrt (a / 8 + 1) - rom.cbrt (a / 8)) * (a % 8) / 4 := by
  have hmono := cbrt_mono_of_default h (Nat.le_add_right (a / 8) 1) (by omega)
  rw [cbrt28, if_neg (not_le.2 h1)]
  obtain ⟨d, hd⟩ := Nat.exists_eq_add_of_le hmono
  simp only [Nat.reducePow, hd, Nat.add_sub_cancel_left, Nat.cast_add, add_sub_cancel_left]
  norm_cast

/-- `cbrt28` over the default table, in terms of `icbrt` alone: a closed number for each argument (R42, R255). -/
def defaultCbrt28 (a : Nat) : Nat :=
  if a ≤ 1024 then icbrt (a * 2 ^ 81)
  else 2 * icbrt (a / 8 * 2 ^ 81) + (icbrt ((a / 8 + 1) * 2 ^ 81) - icbrt (a / 8 * 2 ^ 81)) * (a % 8) / 4

theorem cbrt28_of_default {rom : Rom} (h : rom.cbrtTab = defaultCbrtTab) {a : Nat} (ha : a ≤ 8192) :
    cbrt28 rom a = defaultCbrt28 a := by
  unfold defaultCbrt28
  split
  · next h1 => rw [cbrt28_of_le rom h1, cbrt_of_default h (by omega)]
  · next h1 => rw [cbrt28_of_gt h (by omega) ha, cbrt_of_default h (by omega), cbrt_of_default h (by omega)]

/-- The step does not fall: inside a table interval it is linear, at its end it meets the next table point, and the two forms
meet at 1024. -/
theorem cbrt28_le_succ {rom : Rom} (h : rom.cbrtTab = defaultCbrtTab) {a : Nat} (ha : a < 8192) :
    cbrt28 rom a ≤ cbrt28 rom (a + 1) := by
  rcases lt_trichotomy a 1024 with h1 | rfl | h1
  · rw [cbrt28_of_le rom h1.le, cbrt28_of_le rom (a := a + 1) h1]
    exact cbrt_mono_of_default h (Nat.le_add_right a 1) (by omega)
  · rw [cbrt28_of_default h ha.le, cbrt28_of_default h ha]
    decide +kernel
  · rw [cbrt28_of_gt h h1 ha.le, cbrt28_of_gt h (h1.trans (Nat.lt_succ_self a)) ha]
    have hmono := cbrt_mono_of_default h (Nat.le_add_right (a / 8) 1) (by omega)
    obtain ⟨d, hd⟩ := Nat.exists_eq_add_of_le hmono
    rcases (by omega : a % 8 = 7 ∧ (a + 1) / 8 = a / 8 + 1 ∧ (a + 1) % 8 = 0
        ∨ (a + 1) / 8 = a / 8 ∧ (a + 1) % 8 = a % 8 + 1) with ⟨hf, hk, hf'⟩ | ⟨hk, hf⟩
    · rw [hf, hk, hf', hd]
      omega
    · rw [hk, hf]
      gcongr
      exact Nat.le_succ _

theorem cbrt28_mono {rom : Rom} (h : rom.cbrtTab = defaultCbrtTab) {k a : Nat} (hk : k ≤ a) (ha : a ≤ 8192) :
    cbrt28 rom k ≤ cbrt28 rom a := by
  induction a, hk using Nat.le_induction with
  | base => exact le_rfl
  | succ n _ ih => exact (ih (by omega)).trans (cbrt28_le_succ h ha)

/-! The magnitude of a coefficient (R256, R257). -/

theorem magnitude_zero (rom : Rom) (gq a : Nat) : magnitude rom gq 0 a = a * cbrt28 rom a / 2 ^ (rom.qt + 1 - gq) := rfl

theorem magnitude_of_ne_zero (rom : Rom) (gq : Nat) {fi : Nat} (h : fi ≠ 0) (a : Nat) :
    magnitude rom gq fi a = a * cbrt28 rom a * rom.pow2 fi / 2 ^ (rom.qt + 16 - gq) := by
  simp only [magnitude, shiftBase, if_neg h]

theorem natAbs_rescaleSample (rom : Rom) (gq fi : Nat) (q : Int) :
    (rescaleSample rom gq fi q).natAbs = magnitude rom gq fi q.natAbs := by
  unfold rescaleSample
  split
  · exact Int.natAbs_neg _
  · exact Int.natAbs_natCast _

/-- The magnitude rises with the sample's. -/
theorem magnitude_mono {rom : Rom} (h : rom.cbrtTab = defaultCbrtTab) (gq fi : Nat) {k a : Nat} (hk : k ≤ a) (ha : a ≤ 8192) :
    magnitude rom gq fi k ≤ magnitude rom gq fi a := by
  have hv : k * cbrt28 rom k ≤ a * cbrt28 rom a := Nat.mul_le_mul hk (cbrt28_mono h hk ha)
  rcases eq_or_ne fi 0 with rfl | hfi
  · exact Nat.div_le_div_right hv
  · rw [magnitude_of_ne_zero rom gq hfi, magnitude_of_ne_zero rom gq hfi]
    exact Nat.div_le_div_right (Nat.mul_le_mul_right _ hv)

/-- The default multipliers lie between 1 and that of fine index 3 (R43). -/
theorem pow2_bounds_of_default {rom : Rom} (h : rom.pow2q = defaultPow2q) :
    rom.pow2 3 = 55109 ∧ ∀ fi ≤ 3, rom.pow2 fi ≤ 55109 := by
  unfold Rom.pow2
  rw [h]
  decide

/-- Fine index 3 gives the largest magnitude (R43, R257). -/
theorem magnitude_le_of_fine_three {rom : Rom} (hp : rom.pow2q = defaultPow2q) {gq fi : Nat} (hg : gq ≤ rom.qt + 1)
    (hfi : fi ≤ 3) (a : Nat) : magnitude rom gq fi a ≤ magnitude rom gq 3 a := by
  obtain ⟨h3, hle⟩ := pow2_bounds_of_default hp
  rw [magnitude_of_ne_zero rom gq (by decide : 3 ≠ 0), h3]
  rcases eq_or_ne fi 0 with rfl | h0
  · have hshift : rom.qt + 16 - gq = rom.qt + 1 - gq + 15 := by omega
    rw [magnitude_zero, hshift, pow_add, ← Nat.mul_div_mul_right _ _ (Nat.two_pow_pos 15)]
    exact Nat.div_le_div_right (Nat.mul_le_mul_left _ (by norm_num))
  · rw [magnitude_of_ne_zero rom gq h0]
    exact Nat.div_le_div_right (Nat.mul_le_mul_left _ (hle fi hfi))

/-! No coefficient overflows (R238). For each bit count the worst sample is the largest maximum that gives that count. -/

/-- The largest maximum whose product `P` fits in `b` bits, for `b` in 3..17 (R235). -/
def largestMaximum (b : Nat) : Nat :=
  [7, 7, 15, 31, 63, 85, 170, 255, 511, 819, 1365, 2340, 4095, 6553].getD (b - 3) 8192

theorem largestMaximum_le : ∀ b < 18, largestMaximum b ≤ 8192 := by decide

/-- One more than the largest maximum no longer fits. -/
theorem product_above_largestMaximum : ∀ b < 17, 3 ≤ b → largestMaximum b < 8192 ∧
    2 ^ b ≤ (largestMaximum b + 1)
      * ((icbrt (((largestMaximum b + 1) / 2 ^ 3 + 1) * 2 ^ 81) + 2 ^ 27 - 1) / 2 ^ 27) := by
  decide +kernel

/-- The product rises with the maximum, so that one that fits in `b` bits comes of no maximum above the largest. -/
theorem le_largestMaximum {rom : Rom} (hq : rom.qt = 27) (h : rom.cbrtTab = defaultCbrtTab) {m b : Nat} (hm : m ≤ 8192)
    (h3 : 3 ≤ b) (h17 : b ≤ 17) (hfits : m * solverRoot rom m < 2 ^ b) : m ≤ largestMaximum b := by
  obtain rfl | h17 := h17.eq_or_lt
  · exact hm
  by_contra hgt
  obtain ⟨hlt, habove⟩ := product_above_largestMaximum b h17 h3
  have hroot := solverRoot_mono hq h (Nat.succ_le_of_lt (not_le.1 hgt)) hm
  rw [solverRoot, hq, cbrt_of_default h (by omega)] at hroot
  exact absurd (habove.trans (Nat.mul_le_mul (not_le.1 hgt) hroot)) (not_le.2 hfits)

/-- The table of the worst cases; the bound is met at 15 bits, by the maximum 4095. -/
theorem worst_products : ∀ b < 18, 3 ≤ b →
    largestMaximum b * defaultCbrt28 (largestMaximum b) * 55109 / 2 ^ (43 - (30 - b)) ≤ 0x6B99878E := by
  decide +kernel

/-- A sample up to the maximum, at the `GQ` of the maximum, stays below the bound. -/
theorem magnitude_le_bound {rom : Rom} (hq : rom.qt = 27) (h : rom.cbrtTab = defaultCbrtTab) (hp : rom.pow2q = defaultPow2q)
    {m fi a : Nat} (hm : m ≤ 8192) (hfi : fi ≤ 3) (ha : a ≤ m) :
    magnitude rom (globalQWord rom m).toNat fi a ≤ 0x6B99878E := by
  have h17 := bitlen_product_le hq h hm
  obtain ⟨hword, _⟩ := globalQWord_range rom m hm (by omega)
  have hfits := lt_two_pow_bitlen (m * solverRoot rom m)
  rw [globalQ_of_default hq] at hword
  obtain ⟨b, hb⟩ : ∃ b, b = max (bitlen (m * solverRoot rom m)) 3 := ⟨_, rfl⟩
  have hgq : (globalQWord rom m).toNat = 30 - b := by omega
  have hb18 : b < 18 := by omega
  have hlargest : m ≤ largestMaximum b :=
    le_largestMaximum hq h hm (by omega) (by omega) (hfits.trans_le (Nat.pow_le_pow_right (by decide) (by omega)))
  calc magnitude rom (globalQWord rom m).toNat fi a
      ≤ magnitude rom (globalQWord rom m).toNat 3 a := magnitude_le_of_fine_three hp (by omega) hfi a
    _ ≤ magnitude rom (globalQWord rom m).toNat 3 (largestMaximum b) :=
        magnitude_mono h _ _ (ha.trans hlargest) (largestMaximum_le b hb18)
    _ = largestMaximum b * defaultCbrt28 (largestMaximum b) * 55109 / 2 ^ (43 - (30 - b)) := by
        rw [magnitude_of_ne_zero _ _ (by decide), (pow2_bounds_of_default hp).1,
          cbrt28_of_default h (largestMaximum_le b hb18), hq, hgq]
    _ ≤ 0x6B99878E := worst_products b hb18 (by omega)

/-- Settles O39: the bound is below `2^31`, so the word holds the result with its sign. -/
theorem noCoefficientOverflows : Obligations.NoCoefficientOverflows := by
  intro rom m fi q hq h hp hm hfi ha
  have hbound := magnitude_le_bound hq h hp hm hfi ha
  have habs := natAbs_rescaleSample rom (globalQWord rom m).toNat fi q
  exact ⟨hbound, BitVec.toInt_ofInt_eq_self (by decide) (by omega) (by omega)⟩

end Sys2Proof.Machine
end

section
/-! SUPPORT. The bands of the sweep (spec R251 to R259, R262): the exponent's two parts, truncation and sign of the primitive, and
what a rejected and an accepted band leave. -/

namespace Sys2Proof.Machine

/-! The primitive (R254, R256, R257). -/

/-- Settles O37: `co - 1` is the quotient of `e` by 4 and `fi` the remainder. -/
theorem exponentSplitsExactly : Obligations.ExponentSplitsExactly := by
  intro rom sf
  refine ⟨rfl, ?_, ?_⟩ <;> unfold fineIndex
  · unfold coarsePart
    omega
  · omega

/-- Truncation: the quotient is the largest whole number whose product with the divisor does not exceed `v`. -/
theorem div_two_pow_bounds (v n : Nat) : v / 2 ^ n * 2 ^ n ≤ v ∧ v < (v / 2 ^ n + 1) * 2 ^ n :=
  ⟨Nat.div_mul_le_self v _, (Nat.div_lt_iff_lt_mul (Nat.two_pow_pos n)).1 (Nat.lt_succ_self _)⟩

theorem rescaleSample_of_nonneg (rom : Rom) (gq fi : Nat) {q : Int} (h : 0 ≤ q) :
    rescaleSample rom gq fi q = (magnitude rom gq fi q.natAbs : Int) :=
  if_neg (not_lt.2 h)

/-- The sign is applied last, to a magnitude that is 0 for the sample 0 (R257). -/
theorem rescaleSample_of_nonpos (rom : Rom) (gq fi : Nat) {q : Int} (h : q ≤ 0) :
    rescaleSample rom gq fi q = -(magnitude rom gq fi q.natAbs : Int) := by
  rcases h.eq_or_lt with rfl | hneg
  · simp [rescaleSample, magnitude]
  · exact if_pos hneg

theorem rescaleSample_neg (rom : Rom) (gq fi : Nat) (q : Int) : rescaleSample rom gq fi (-q) = -rescaleSample rom gq fi q := by
  rcases le_total 0 q with h | h
  · rw [rescaleSample_of_nonneg rom gq fi h, rescaleSample_of_nonpos rom gq fi (by omega), Int.natAbs_neg]
  · rw [rescaleSample_of_nonpos rom gq fi h, rescaleSample_of_nonneg rom gq fi (by omega), Int.natAbs_neg, neg_neg]

/-- Settles O36: the magnitude is a quotient by a power of two, and the sign is the sample's. -/
theorem rescaleSampleTruncates : Obligations.RescaleSampleTruncates := by
  intro rom gq fi q hgq
  refine ⟨?_, fun h => ?_, fun h => ?_, rescaleSample_neg rom gq fi q⟩
  · rw [natAbs_rescaleSample]
    rcases eq_or_ne fi 0 with rfl | hfi
    · exact div_two_pow_bounds _ _
    · have hshift : rom.qt + 16 - gq = rom.qt + 1 - gq + 15 := by omega
      rw [if_neg hfi, magnitude_of_ne_zero rom gq hfi, hshift]
      exact div_two_pow_bounds _ _
  · rw [rescaleSample_of_nonneg rom gq fi h]
    exact Int.natCast_nonneg _
  · rw [rescaleSample_of_nonpos rom gq fi h]
    exact Int.neg_nonpos_of_nonneg (Int.natCast_nonneg _)

/-! A band of the current window (R251, R253). -/

/-- In RESCALE, inside a window whose bands are not all swept, the step is the band's. -/
theorem step_of_band {s : State} (hs : s.phase = .rescale) (hp : s.pending = []) (hw : s.win.toNat < s.windows)
    (hn : s.bandsIn s.win.toNat ≤ 64) (hb : s.bidx.toNat < s.bandsIn s.win.toNat) : step s = bandStep s := by
  rw [step_of_nil hp, engineStep_of_rescale hs, rescaleStep, if_neg (not_le.2 hw), if_neg (not_lt.2 hn), if_neg (not_le.2 hb)]

theorem badWidth_iff (w : Int) : badWidth w = true ↔ w ≤ 0 ∨ 1024 < w ∨ w % 4 ≠ 0 := by
  simp only [badWidth, Config.maxWidth, Bool.or_eq_true, decide_eq_true_eq, bne_iff_ne, or_assoc]
  rfl

/-- Settles O33: the band step takes the error, whose record holds all of `BFLAT`. -/
theorem badBandIsRejected : Obligations.BadBandIsRejected := by
  intro s hs hp hw hn hb hwidth
  have hbad : badWidth s.bandWidth = true := (badWidth_iff _).2 hwidth
  have hraised := raiseError_raisedError .invalidBandGeometry s.bflat.toNat (s := s) (dp := s.dp) rfl
  rw [BitVec.ofNat_toNat] at hraised
  exact ⟨_, (step_of_band hs hp hw hn hb).trans (if_pos hbad), hraised⟩

/-- A sample within `MAX` gets its own coefficient, whatever has been drawn (R257, R262). -/
theorem coefficient_of_le {s : State} {fi ln : Nat} (hmax : (s.sampleAt ln).natAbs ≤ s.maxMag.toNat)
    (hlimit : s.maxMag.toNat ≤ 8192) (hgq : s.gq.toNat ≤ s.rom.qt) (draws : Nat) :
    (coefficient s fi ln draws).1 = BitVec.ofInt 32 (rescaleSample s.rom s.gq.toNat fi (s.sampleAt ln)) := by
  have hshift : s.gq.toNat ≤ shiftBase s.rom fi := by
    unfold shiftBase
    split <;> omega
  rw [coefficient, if_pos ⟨hmax, hmax.trans hlimit, hshift⟩]

/-- Settles O34: the step is `rescaleBand`, whose lines `read_coefRun` gives one by one. -/
theorem bandIsRescaled : Obligations.BandIsRescaled := by
  intro s hinv hs hp hw hn hb top width first e sample hpos hle hmod htop
  have hsweep := ((inv_iff s).1 hinv).sweep hs
  have hroff := hsweep.roff_nonneg
  have hflat := hsweep.bflat_lt hw hn hb
  have hwidth : 0 < s.bandTop - s.roff.toInt := hpos
  have hfits : s.bandTop ≤ (s.windowLen : Int) := by
    rw [State.windowLen, Nat.cast_ite]
    exact htop
  have hgood : ¬ badWidth s.bandWidth = true := by
    rw [badWidth_iff]
    exact not_or.2 ⟨not_le.2 hpos, not_or.2 ⟨not_lt.2 hle, not_not.2 hmod⟩⟩
  have hstep : bandStep s = .next (rescaleBand s) := by
    rw [bandStep, if_neg hgood, if_neg (not_or.2 ⟨not_lt.2 hroff, not_le.2 hflat⟩), if_neg (not_lt.2 hfits)]
  have hlines := fun ln => read_coefRun s (fineIndex e) ln width.toNat first s.coef s.draws
  refine ⟨rescaleBand s, (step_of_band hs hp hw hn hb).trans hstep, fun ln hlo hhi hmax hgq => ?_, fun ln hout => ?_, ?_,
    fun k hk => ?_, ?_, ?_, ?_, rfl⟩
  · obtain ⟨draws, hread⟩ := (hlines ln).2 ⟨hlo, hhi⟩
    exact hread.trans (coefficient_of_le hmax hsweep.max_le hgq draws)
  · exact (hlines ln).1 (by omega)
  · exact (Mem.read_write _ _ _ _).trans (if_pos rfl)
  · exact (Mem.read_write _ _ _ _).trans (if_neg hk)
  · exact rescaleBand_roff_toInt hfits (by omega)
  · exact toNat_add_one (by omega)
  · exact toNat_add_one (by omega)

end Sys2Proof.Machine
end

section
/-! SUPPORT. The accuracy of the power-law primitive over the default tables: the chord of the cube-root step (spec R255), and the
magnitude against `x^(4/3)` (R260). -/

namespace Sys2Proof.Machine

/-! Cubes of a weighted mean. Between two table points the step is a chord of the cube root. -/

/-- The cube of the mean of `x` and `x + d` with weights `e` and `f` of sum 8 falls short of the mean of their cubes by a term in
`d^2`. -/
theorem mean_cubes_eq {e f : Nat} (h : e + f = 8) (x d : Nat) : 64 * (e * x ^ 3 + f * (x + d) ^ 3)
    = (8 * x + f * d) ^ 3 + e * f * d ^ 2 * (24 * x + (8 + f) * d) := by
  have hgeneral : (e + f) ^ 2 * (e * x ^ 3 + f * (x + d) ^ 3)
      = ((e + f) * x + f * d) ^ 3 + e * f * d ^ 2 * (3 * (e + f) * x + (e + f + f) * d) := by ring
  rw [h] at hgeneral
  exact hgeneral

/-- Where `d` is at most 1/383 of `x`, the term is below 5.2 millionths of the cube. -/
theorem mean_cubes_defect_le {e f x d : Nat} (h : e + f = 8) (hd : 383 * d ≤ x) :
    10 ^ 7 * (e * f * d ^ 2 * (24 * x + (8 + f) * d)) ≤ 52 * (8 * x + f * d) ^ 3 := by
  have hef : e * f ≤ 16 := by
    have := four_mul_le_sq_add e f
    rw [h, mul_assoc] at this
    omega
  have hf : 8 + f ≤ 16 := by omega
  have hterm : 383 ^ 3 * (e * f * d ^ 2 * (24 * x + (8 + f) * d)) ≤ 147328 * x ^ 3 :=
    calc 383 ^ 3 * (e * f * d ^ 2 * (24 * x + (8 + f) * d))
        = e * f * (383 * d) ^ 2 * (24 * 383 * x + (8 + f) * (383 * d)) := by ring
      _ ≤ 16 * x ^ 2 * (24 * 383 * x + 16 * x) := by gcongr
      _ = 147328 * x ^ 3 := by ring
  have hcube : 512 * x ^ 3 ≤ (8 * x + f * d) ^ 3 :=
    calc 512 * x ^ 3 = (8 * x) ^ 3 := by ring
      _ ≤ (8 * x + f * d) ^ 3 := Nat.pow_le_pow_left (Nat.le_add_right _ _) 3
  omega

/-! The cube-root step over the default table (R42, R255). -/

/-- An argument is the weighted mean of the arguments of its two table points. -/
theorem mean_of_table_points {a e : Nat} (h : e + a % 8 = 8) (n : Nat) :
    e * (a / 8 * n) + a % 8 * ((a / 8 + 1) * n) = a * n := by
  have hsplit : e * (a / 8 * n) + a % 8 * ((a / 8 + 1) * n) = ((e + a % 8) * (a / 8) + a % 8) * n := by ring
  rw [hsplit, h, Nat.div_add_mod]

section
variable {rom : Rom} (h : rom.cbrtTab = defaultCbrtTab)
include h

/-- From entry 128 on, an entry and one unit are at least 383 times the distance to the next entry. -/
theorem cbrt_step_le_of_default {k d : Nat} (hk : 128 ≤ k) (hk' : k ≤ 1024) (hd : rom.cbrt (k + 1) = rom.cbrt k + d) :
    383 * d ≤ rom.cbrt k + 1 := by
  obtain ⟨_, hlo, _, _⟩ := cubeRootTable rom k h (by omega)
  obtain ⟨hhi, _, _, _⟩ := cubeRootTable rom (k + 1) h (by omega)
  have hlarge : 2 ^ 27 < rom.cbrt k + 1 := lt_of_pow_lt_pow_left₀ 3 (Nat.zero_le _) (by omega)
  have hratio : 384 * rom.cbrt (k + 1) < 385 * (rom.cbrt k + 1) := by
    refine lt_of_pow_lt_pow_left₀ 3 (Nat.zero_le _) ?_
    rw [mul_pow, mul_pow]
    omega
  omega

/-- Four times the step is the chord, in eighths of the two table entries, rounded down to a multiple of four. -/
theorem cbrt28_chord {a : Nat} (h1 : 1024 < a) (ha : a ≤ 8192) : ∃ d, rom.cbrt (a / 8 + 1) = rom.cbrt (a / 8) + d
    ∧ 4 * cbrt28 rom a ≤ 8 * rom.cbrt (a / 8) + a % 8 * d ∧ 8 * rom.cbrt (a / 8) + a % 8 * d ≤ 4 * cbrt28 rom a + 3 := by
  obtain ⟨d, hd⟩ := Nat.exists_eq_add_of_le (cbrt_mono_of_default h (Nat.le_add_right (a / 8) 1) (by omega))
  rw [cbrt28_of_gt h h1 ha, hd, Nat.add_sub_cancel_left, Nat.mul_comm d]
  exact ⟨d, rfl, by omega, by omega⟩

/-- The step does not exceed the cube root: neither does the table, and the cube root is concave. -/
theorem cbrt28_cube_le {a : Nat} (ha : a ≤ 8192) : cbrt28 rom a ^ 3 ≤ a * 2 ^ 81 := by
  rcases le_or_gt a 1024 with h1 | h1
  · obtain ⟨hlo, _, _, _⟩ := cubeRootTable rom a h (by omega)
    rwa [cbrt28_of_le rom h1]
  obtain ⟨d, hd, hchord, _⟩ := cbrt28_chord h h1 ha
  obtain ⟨hlo, _, _, _⟩ := cubeRootTable rom (a / 8) h (by omega)
  obtain ⟨hlo', _, _, _⟩ := cubeRootTable rom (a / 8 + 1) h (by omega)
  rw [hd] at hlo'
  obtain ⟨e, he⟩ : ∃ e, e + a % 8 = 8 := ⟨8 - a % 8, by omega⟩
  have hmean := mean_cubes_eq he (rom.cbrt (a / 8)) d
  have hcubes : e * rom.cbrt (a / 8) ^ 3 + a % 8 * (rom.cbrt (a / 8) + d) ^ 3 ≤ a * 2 ^ 81 := by
    rw [← mean_of_table_points he]
    gcongr
  have hcube := Nat.pow_le_pow_left hchord 3
  rw [mul_pow] at hcube
  omega

/-- The step falls short of the cube root by less than 1.8 millionths and three units; said of the cubes of four times both, of
which the chord's defect takes 5.2 millionths. -/
theorem lt_cbrt28_cube {a : Nat} (ha : a ≤ 8192) :
    64 * 10 ^ 7 * (a * 2 ^ 81) < (10 ^ 7 + 52) * (4 * cbrt28 rom a + 11) ^ 3 := by
  rcases le_or_gt a 1024 with h1 | h1
  · obtain ⟨_, hhi, _, _⟩ := cubeRootTable rom a h (by omega)
    rw [cbrt28_of_le rom h1]
    have hcube : (4 * (rom.cbrt a + 1)) ^ 3 ≤ (4 * rom.cbrt a + 11) ^ 3 := Nat.pow_le_pow_left (by omega) 3
    rw [mul_pow] at hcube
    omega
  obtain ⟨d, hd, _, hchord⟩ := cbrt28_chord h h1 ha
  obtain ⟨_, hhi, _, _⟩ := cubeRootTable rom (a / 8) h (by omega)
  obtain ⟨_, hhi', _, _⟩ := cubeRootTable rom (a / 8 + 1) h (by omega)
  rw [hd, Nat.add_right_comm] at hhi'
  obtain ⟨e, he⟩ : ∃ e, e + a % 8 = 8 := ⟨8 - a % 8, by omega⟩
  have hmean := mean_cubes_eq he (rom.cbrt (a / 8) + 1) d
  have hdefect := mean_cubes_defect_le he (cbrt_step_le_of_default h (by omega) (by omega) hd)
  have hcubes : a * 2 ^ 81 < e * (rom.cbrt (a / 8) + 1) ^ 3 + a % 8 * (rom.cbrt (a / 8) + 1 + d) ^ 3 := by
    rw [← mean_of_table_points he]
    exact Nat.add_lt_add_of_lt_of_le (Nat.mul_lt_mul_of_pos_left hhi (by omega)) (Nat.mul_le_mul_left _ hhi'.le)
  have hcube : (8 * (rom.cbrt (a / 8) + 1) + a % 8 * d) ^ 3 ≤ (4 * cbrt28 rom a + 11) ^ 3 := Nat.pow_le_pow_left (by omega) 3
  omega

/-- A sample that is not 0 has a cube root of at least 1, in Q27 (R255). -/
theorem two_pow_le_cbrt28 {a : Nat} (h1 : 1 ≤ a) (ha : a ≤ 8192) : 2 ^ 27 ≤ cbrt28 rom a := by
  obtain ⟨_, hhi, _, _⟩ := cubeRootTable rom 1 h (by omega)
  have hone : 2 ^ 27 < rom.cbrt 1 + 1 := lt_of_pow_lt_pow_left₀ 3 (Nat.zero_le _) (by omega)
  exact (Nat.lt_succ_iff.1 hone).trans (cbrt28_mono h h1 ha)

/-- The step falls short by less than 2 parts in a million (R255). -/
theorem cbrt28_relative_error {a : Nat} (h1 : 1 ≤ a) (ha : a ≤ 8192) :
    (10 ^ 6 - 2) ^ 3 * (a * 2 ^ 81) < (10 ^ 6 * cbrt28 rom a) ^ 3 := by
  have hlarge := two_pow_le_cbrt28 h h1 ha
  have hbelow := lt_cbrt28_cube h ha
  have hunits : ((10 ^ 7 - 1) * (4 * cbrt28 rom a + 11)) ^ 3 ≤ (4 * 10 ^ 7 * cbrt28 rom a) ^ 3 :=
    Nat.pow_le_pow_left (by omega) 3
  rw [mul_pow, mul_pow] at hunits
  rw [mul_pow]
  omega

end

/-- Settles O38: the step rises and stays below the cube root, by less than 2 parts in a million. -/
theorem cubeRootStepIsAccurate : Obligations.CubeRootStepIsAccurate := by
  intro rom a h ha
  have hcube := cbrt28_cube_le h ha
  refine ⟨lt_of_pow_lt_pow_left₀ 3 (Nat.zero_le _) (by omega), fun k hk => cbrt28_mono h hk ha, fun hpos =>
    ⟨cbrt28_relative_error h hpos ha, ?_⟩⟩
  rw [mul_pow]
  omega

/-! The magnitude against `x^(4/3)` (R260). -/

/-- The Q15 factor of a fine index: `POW2Q[fi]`, and 1 for index 0 (R43, R257). -/
def fineFactor (rom : Rom) (fi : Nat) : Nat := if fi = 0 then 2 ^ 15 else rom.pow2 fi

/-- Both forms of the primitive as one, with the factor of index 0 written out (R256, R257). -/
theorem magnitude_eq_div {rom : Rom} {gq : Nat} (hg : gq ≤ rom.qt + 1) (fi a : Nat) :
    magnitude rom gq fi a = a * cbrt28 rom a * fineFactor rom fi / 2 ^ (rom.qt + 16 - gq) := by
  rcases eq_or_ne fi 0 with rfl | h
  · have hshift : rom.qt + 16 - gq = rom.qt + 1 - gq + 15 := by omega
    rw [magnitude_zero, fineFactor, if_pos rfl, hshift, pow_add, Nat.mul_div_mul_right _ _ (Nat.two_pow_pos 15)]
  · rw [magnitude_of_ne_zero rom gq h, fineFactor, if_neg h]

/-- The default factors are `2^(fi/4)` rounded up, within `2^-16` (said of the fourth powers; R43). -/
theorem fineFactor_bounds {rom : Rom} (h : rom.pow2q = defaultPow2q) : ∀ fi ≤ 3, 2 ^ (60 + fi) ≤ fineFactor rom fi ^ 4
    ∧ fineFactor rom fi ^ 4 * 2 ^ 64 ≤ 2 ^ (60 + fi) * (2 ^ 16 + 1) ^ 4 := by
  unfold fineFactor Rom.pow2
  rw [h]
  decide

/-- The step falls short by less than `2^-16`, the form the bound of R260 needs. -/
theorem cbrt28_relative_error_binary {rom : Rom} (h : rom.cbrtTab = defaultCbrtTab) {a : Nat} (h1 : 1 ≤ a) (ha : a ≤ 8192) :
    (2 ^ 16 - 1) ^ 3 * (a * 2 ^ 81) ≤ (2 ^ 16 * cbrt28 rom a) ^ 3 := by
  have herror := cbrt28_relative_error h h1 ha
  rw [mul_pow] at herror ⊢
  omega

/-- The exact product is `x^(4/3) * 2^(fi/4)` in Q42, within `2^-16` (said of the twelfth powers: those of the step are fourth
powers of its cube, those of the factor cubes of its fourth power). -/
theorem product_bounds {rom : Rom} (h : rom.cbrtTab = defaultCbrtTab) (hp : rom.pow2q = defaultPow2q) {a fi : Nat} (h1 : 1 ≤ a)
    (ha : a ≤ 8192) (hfi : fi ≤ 3) :
    (a * cbrt28 rom a * fineFactor rom fi) ^ 12 * 2 ^ 192 ≤ a ^ 16 * 2 ^ (3 * fi) * (2 ^ 16 + 1) ^ 12 * (2 ^ 42) ^ 12
    ∧ a ^ 16 * 2 ^ (3 * fi) * (2 ^ 16 - 1) ^ 12 * (2 ^ 42) ^ 12 ≤ (a * cbrt28 rom a * fineFactor rom fi) ^ 12 * 2 ^ 192 := by
  obtain ⟨hfactor, hfactor'⟩ := fineFactor_bounds hp fi hfi
  have hstep := cbrt28_cube_le h ha
  have hstep' := cbrt28_relative_error_binary h h1 ha
  constructor
  · calc (a * cbrt28 rom a * fineFactor rom fi) ^ 12 * 2 ^ 192
        = a ^ 12 * (cbrt28 rom a ^ 3) ^ 4 * (fineFactor rom fi ^ 4 * 2 ^ 64) ^ 3 := by ring
      _ ≤ a ^ 12 * (a * 2 ^ 81) ^ 4 * (2 ^ (60 + fi) * (2 ^ 16 + 1) ^ 4) ^ 3 := by gcongr
      _ = a ^ 16 * 2 ^ (3 * fi) * (2 ^ 16 + 1) ^ 12 * (2 ^ 42) ^ 12 := by ring
  · calc a ^ 16 * 2 ^ (3 * fi) * (2 ^ 16 - 1) ^ 12 * (2 ^ 42) ^ 12
        = a ^ 12 * ((2 ^ 16 - 1) ^ 3 * (a * 2 ^ 81)) ^ 4 * (2 ^ (60 + fi)) ^ 3 := by ring
      _ ≤ a ^ 12 * ((2 ^ 16 * cbrt28 rom a) ^ 3) ^ 4 * (fineFactor rom fi ^ 4) ^ 3 := by gcongr
      _ = (a * cbrt28 rom a * fineFactor rom fi) ^ 12 * 2 ^ 192 := by ring

/-- With the default `QT` the magnitude is the product over `2^(43 - GQ)`, truncated (R257); said without the division. -/
theorem magnitude_bounds {rom : Rom} (hq : rom.qt = 27) {gq : Nat} (hg : gq ≤ 27) (fi a : Nat) :
    magnitude rom gq fi a * 2 ^ 43 ≤ a * cbrt28 rom a * fineFactor rom fi * 2 ^ gq
    ∧ a * cbrt28 rom a * fineFactor rom fi * 2 ^ gq < (magnitude rom gq fi a + 1) * 2 ^ 43 := by
  obtain ⟨hlo, hhi⟩ := div_two_pow_bounds (a * cbrt28 rom a * fineFactor rom fi) (43 - gq)
  rw [magnitude_eq_div (by omega), hq, ← pow_sub_mul_pow 2 (by omega : gq ≤ 43), ← mul_assoc, ← mul_assoc]
  exact ⟨Nat.mul_le_mul_right _ hlo, Nat.mul_lt_mul_of_pos_right hhi (Nat.two_pow_pos gq)⟩

/-- Settles O40: the truncation is one unit, and the rest is the error of the product. -/
theorem rescaleIsAccurate : Obligations.RescaleIsAccurate := by
  intro rom a gq fi hq h hp h1 ha hg hfi
  obtain ⟨hlo, hhi⟩ := magnitude_bounds hq hg fi a
  obtain ⟨habove, hbelow⟩ := product_bounds h hp h1 ha hfi
  have hscale : 0 < (2 ^ 42) ^ 12 := by decide
  constructor
  · refine Nat.le_of_mul_le_mul_right ?_ hscale
    calc magnitude rom gq fi a ^ 12 * 2 ^ 204 * (2 ^ 42) ^ 12
        = (magnitude rom gq fi a * 2 ^ 43) ^ 12 * 2 ^ 192 := by ring
      _ ≤ (a * cbrt28 rom a * fineFactor rom fi * 2 ^ gq) ^ 12 * 2 ^ 192 := by gcongr
      _ = (a * cbrt28 rom a * fineFactor rom fi) ^ 12 * 2 ^ 192 * 2 ^ (12 * gq) := by ring
      _ ≤ a ^ 16 * 2 ^ (3 * fi) * (2 ^ 16 + 1) ^ 12 * (2 ^ 42) ^ 12 * 2 ^ (12 * gq) := by gcongr
      _ = a ^ 16 * 2 ^ (3 * fi + 12 * gq) * (2 ^ 16 + 1) ^ 12 * (2 ^ 42) ^ 12 := by ring
  · refine Nat.lt_of_mul_lt_mul_right (a := (2 ^ 42) ^ 12) ?_
    calc a ^ 16 * 2 ^ (3 * fi + 12 * gq) * (2 ^ 16 - 1) ^ 12 * (2 ^ 42) ^ 12
        = a ^ 16 * 2 ^ (3 * fi) * (2 ^ 16 - 1) ^ 12 * (2 ^ 42) ^ 12 * 2 ^ (12 * gq) := by ring
      _ ≤ (a * cbrt28 rom a * fineFactor rom fi) ^ 12 * 2 ^ 192 * 2 ^ (12 * gq) := by gcongr
      _ = (a * cbrt28 rom a * fineFactor rom fi * 2 ^ gq) ^ 12 * 2 ^ 192 := by ring
      _ < ((magnitude rom gq fi a + 1) * 2 ^ 43) ^ 12 * 2 ^ 192 := by gcongr
      _ = (magnitude rom gq fi a + 1) ^ 12 * 2 ^ 204 * (2 ^ 42) ^ 12 := by ring

end Sys2Proof.Machine
end

section
/-! SUPPORT. The host commands (spec R281 to R283, R285, R286) and the transition table (R290): what each command answers, and the
moves of the engine and of the host that change the phase. -/

namespace Sys2Proof.Machine

/-! The command a `CTRL` write issues (R97, R286). -/

theorem hostWrite_ctrl (v : HostWord) (s : State) : hostWrite .ctrl v s =
    if v.getLsbD 2 then exec .abort s
    else if v.getLsbD 0 then exec .start s
    else if v.getLsbD 1 then exec .resume s
    else .next s := by
  rw [hostWrite, decode, decodeControl]
  split_ifs <;> rfl

/-- Settles O6: the decoder takes the command bits in the order of priority, and the write runs what it decodes. -/
theorem controlWriteRunsOneCommand : Obligations.ControlWriteRunsOneCommand := by
  intro s v rest hp
  rw [step_of_writeReg hp, hostWrite_ctrl]

/-! What each command answers. -/

theorem startLegal_iff (s : State) : startLegal s = true ↔ s.phase = .idle ∨ s.phase = .done ∨ s.phase = .error := by
  simp [startLegal, or_assoc]

theorem exec_start_of_legal {s : State} (h : startLegal s = true) : exec .start s = .next (launch s) := if_pos h

theorem exec_start_of_not_legal {s : State} (h : startLegal s ≠ true) : exec .start s = .next s := if_neg h

theorem exec_resume_of_paused {s : State} (h : s.phase = .paused) : exec .resume s = .next { s with phase := .solve } :=
  if_pos h

theorem exec_resume_of_not_paused {s : State} (h : s.phase ≠ .paused) : exec .resume s = .next s := if_neg h

theorem exec_abort (s : State) : exec .abort s = .next { clearError (interrupted s) with phase := .idle } := rfl

theorem interrupted_of_not_busy {s : State} (h : s.busy = false) : interrupted s = s := if_neg (by simp [h])

/-- Settles O48: the five other phases are those in which START is not legal. -/
theorem startLaunches : Obligations.StartLaunches := by
  refine fun s => ⟨fun h => exec_start_of_legal ((startLegal_iff s).2 h), fun h => exec_start_of_not_legal ?_⟩
  rw [ne_eq, startLegal_iff]
  rcases h with h | h | h | h | h <;> simp [h]

/-- Settles O49, by the two cases of RESUME. -/
theorem resumeSolves : Obligations.ResumeSolves :=
  fun _ => ⟨exec_resume_of_paused, exec_resume_of_not_paused⟩

/-- Settles O50: the command writes the phase and the error record, and only a busy phase is interrupted. -/
theorem abortReturnsToIdle : Obligations.AbortReturnsToIdle := by
  refine fun s => ⟨_, exec_abort s, rfl, rfl, rfl, exec_command_keepsInputs (.inr (.inr rfl)) (exec_abort s), fun hb => ?_⟩
  rw [interrupted_of_not_busy hb]
  rfl

/-! The transition table (R290). -/

/-- Each command that changes the phase, with the phase it acts in (R281 to R283, R285). -/
theorem exec_command_phase {i : Instr} {s t : State} (hi : i = .start ∨ i = .resume ∨ i = .abort)
    (h : exec i s = .next t) (hne : t.phase ≠ s.phase) :
    (i = .start ∧ (s.phase = .idle ∨ s.phase = .done ∨ s.phase = .error) ∧ t.phase = .unpack)
    ∨ (i = .resume ∧ s.phase = .paused ∧ t.phase = .solve)
    ∨ (i = .abort ∧ t.phase = .idle) := by
  rcases hi with rfl | rfl | rfl
  · by_cases hl : startLegal s = true
    · cases (exec_start_of_legal hl).symm.trans h
      exact .inl ⟨rfl, (startLegal_iff s).1 hl, rfl⟩
    · cases (exec_start_of_not_legal hl).symm.trans h
      exact absurd rfl hne
  · by_cases hp : s.phase = .paused
    · cases (exec_resume_of_paused hp).symm.trans h
      exact .inr (.inl ⟨rfl, hp, rfl⟩)
    · cases (exec_resume_of_not_paused hp).symm.trans h
      exact absurd rfl hne
  · cases (exec_abort s).symm.trans h
    exact .inr (.inr ⟨rfl, rfl⟩)

/-- Of the host's moves only the commands and reset change the phase. -/
theorem HostMoved.phase_change {s t : State} {m : HostMove} {rest : List HostMove} (hp : s.pending = m :: rest)
    (h : HostMoved { s with pending := rest } m t) (hne : t.phase ≠ s.phase) :
    (hostIssues s .start ∧ (s.phase = .idle ∨ s.phase = .done ∨ s.phase = .error) ∧ t.phase = .unpack)
    ∨ (hostIssues s .resume ∧ s.phase = .paused ∧ t.phase = .solve)
    ∨ ((hostIssues s .abort ∨ hostResets s) ∧ t.phase = .idle) := by
  cases h with
  | command v i hd hi _ hx =>
    have hissued : hostIssues s i := ⟨v, rest, hp, hd⟩
    rcases exec_command_phase hi hx hne with ⟨rfl, hs, ht⟩ | ⟨rfl, hs, ht⟩ | ⟨rfl, ht⟩
    · exact .inl ⟨hissued, hs, ht⟩
    · exact .inr (.inl ⟨hissued, hs, ht⟩)
    · exact .inr (.inr ⟨.inl hissued, ht⟩)
  | reset => exact .inr (.inr ⟨.inr ⟨rest, hp⟩, rfl⟩)
  | register => rw [writeReg_frame] at hne; exact absurd rfl hne
  | registerRead => rw [readReg_frame] at hne; exact absurd rfl hne
  | element => rw [writeElem_frame] at hne; exact absurd rfl hne
  | elementRead => rw [readElem_frame] at hne; exact absurd rfl hne
  | waited | noCommand | reader => exact absurd rfl hne

/-- A step is a move of the engine, which acts whatever is pending, or the pending move of the host. -/
theorem step_next_cases {s t : State} (h : step s = .next t) :
    (∃ s' ms, s = { s' with pending := ms } ∧ EngineMove s' t)
    ∨ ∃ m rest, s.pending = m :: rest ∧ HostMoved { s with pending := rest } m t := by
  rcases step_next h with ⟨_, m⟩ | ⟨rest, _, m⟩ | hm
  · exact .inl ⟨s, s.pending, rfl, m⟩
  · exact .inl ⟨{ s with pending := rest }, s.pending, rfl, m⟩
  · exact .inr hm

/-- Settles O56: each move of the engine and of the host that changes the phase is a row of the table, and the others keep it. -/
theorem phaseChangesAreListed : Obligations.PhaseChangesAreListed := by
  intro s t h hne
  rcases step_next_cases h with ⟨s, ms, rfl, m⟩ | ⟨m, rest, hp, hm⟩
  · cases m with
    | rest | zeroed | stored | band => exact absurd rfl hne
    | window =>
      rw [endWindow_frame] at hne
      exact absurd rfl hne
    | leave hs hlast =>
      cases hshort : s.short with
      | true => simp [leaveUnpack, hs, hlast, hshort]
      | false => cases hpause : s.pauseEn <;> simp [leaveUnpack, hs, hlast, hshort, hpause]
    | deinterleaved hs => cases s.pauseEn <;> simp [hs]
    | solved hs hmax => simp [hs, hmax]
    | swept hs hw => simp [hs, show (if s.short then 8 else 1) ≤ s.win.toNat from hw]
    | illegal hs | overrun hs | badBand hs => simp [hs, EngineError.code]
    | tooLarge hs hmax => simp [hs, hmax, EngineError.code]
  · rcases hm.phase_change hp hne with ⟨hi, hs, ht⟩ | ⟨hi, hs, ht⟩ | ⟨hi, ht⟩
    · exact .inl ⟨ht, hs, hi⟩
    · simp [hi, hs, ht]
    · simp [hi, ht]

end Sys2Proof.Machine
end

section
/-! SUPPORT. The resting states (spec R319, R341), and errors: what raises one and what entering ERROR keeps (R304 to R308). -/

namespace Sys2Proof.Machine

/-! The resting states. -/

theorem engineStep_of_resting {s : State} (h : s.phase = .idle ∨ s.phase = .paused ∨ s.phase = .done ∨ s.phase = .error) :
    engineStep s = .next s := by
  rcases h with h | h | h | h <;> rw [engineStep, h]

/-- Settles O7: the engine's step is the identity there, on the state with the entry that let it move taken off. -/
theorem restingStatesKeepEverything : Obligations.RestingStatesKeepEverything := by
  intro s hs he
  exact (step_of_engineMoves he).trans (engineStep_of_resting hs)

/-! What raises an error (R304, R308). -/

/-- The rows of R308, each with its error and the number its `ERRINFO` holds. -/
inductive RaiseCause (s : State) : EngineError → Nat → Prop where
  | illegal (h : s.phase = .unpack) (hcb : s.fetched.cb = 12#4) : RaiseCause s .invalidCodebook s.sectPtr.toNat
  | overrun (h : s.phase = .unpack) (hcb : s.fetched.cb = 11#4) : RaiseCause s .magnitudeOutOfRange 0xFFFF
  | tooLarge (h : s.phase = .solve) (hm : 8192 < s.maxMag.toNat) : RaiseCause s .magnitudeOutOfRange s.maxMag.toNat
  | badBand (h : s.phase = .rescale) (hbad : badWidth s.bandWidth = true) :
      RaiseCause s .invalidBandGeometry s.bflat.toNat

theorem leaveUnpack_phase_ne_error (s : State) : (leaveUnpack s).phase ≠ .error := by
  unfold leaveUnpack
  cases s.short <;> cases s.pauseEn <;> simp

/-- The engine's moves into ERROR are the four that raise, and every other move ends outside it. -/
theorem EngineMove.raises {s t : State} (m : EngineMove s t) (hs : s.phase ≠ .error) (ht : t.phase = .error) :
    ∃ err info, RaiseCause s err info ∧ raisedError err.code (BitVec.ofNat 16 info) s t := by
  cases m with
  | illegal h _ _ hcb => exact ⟨_, _, .illegal h hcb, raiseError_raisedError (dp := s.dp) _ _ rfl⟩
  | overrun h _ _ hcb => exact ⟨_, _, .overrun h hcb, raiseError_raisedError _ _ (tuples_ahead ..).1⟩
  | tooLarge h hm => exact ⟨_, _, .tooLarge h hm, raiseError_raisedError (dp := s.dp) _ _ rfl⟩
  | badBand h _ _ _ hbad => exact ⟨_, _, .badBand h hbad, raiseError_raisedError (dp := s.dp) _ _ rfl⟩
  | rest | zeroed | stored | band => exact absurd ht hs
  | window =>
    rw [endWindow_frame] at ht
    exact absurd ht hs
  | leave => exact absurd ht (leaveUnpack_phase_ne_error s)
  | deinterleaved => cases hpause : s.pauseEn <;> simp [hpause] at ht
  | solved | swept => cases ht

/-- Of the moves of a step only the engine's enter ERROR; the cause stands in the state it moves from, whatever is pending. -/
theorem step_raises {s t : State} (h : step s = .next t) (hs : s.phase ≠ .error) (ht : t.phase = .error) :
    ∃ s' ms err info, s = { s' with pending := ms } ∧ RaiseCause s' err info
      ∧ raisedError err.code (BitVec.ofNat 16 info) s' t := by
  rcases step_next_cases h with ⟨s', ms, rfl, m⟩ | ⟨m, rest, hp, hm⟩
  · obtain ⟨err, info, hcause, hraised⟩ := m.raises hs ht
    exact ⟨s', ms, err, info, rfl, hcause, hraised⟩
  · rcases hm.phase_change hp (ht.trans_ne hs.symm) with ⟨_, _, hphase⟩ | ⟨_, _, hphase⟩ | ⟨_, hphase⟩ <;>
      cases ht.symm.trans hphase

/-- Settles O27: each cause with the code and the information of its row; the illegal opcode is fetched and raises (R142). -/
theorem onlyTheseRaise : Obligations.OnlyTheseRaise := by
  refine ⟨fun s t h hs ht => ?_, fun s e hs hn hp he hd => ?_⟩
  · obtain ⟨s, ms, err, info, rfl, hcause, _, hcode, hinfo, _⟩ := step_raises h hs ht
    cases hcause with
    | illegal hs hcb =>
      exact .inl ⟨hs, ⟨_, decodeDescriptor_of_row (row := (12, .rsvd12)) (by simp [opcodeMap]) hcb.symm⟩, hcode,
        hinfo.trans (BitVec.ofNat_toNat ..)⟩
    | overrun hs hcb =>
      exact .inr (.inl ⟨hs, ⟨_, decodeDescriptor_of_row (row := (11, .hcb11)) (by simp [opcodeMap]) hcb.symm⟩, hcode, hinfo⟩)
    | tooLarge hs hm =>
      exact .inr (.inr (.inl ⟨hs, hm, hcode, hinfo.trans ((BitVec.ofNat_toNat ..).trans (BitVec.setWidth_eq _))⟩))
    | badBand hs hbad => exact .inr (.inr (.inr ⟨hs, hbad, hcode, hinfo.trans (BitVec.ofNat_toNat ..)⟩))
  · obtain ⟨t, ht, hphase, hcode, _⟩ := illegalOpcodeRaises e { s with pending := afterEngine s }
    exact ⟨t, (stepRunsFetchedSection s _ hs hn hp hd he).trans ht, hphase, hcode⟩

/-- Settles O28: what every raised error leaves (R307). -/
theorem errorKeepsWhatIsDefined : Obligations.ErrorKeepsWhatIsDefined := by
  intro s t h hs ht
  obtain ⟨s, ms, _, _, rfl, _, _, _, _, hptr, hinputs, hlaunch, hpos, _⟩ := step_raises h hs ht
  exact ⟨hptr, hinputs, hlaunch, hpos⟩

end Sys2Proof.Machine
end

section
/-! SUPPORT. Refusals (spec R346, R347, R76): a broken section range, premise P4 against the check of DEINT, and where a step refuses. -/

namespace Sys2Proof.Machine

/-! Premise P2: the line range of a section. -/

theorem zeroSection_of_not_premiseP2 {e : SfbEnd} {s : State} (h : ¬ premiseP2 e s) :
    zeroSection e s = .refused .sectionRange :=
  if_neg (mt (rangeOk_iff e s).1 h)

theorem regular_of_not_premiseP2 {cb : Nat} (h1 : 1 ≤ cb) (h11 : cb ≤ 11) {e : SfbEnd} {s : State} (h : ¬ premiseP2 e s) :
    regular cb e s = .refused .sectionRange := by
  rw [regular, if_neg (by omega), if_neg (mt (rangeOk_iff e s).1 h)]

/-- Settles O9: the special sections refuse as zero-fill does, HCB1 to HCB11 as the procedure of their ids. -/
theorem brokenSectionRangeIsRefused : Obligations.BrokenSectionRangeIsRefused := by
  intro e s i hi hp2
  rcases hi with hi | ⟨cb, hi⟩
  · exact (exec_specialSection e i hi s).trans (zeroSection_of_not_premiseP2 hp2)
  · obtain ⟨h1, h11, hexec⟩ := exec_regularSection e (i, cb) hi
    exact (hexec s).trans (regular_of_not_premiseP2 h1 h11 hp2)

theorem zeroSection_refused {e : SfbEnd} {s : State} {r : Refusal} (h : zeroSection e s = .refused r) :
    r = .sectionRange ∧ ¬ premiseP2 e s := by
  by_cases hp2 : premiseP2 e s
  · cases (zeroSection_of_rangeOk ((rangeOk_iff e s).2 hp2)).symm.trans h
  · cases (zeroSection_of_not_premiseP2 hp2).symm.trans h
    exact ⟨rfl, hp2⟩

/-- The illegal opcode is no exception: it raises before its range is looked at (R125, R142; log 14). -/
theorem regular_refused {cb : Nat} {e : SfbEnd} {s : State} {r : Refusal} (h : regular cb e s = .refused r) :
    r = .sectionRange ∧ ¬ premiseP2 e s := by
  unfold regular at h
  split at h
  · cases h
  · split at h
    · dsimp only at h
      split at h <;> cases h
    · rename_i hrange
      cases h
      exact ⟨rfl, mt (rangeOk_iff e s).2 hrange⟩

/-! Premise P4: the geometry of the groups. -/

/-- Every entry of a coded band that a section names holds the sum P4 words (R213, R346). -/
theorem stop_eq_of_stopsAgree {s : State} (hstops : stopsAgree s = true) (h0 : s.soffAt 0 = 0)
    (hm : ∀ i < s.nsfbs.toNat, s.soffAt i ≤ s.soffAt (i + 1)) {k g i : Nat} (hk : k < s.nsect.toNat)
    (hg : g < s.ngroup.toNat) (hi : i < s.nsfbs.toNat)
    (he : (Descriptor.sfbEnd (s.sect.read k)).toNat = g * s.nsfbs.toNat + i + 1) (h128 : g * s.nsfbs.toNat + i < 128) :
    (s.stop.read (g * s.nsfbs.toNat + i)).toNat =
      s.windowBase g * s.soffAt s.nsfbs.toNat + s.soffAt (i + 1) * s.glenAt g := by
  have hcoded : (g + 1) * s.nsfbs.toNat ≤ s.ngroup.toNat * s.nsfbs.toNat := Nat.mul_le_mul_right _ hg
  rw [Nat.add_mul] at hcoded
  simp only [stopsAgree, List.all_eq_true, List.mem_range, Bool.or_eq_true, beq_iff_eq, decide_eq_true_eq, Config.maxSfbc,
    codedSpans_length] at hstops
  have hentry := hstops k hk
  rw [he, codedSpans_take_sum s h0 hm hg hi] at hentry
  rcases hentry with ((hzero | hlarge) | hpast) | heq
  · omega
  · omega
  · omega
  · exact heq

/-- The geometry the model accepts is one P4 describes (R346). -/
theorem premiseP4_of_geometryOk {s : State} (h : geometryOk s = true) : premiseP4 s := by
  simp only [geometryOk, Bool.and_eq_true, decide_eq_true_eq, List.all_eq_true, List.mem_range, beq_iff_eq] at h
  obtain ⟨⟨⟨⟨⟨⟨⟨⟨hlo, hhi⟩, hlen⟩, h8⟩, hn⟩, h0⟩, hm⟩, h128⟩, hstops⟩ := h
  exact ⟨hlo, hhi, hlen, h8, hn, BitVec.eq_of_toNat_eq h0, hm, h128,
    fun _ hk _ hg _ hi he hlt => stop_eq_of_stopsAgree hstops h0 hm hk hg hi he hlt⟩

/-- Settles O43: each direction is a lemma, and the named entries of STOP are compared with the closed form of the sum. -/
theorem geometryPremise : Obligations.GeometryPremise :=
  fun _ => ⟨premiseP4_of_geometryOk, geometryOk_of_premiseP4⟩

/-! Where the engine refuses (log 7). -/

/-- The refusals of one engine step, each with the premise that is broken (R346, R347). -/
inductive EngineRefusal (s : State) : Refusal → Prop where
  | sectionTable (h : s.phase = .unpack) (hn : 128 < s.nsect.toNat) : EngineRefusal s .sectionTable
  | sectionRange (h : s.phase = .unpack) (hp : s.sectPtr.toNat < s.nsect.toNat) (hp2 : ¬ premiseP2 s.fetched.sfbEnd s) :
      EngineRefusal s .sectionRange
  | groupGeometry (h : s.phase = .deint) (hp4 : ¬ premiseP4 s) : EngineRefusal s .groupGeometry
  | bandWindow (h : s.phase = .rescale) (hw : s.win.toNat < s.windows)
      (hp3 : 64 < s.bandsIn s.win.toNat ∨ (badWidth s.bandWidth = false ∧ (s.windowLen : Int) < s.bandTop)) :
      EngineRefusal s .bandWindow

/-- A fetched section refuses only for the range of its own operand. -/
theorem section_refused {s : State} {r : Refusal} (h : runDecoded (decode (.descriptor s.fetched)) s = .refused r) :
    r = .sectionRange ∧ ¬ premiseP2 s.fetched.sfbEnd s := by
  obtain ⟨row, hrow, hcb⟩ := exists_row s.fetched.cb
  rw [decode, decodeDescriptor_of_row hrow hcb, runDecoded, exec_row _ s row hrow] at h
  split at h
  · exact zeroSection_refused h
  · exact regular_refused h

theorem unpackStep_refused {s : State} {r : Refusal} (hs : s.phase = .unpack) (h : unpackStep s = .refused r) :
    EngineRefusal s r := by
  unfold unpackStep at h
  split at h
  · rename_i hn
    cases h
    exact .sectionTable hs hn
  · split at h
    · rename_i hp
      obtain ⟨rfl, hp2⟩ := section_refused h
      exact .sectionRange hs hp hp2
    · cases h

theorem bandStep_refused {s : State} {r : Refusal} (h : bandStep s = .refused r) :
    r = .bandWindow ∧ badWidth s.bandWidth = false ∧ (s.windowLen : Int) < s.bandTop := by
  unfold bandStep at h
  split at h
  · cases h
  rename_i hgood
  split at h
  · cases h
  split at h
  · rename_i htop
    cases h
    exact ⟨rfl, Bool.eq_false_iff.2 hgood, htop⟩
  · cases h

theorem rescaleStep_refused {s : State} {r : Refusal} (hs : s.phase = .rescale) (h : rescaleStep s = .refused r) :
    EngineRefusal s r := by
  unfold rescaleStep at h
  split at h
  · cases h
  rename_i hw
  split at h
  · rename_i hn
    cases h
    exact .bandWindow hs (not_le.1 hw) (.inl hn)
  split at h
  · cases h
  · obtain ⟨rfl, hwindow⟩ := bandStep_refused h
    exact .bandWindow hs (not_le.1 hw) (.inr hwindow)

/-- Every refusal of an engine step is that of a broken premise P1 to P4. -/
theorem engineStep_refused {s : State} {r : Refusal} (h : engineStep s = .refused r) : EngineRefusal s r := by
  unfold engineStep at h
  split at h
  case h_2 hs => exact unpackStep_refused hs h
  case h_3 hs =>
    unfold deintStep at h
    split at h
    · cases h
    · rename_i hgeom
      cases h
      exact .groupGeometry hs (mt geometryOk_of_premiseP4 hgeom)
  case h_5 =>
    unfold solveStep at h
    split at h <;> cases h
  case h_6 hs => exact rescaleStep_refused hs h
  all_goals cases h

/-! Where a step refuses. -/

/-- A command is never refused: where it has no effect it is ignored (R285). -/
theorem exec_command_ne_refused {i : Instr} (hi : i = .start ∨ i = .resume ∨ i = .abort) (s : State) (r : Refusal) :
    exec i s ≠ .refused r := by
  rcases hi with rfl | rfl | rfl
  · by_cases hl : startLegal s = true
    · simp [exec_start_of_legal hl]
    · simp [exec_start_of_not_legal hl]
  · by_cases hp : s.phase = .paused
    · simp [exec_resume_of_paused hp]
    · simp [exec_resume_of_not_paused hp]
  · simp [exec_abort]

theorem hostWrite_ne_refused (reg : HostReg) (v : HostWord) (s : State) (r : Refusal) : hostWrite reg v s ≠ .refused r := by
  by_cases hreg : reg = .ctrl
  · subst hreg
    rw [hostWrite, decode]
    cases hd : decodeControl v with
    | ok i => exact exec_command_ne_refused (decodeControl_command hd) s r
    | error _ => simp [runDecoded]
  · simp [hostWrite_of_ne_ctrl hreg]

/-- A step that refuses is the engine's, whatever is pending, or the host's taking of a reader in use (R76; log 9). -/
theorem step_refused {s : State} {r : Refusal} (h : step s = .refused r) :
    (∃ s' ms, s = { s' with pending := ms } ∧ EngineRefusal s' r)
    ∨ (r = .readerInUse ∧ s.busy = true ∧ ∃ bits pos rest, s.pending = .positionReader bits pos :: rest) := by
  unfold step advance at h
  split at h
  case h_1 => exact .inl ⟨s, s.pending, rfl, engineStep_refused h⟩
  case h_2 rest _ => exact .inl ⟨{ s with pending := rest }, s.pending, rfl, engineStep_refused h⟩
  case h_3 =>
    split at h
    · exact .inl ⟨s, s.pending, rfl, engineStep_refused h⟩
    · cases h
  case h_4 => exact absurd h (hostWrite_ne_refused _ _ _ _)
  case h_8 bits pos rest hp =>
    unfold positionReader at h
    split at h
    · rename_i hb
      cases h
      exact .inr ⟨rfl, hb, bits, pos, rest, hp⟩
    · cases h
  all_goals cases h

/-- Settles O8: by the causes of the engine's refusals, and the one refusal of a host move. -/
theorem refusedOnlyForABrokenPremise : Obligations.RefusedOnlyForABrokenPremise := by
  intro s r h
  rcases step_refused h with ⟨s, ms, rfl, hcause⟩ | hreader
  · cases hcause with
    | sectionTable hs hn => exact .inl ⟨rfl, hs, hn⟩
    | sectionRange hs hp hp2 => exact .inr (.inl ⟨rfl, hs, hp, hp2⟩)
    | groupGeometry hs hp4 => exact .inr (.inr (.inl ⟨rfl, hs, hp4⟩))
    | bandWindow hs hw hp3 => exact .inr (.inr (.inr (.inl ⟨rfl, hs, hw, hp3⟩)))
  · exact .inr (.inr (.inr (.inr hreader)))

end Sys2Proof.Machine
end

section
/-! SUPPORT. A launch ends (spec R346, R347, R352): a count of the engine steps left that every move makes smaller, and running the
steps. -/

namespace Sys2Proof.Machine

/-! The steps left (log 3). -/

/-- A bound on the engine's steps from here to the end of the launch: 129 steps of UNPACK at most, one each of DEINT and SOLVE, and
521 of RESCALE, which are 512 bands, 8 ends of a window and the end of the sweep. -/
def State.stepsLeft (s : State) : Nat :=
  match s.phase with
  | .unpack => 652 - s.sectPtr.toNat
  | .deint => 523
  | .solve => 522
  | .rescale => 521 - (s.win.toNat + s.bflat.toNat)
  | .idle | .paused | .done | .error => 0

theorem stepsLeft_of_unpack {s : State} (h : s.phase = .unpack) : s.stepsLeft = 652 - s.sectPtr.toNat := by
  rw [State.stepsLeft, h]

theorem stepsLeft_of_deint {s : State} (h : s.phase = .deint) : s.stepsLeft = 523 := by rw [State.stepsLeft, h]

theorem stepsLeft_of_solve {s : State} (h : s.phase = .solve) : s.stepsLeft = 522 := by rw [State.stepsLeft, h]

theorem stepsLeft_of_rescale {s : State} (h : s.phase = .rescale) : s.stepsLeft = 521 - (s.win.toNat + s.bflat.toNat) := by
  rw [State.stepsLeft, h]

theorem stepsLeft_le (s : State) : s.stepsLeft ≤ 652 := by
  unfold State.stepsLeft
  split <;> omega

/-- A busy engine has a step left. -/
theorem stepsLeft_pos {s : State} (h : PositionOk s) (hb : s.busy = true) : 0 < s.stepsLeft := by
  have hptr := h.sectPtr
  have hwin := h.win
  have hbflat := h.bflat
  unfold State.busy at hb
  unfold State.stepsLeft
  cases hs : s.phase with
  | unpack | deint | solve | rescale => dsimp only; omega
  | idle | paused | done | error => simp [hs] at hb

/-- The launch is over, or the host is to resume it (R280, R282). -/
def State.ended (s : State) : Prop := s.phase = .paused ∨ s.phase = .done ∨ s.phase = .error

/-- The engine is still busy, with fewer steps left. -/
def Nearer (s t : State) : Prop := t.busy = true ∧ t.stepsLeft < s.stepsLeft

/-- A section falls through to the next place of the table (R120). -/
theorem nearer_of_nextSection {s t : State} (hs : s.phase = .unpack) (hn : s.nsect.toNat ≤ 128)
    (hp : s.sectPtr.toNat < s.nsect.toNat) (ht : t.phase = .unpack) (hptr : t.sectPtr = s.sectPtr + 1) : Nearer s t := by
  refine ⟨by simp [State.busy, ht], ?_⟩
  rw [stepsLeft_of_unpack hs, stepsLeft_of_unpack ht, hptr, sectPtr_succ_toNat hn hp]
  omega

/-- The exit from UNPACK (R127). -/
theorem leaveUnpack_ended_or_nearer {s : State} (h : s.sectPtr.toNat ≤ 128) (hs : s.phase = .unpack) :
    (leaveUnpack s).ended ∨ Nearer s (leaveUnpack s) := by
  have hleft := stepsLeft_of_unpack hs
  unfold leaveUnpack
  cases s.short with
  | true => exact .inr ⟨rfl, by rw [stepsLeft_of_deint rfl, hleft]; omega⟩
  | false =>
    cases s.pauseEn with
    | true => exact .inl (.inl rfl)
    | false => exact .inr ⟨rfl, by rw [stepsLeft_of_solve rfl, hleft]; omega⟩

/-- The exit from DEINT (R215). -/
theorem deinterleaved_ended_or_nearer {s : State} (hs : s.phase = .deint) (ds : Mem 16) :
    State.ended { s with ds := ds, phase := if s.pauseEn then .paused else .solve }
    ∨ Nearer s { s with ds := ds, phase := if s.pauseEn then .paused else .solve } := by
  cases s.pauseEn with
  | true => exact .inl (.inl rfl)
  | false => exact .inr ⟨rfl, by rw [stepsLeft_of_solve rfl, stepsLeft_of_deint hs]; omega⟩

/-- A band or the end of a window: the sweep moves on by one of its two counters (R251). -/
theorem nearer_of_sweep {s t : State} (hs : s.phase = .rescale) (ht : t.phase = .rescale)
    (hwin : s.win.toNat ≤ 8) (hbflat : s.bflat.toNat ≤ 512)
    (hsucc : t.win.toNat + t.bflat.toNat = s.win.toNat + s.bflat.toNat + 1) : Nearer s t := by
  refine ⟨by simp [State.busy, ht], ?_⟩
  rw [stepsLeft_of_rescale hs, stepsLeft_of_rescale ht]
  omega

/-- Every move of a busy engine ends the launch or leaves fewer steps. -/
theorem EngineMove.ended_or_nearer {s t : State} (m : EngineMove s t) (h : Invariant s) (hb : s.busy = true) :
    t.ended ∨ Nearer s t := by
  have hwin := h.position.win
  have hbflat := h.position.bflat
  cases m with
  | rest hidle => simp [hb] at hidle
  | leave hs => exact leaveUnpack_ended_or_nearer h.position.sectPtr hs
  | zeroed hs hn hp | stored hs hn hp => exact .inr (nearer_of_nextSection hs hn hp hs rfl)
  | illegal | overrun | tooLarge | badBand => exact .inl (.inr (.inr rfl))
  | deinterleaved hs => exact deinterleaved_ended_or_nearer hs _
  | solved hs => exact .inr ⟨rfl, by rw [stepsLeft_of_solve hs, stepsLeft_of_rescale rfl]; omega⟩
  | swept => exact .inl (.inr (.inl rfl))
  | window hs hw =>
    rw [endWindow_frame]
    refine .inr (nearer_of_sweep hs hs hwin hbflat ?_)
    dsimp only
    rw [win_succ_toNat hw]
    omega
  | band hs _ _ _ _ _ hf =>
    refine .inr (nearer_of_sweep hs hs hwin hbflat ?_)
    have hsucc : (rescaleBand s).bflat.toNat = s.bflat.toNat + 1 := toNat_add_one (by omega)
    rw [hsucc, rescaleBand_win]
    omega

/-! The entries that let the engine move (log 3). -/

/-- Nothing is pending but entries that let the engine move. -/
def State.engineAlone (s : State) : Prop := ∀ m ∈ s.pending, m = .engine ∨ m = .await

theorem engineMoves_of_engineAlone {s : State} (ha : s.engineAlone) (hb : s.busy = true) : engineMoves s := by
  cases hp : s.pending with
  | nil => exact .inl hp
  | cons m rest =>
    rcases ha m (by simp [hp]) with rfl | rfl
    · exact .inr (.inl ⟨rest, hp⟩)
    · exact .inr (.inr ⟨hb, rest, hp⟩)

theorem mem_pending_of_mem_afterEngine {s : State} {m : HostMove} (hm : m ∈ afterEngine s) : m ∈ s.pending := by
  unfold afterEngine at hm
  split at hm
  · rename_i hp
    rw [hp]
    exact List.mem_cons_of_mem _ hm
  · exact hm

theorem EngineMove.pending_eq {s t : State} (m : EngineMove s t) : t.pending = s.pending := by
  cases m with
  | window => rw [endWindow_frame]
  | rest | leave | zeroed | stored | illegal | overrun | deinterleaved | tooLarge | solved | swept | badBand | band => rfl

/-- Left alone, a busy engine that meets the invariant moves, or refuses a broken premise P1 to P4. -/
theorem step_of_engineAlone {s : State} (h : Invariant s) (hb : s.busy = true) (ha : s.engineAlone) :
    (∃ t, step s = .next t ∧ Invariant t ∧ t.engineAlone ∧ (t.ended ∨ Nearer s t))
    ∨ ∃ r, step s = .refused r ∧ EngineRefusal { s with pending := afterEngine s } r := by
  have hstep := step_of_engineMoves (engineMoves_of_engineAlone ha hb)
  have h' : Invariant { s with pending := afterEngine s } := pending_invariant h _
  cases ho : engineStep { s with pending := afterEngine s } with
  | next t =>
    have m := engineStep_next ho
    refine .inl ⟨t, hstep.trans ho, m.keeps_invariant h', fun x hx => ?_, m.ended_or_nearer h' hb⟩
    rw [m.pending_eq] at hx
    exact ha x (mem_pending_of_mem_afterEngine hx)
  | fault f => exact absurd (engineStep_fault ho) h'.not_bandFaults
  | refused r => exact .inr ⟨r, hstep.trans ho, engineStep_refused ho⟩

/-! Running the steps. -/

theorem runSteps_succ_of_next {s t : State} (h : step s = .next t) (n : Nat) : runSteps (n + 1) s = runSteps n t := by
  rw [runSteps, h]

theorem runSteps_succ_of_refused {s : State} {r : Refusal} (h : step s = .refused r) (n : Nat) :
    runSteps (n + 1) s = .refused r := by
  rw [runSteps, h]

/-- At most `k` steps end the launch or are refused for a broken premise. -/
def EndsWithin (k : Nat) (s : State) : Prop :=
  ∃ n ≤ k, (∃ t, runSteps n s = .next t ∧ t.ended)
    ∨ ∃ r, runSteps n s = .refused r ∧ (r = .sectionTable ∨ r = .sectionRange ∨ r = .bandWindow ∨ r = .groupGeometry)

theorem endsWithin_of_ended {s : State} (h : s.ended) (k : Nat) : EndsWithin k s := ⟨0, Nat.zero_le k, .inl ⟨s, rfl, h⟩⟩

theorem EndsWithin.of_step {k : Nat} {s t : State} (h : EndsWithin k t) (hstep : step s = .next t) : EndsWithin (k + 1) s := by
  obtain ⟨n, hn, hend⟩ := h
  refine ⟨n + 1, Nat.succ_le_succ hn, ?_⟩
  rw [runSteps_succ_of_next hstep]
  exact hend

theorem endsWithin_of_refused {s s' : State} {r : Refusal} (hstep : step s = .refused r) (hcause : EngineRefusal s' r) (k : Nat) :
    EndsWithin (k + 1) s := by
  refine ⟨1, Nat.le_add_left 1 k, .inr ⟨r, runSteps_succ_of_refused hstep 0, ?_⟩⟩
  cases hcause <;> simp

/-- The count bounds the run: by induction on the bound, one step at a time. -/
theorem endsWithin_of_stepsLeft_le : ∀ (k : Nat) (s : State), Invariant s → s.busy = true → s.engineAlone →
    s.stepsLeft ≤ k → EndsWithin k s
  | 0, _, h, hb, _, hk => absurd (stepsLeft_pos h.position hb) (not_lt.2 hk)
  | k + 1, s, h, hb, ha, hk => by
    rcases step_of_engineAlone h hb ha with ⟨t, hstep, ht, hta, hended | ⟨htb, hlt⟩⟩ | ⟨r, hstep, hcause⟩
    · exact (endsWithin_of_ended hended k).of_step hstep
    · exact (endsWithin_of_stepsLeft_le k t ht htb hta (by omega)).of_step hstep
    · exact endsWithin_of_refused hstep hcause k

/-- Settles O60: the count is at most 652 in every state. -/
theorem everyLaunchEnds : Obligations.EveryLaunchEnds :=
  fun s h hb ha => endsWithin_of_stepsLeft_le 652 s ((inv_iff s).1 h) hb ha (stepsLeft_le s)

end Sys2Proof.Machine
end
